-- ==== Sys2Proof/Word.lean ====
section
/-! DEFINITION. The unit of every buffer and stream (a byte) and the shape of a word offered to the block. -/

namespace Sys2Proof

/-- An unsigned 8-bit value (40_codec R130). -/
abbrev Byte := BitVec 8

/-- A finite sequence of bytes (40_codec R130). -/
abbrev Bytes := List Byte

/-- Which code space of spec/opcode_table.json a word belongs to. The spaces overlap as numbers
(EV 0x0, CMD0 0x00 and status 0 are one number), so a word carries its space. DESIGN CHOICE, log entry 4. -/
inductive Port where
  /-- An input event, selected by its 4-bit code EV (30_encoding R101). -/
  | event
  /-- Bytes of the wire format: a CMD0 byte (R94, R95) or a frame header (R91, R92). -/
  | link
  /-- A 3-bit status code of a DONE event (R110). -/
  | status
deriving DecidableEq, Repr

/-- One offered word: its code space and its bytes, first byte first. -/
structure PortWord where
  port : Port
  bytes : Bytes
deriving DecidableEq, Repr

end Sys2Proof
end

