-- ==== Sys2Proof/Config.lean ====
section
/-! DEFINITION. The parameters of 00_scope R4 to R8 that are constants of this hardware, the sizes of the two buffers,
and the values the spec leaves open (opaque: no proof can see what they are). -/

namespace Sys2Proof.Config

/-- `SOF`, the "constant marker byte" of a frame (00_scope R7). -/
def sof : Byte := 0xFE#8

/-- `T_WRACK`, the bound of the write-acknowledgment wait in TICK events (00_scope R6). UNVERIFIED literal, log entry 23. -/
def tWrack : BitVec 11 := 1150#11

/-- `T_DRAIN`, the bound of the drain wait in TICK events (00_scope R6). UNVERIFIED literal, log entry 23. -/
def tDrain : BitVec 11 := 1100#11

/-- `LEN_BYTES` when the configuration record gives none (00_scope R4, 70_reset R261). -/
def defaultLenBytes : Nat := 2

/-- `HAS_TRANSPORT` when nothing is supplied (00_scope R5). -/
def defaultHasTransport : Bool := false

/-- Number of bytes of RXBUF: indices 0 to 65534 (20_memory R60). -/
def rxbufSize : Nat := 65535

/-- Number of bytes of TXBUF: indices 0 to 65540 (20_memory R60). -/
def txbufSize : Nat := 65541

/-- What a buffer byte that nothing has written reads as. The spec says "unspecified, never read before written"
(10_state R41, R42). DESIGN CHOICE, log entry 11. -/
def bufFill : Byte := 0x00#8

/-- Which transport error is kept when several arrive in one send window (00_scope R8). -/
inductive ErrKeep where
  | first
  | last
deriving DecidableEq, Repr, Inhabited

/-- `ERR_KEEP`, OPEN in the spec (92_eei_decisions D17): a constant nothing constrains, log entry 9. -/
opaque errKeep : ErrKeep

/-- The transport's answer `accepted` to the `n`-th write for which the environment has prescribed none: a free value
(30_encoding R109 "a `draw` supplied by the environment"), log entry 8. -/
opaque accepted : Nat → Bool

end Sys2Proof.Config
end

