-- ==== Sys2Proof/Syntax.lean ====
section
/-! DEFINITION. The operations of the block as syntax: one constructor of `Instr` for every row of spec/opcode_table.json,
with the operands that 30_encoding R102 to R106 give the events. -/

namespace Sys2Proof

/-- Where an inbound byte comes from (30_encoding R102). -/
inductive Src where
  /-- `T` = 0: the Transport Adapter. -/
  | transport
  /-- `H` = 1: a host `receive` call. -/
  | host
deriving DecidableEq, Repr

/-- A byte-sequence argument with its 2-bit kind (30_encoding R103, R104): the `chunk` of RECEIVE, the payload of SEND.
The reserved kind 3 is no argument: the decoder refuses it. -/
inductive ByteArg where
  /-- `ABSENT` = 0. -/
  | absent
  /-- `BYTES` = 1. -/
  | bytes (bs : Bytes)
  /-- `NOTBYTES` = 2: present but not a byte sequence. -/
  | notBytes
deriving DecidableEq, Repr

/-- The descriptor of a SEND (30_encoding R104); `pl_len` is the length of the payload's byte sequence. -/
structure SendDesc where
  typeOk : Bool
  type : Byte
  subsysOk : Bool
  subsys : Byte
  cmdOk : Bool
  cmd : Byte
  payload : ByteArg
deriving DecidableEq, Repr

/-- The 23 rows of the opcode table. -/
inductive Instr where
  /-- RXBYTE (R150). -/
  | rxbyte (src : Src) (b : Byte)
  /-- RECEIVE (R161). -/
  | receive (arg : ByteArg)
  /-- SEND (R180). -/
  | send (desc : SendDesc)
  /-- WRACK (R186). -/
  | wrack
  /-- DRAIN (R189). -/
  | drain
  /-- TERR (R190). -/
  | terr (e : Byte)
  /-- TICK (R191). -/
  | tick
  /-- CLOSE (R197). -/
  | close
  /-- TYPE_POLL: a CMD0 byte of type 0 (R95). -/
  | typePoll (subsys : BitVec 5)
  /-- TYPE_SREQ: type 1. -/
  | typeSreq (subsys : BitVec 5)
  /-- TYPE_AREQ: type 2. -/
  | typeAreq (subsys : BitVec 5)
  /-- TYPE_SRSP: type 3. -/
  | typeSrsp (subsys : BitVec 5)
  /-- TYPE_RES0: type 4. -/
  | typeRes0 (subsys : BitVec 5)
  /-- TYPE_RES1: type 5. -/
  | typeRes1 (subsys : BitVec 5)
  /-- TYPE_RES2: type 6. -/
  | typeRes2 (subsys : BitVec 5)
  /-- TYPE_RES3: type 7. -/
  | typeRes3 (subsys : BitVec 5)
  /-- FRAME_HDR_L1: the four header bytes of a frame with a one-byte LENGTH (R91). -/
  | frameHdrL1 (len : BitVec 8) (type : BitVec 3) (subsys : BitVec 5) (cmd : Byte)
  /-- FRAME_HDR_L2: the five header bytes of a frame with a two-byte LENGTH (R92). -/
  | frameHdrL2 (len : BitVec 16) (type : BitVec 3) (subsys : BitVec 5) (cmd : Byte)
  /-- DONE_OK: status 0 (R110). -/
  | doneOk
  /-- DONE_INVALID_ARGUMENT: status 1. -/
  | doneInvalidArgument
  /-- DONE_UNRESOLVED_COMMAND: status 2. -/
  | doneUnresolvedCommand
  /-- DONE_TIMEOUT: status 3. -/
  | doneTimeout
  /-- DONE_TRANSPORT_ERROR: status 4. -/
  | doneTransportError
deriving DecidableEq, Repr

/-- Why the decoder gives a word no instruction. -/
inductive DecodeError where
  /-- Event codes 0x8 to 0xF (30_encoding R101, 93 U7). -/
  | reservedEventCode
  /-- The kind code 3 of RECEIVE or SEND (R103, R104, 93 U3). -/
  | reservedKind
  /-- Status codes 5 to 7, "never produced" (R110). -/
  | reservedStatus
  /-- Link bytes that are neither one CMD0 byte nor a frame header: no SOF in front, or another number of bytes (R91, R92).
  DESIGN CHOICE, log entry 31. -/
  | noFrameHeader
  /-- Bytes that are no record of the layout of log entry 3 (operand bytes missing or too many, bits set above a field). -/
  | malformedWord
deriving DecidableEq, Repr

end Sys2Proof
end

