-- ==== Sys2Proof/WellFormed.lean ====
section
/-! DEFINITION. What makes a term of `Instr` one the block's ports can carry. -/

namespace Sys2Proof

/-- A payload that the 16-bit `pl_len` can count (30_encoding R104). -/
def ByteArg.fits16 : ByteArg → Bool
  | .absent => true
  | .bytes bs => decide (bs.length < 65536)
  | .notBytes => true

/-- The one check that the types of `Instr` do not make by themselves: a SEND's payload has a length that `pl_len` holds.
The chunk of a RECEIVE may have any length (R103). -/
def WellFormed : Instr → Bool
  | .send d => d.payload.fits16
  | .rxbyte _ _ | .receive _ | .wrack | .drain | .terr _ | .tick | .close
  | .typePoll _ | .typeSreq _ | .typeAreq _ | .typeSrsp _
  | .typeRes0 _ | .typeRes1 _ | .typeRes2 _ | .typeRes3 _
  | .frameHdrL1 _ _ _ _ | .frameHdrL2 _ _ _ _
  | .doneOk | .doneInvalidArgument | .doneUnresolvedCommand | .doneTimeout | .doneTransportError => true

end Sys2Proof
end

