-- ==== Sys2Proof/Decode.lean ====
section
/-! DEFINITION. Bit-field and byte-order helpers, the decoder from an offered word to an instruction (total, rejecting by
name), the encoder from the same tables, and the reading of a bare opcode-table word. -/

namespace Sys2Proof

/-! ## Bit fields and byte order -/

/-- Bits 7:0 of a 16-bit value (30_encoding R93). -/
def loByte (n : BitVec 16) : Byte := n.setWidth 8

/-- Bits 15:8 of a 16-bit value (30_encoding R93). -/
def hiByte (n : BitVec 16) : Byte := (n >>> 8).setWidth 8

/-- `(zext_16(hi) << 8) | zext_16(lo)` (30_encoding R93, 20_memory R62). -/
def le16 (lo hi : Byte) : BitVec 16 := (hi.setWidth 16 <<< 8) ||| lo.setWidth 16

/-- `cmd0 >> 5` (30_encoding R94, 41_framer R155). -/
def cmd0Type (b : Byte) : BitVec 3 := b.extractLsb' 5 3

/-- `cmd0 & 0x1F` (30_encoding R94, 41_framer R155). -/
def cmd0Subsys (b : Byte) : BitVec 5 := b.setWidth 5

/-- `pack_cmd0(type, subsys) = ((type << 5) & 0xE0) | (subsys & 0x1F)` (40_codec R136). -/
def packCmd0 (t : BitVec 3) (subsys : Byte) : Byte :=
  ((t.setWidth 8 <<< 5) &&& 0xE0#8) ||| (subsys &&& 0x1F#8)

/-- A 1-bit field carried in a byte of its own: bits 7:1 are 0. -/
def bit1 (b : Byte) : Option Bool :=
  match b.toNat with
  | 0 => some false
  | 1 => some true
  | _ => none

/-! ## The decoder -/

/-- The 2-bit kind of a byte-sequence argument (30_encoding R103, R104). The bytes are meaningful only for `BYTES`. -/
def decodeKind (kind : Nat) (bs : Bytes) : Except DecodeError ByteArg :=
  match kind with
  | 0 => .ok .absent
  | 1 => .ok (.bytes bs)
  | 2 => .ok .notBytes
  | 3 => .error .reservedKind
  | _ => .error .malformedWord

/-- The sideband of RXBYTE: `src`, then `b` (30_encoding R102). -/
def decodeRxbyte : Bytes → Except DecodeError Instr
  | [src, b] =>
    match bit1 src with
    | some false => .ok (.rxbyte .transport b)
    | some true => .ok (.rxbyte .host b)
    | none => .error .malformedWord
  | _ => .error .malformedWord

/-- The sideband of RECEIVE: `kind`, then the chunk, which has any length (30_encoding R103). -/
def decodeReceive : Bytes → Except DecodeError Instr
  | kind :: chunk =>
    match decodeKind kind.toNat chunk with
    | .ok a => .ok (.receive a)
    | .error e => .error e
  | [] => .error .malformedWord

/-- The sideband of SEND: a byte of qualifiers (bit 0 `type_ok`, bit 1 `subsys_ok`, bit 2 `cmd_ok`, bits 4:3 `pl_kind`,
bits 7:5 zero), `type`, `subsys`, `cmd`, `pl_len` low byte first, then the payload, which with `BYTES` has `pl_len` bytes
(30_encoding R104; the layout is log entry 3). A descriptor with the reserved `pl_kind` 3 has no decoding; that it is refused
when its word is taken, held or not, is DESIGN CHOICE, log entry 28. -/
def decodeSend : Bytes → Except DecodeError Instr
  | q :: type :: subsys :: cmd :: lo :: hi :: pl =>
    if q.extractLsb' 5 3 ≠ 0#3 then .error .malformedWord
    else
      match decodeKind (q.extractLsb' 3 2).toNat pl with
      | .error e => .error e
      | .ok a =>
        if a = .bytes pl ∧ pl.length ≠ (le16 lo hi).toNat then .error .malformedWord
        else .ok (.send { typeOk := q.getLsbD 0, type := type, subsysOk := q.getLsbD 1, subsys := subsys,
                          cmdOk := q.getLsbD 2, cmd := cmd, payload := a })
  | _ => .error .malformedWord

/-- An event with no operands (30_encoding R105). -/
def decodeBare (i : Instr) : Bytes → Except DecodeError Instr
  | [] => .ok i
  | _ => .error .malformedWord

/-- The sideband of TERR: the error code (30_encoding R106). -/
def decodeTerr : Bytes → Except DecodeError Instr
  | [e] => .ok (.terr e)
  | _ => .error .malformedWord

/-- An input event: the code EV in the low four bits of the first byte (30_encoding R101), then its sideband. -/
def decodeEvent : Bytes → Except DecodeError Instr
  | [] => .error .malformedWord
  | ev :: side =>
    match ev.toNat with
    | 0 => decodeRxbyte side
    | 1 => decodeReceive side
    | 2 => decodeSend side
    | 3 => decodeBare .wrack side
    | 4 => decodeBare .drain side
    | 5 => decodeTerr side
    | 6 => decodeBare .tick side
    | 7 => decodeBare .close side
    | n => if n < 16 then .error .reservedEventCode else .error .malformedWord

/-- The table row of type code `t` (30_encoding R95). -/
def typeRow (t : BitVec 3) (subsys : BitVec 5) : Instr :=
  match t.toNat with
  | 0 => .typePoll subsys
  | 1 => .typeSreq subsys
  | 2 => .typeAreq subsys
  | 3 => .typeSrsp subsys
  | 4 => .typeRes0 subsys
  | 5 => .typeRes1 subsys
  | 6 => .typeRes2 subsys
  | _ => .typeRes3 subsys

/-- Link bytes: one CMD0 byte (30_encoding R94, R95), or the four or five bytes of a frame header in wire order
(R91, R92). The opcode table has no row for any other byte string, and the spec refuses none on the wire (R99): that such a
word is refused here, though its bytes may be offered as RXBYTE events, is DESIGN CHOICE, log entry 31. -/
def decodeLink : Bytes → Except DecodeError Instr
  | [b] => .ok (typeRow (cmd0Type b) (cmd0Subsys b))
  | [sof, n, cmd0, cmd] =>
    if sof = Config.sof then .ok (.frameHdrL1 n (cmd0Type cmd0) (cmd0Subsys cmd0) cmd)
    else .error .noFrameHeader
  | [sof, lo, hi, cmd0, cmd] =>
    if sof = Config.sof then .ok (.frameHdrL2 (le16 lo hi) (cmd0Type cmd0) (cmd0Subsys cmd0) cmd)
    else .error .noFrameHeader
  | _ => .error .noFrameHeader

/-- A 3-bit status code, zero-extended to a byte (30_encoding R110). -/
def decodeStatus : Bytes → Except DecodeError Instr
  | [c] =>
    match c.toNat with
    | 0 => .ok .doneOk
    | 1 => .ok .doneInvalidArgument
    | 2 => .ok .doneUnresolvedCommand
    | 3 => .ok .doneTimeout
    | 4 => .ok .doneTransportError
    | n => if n < 8 then .error .reservedStatus else .error .malformedWord
  | _ => .error .malformedWord

/-- The instruction an offered word stands for. -/
def decode (w : PortWord) : Except DecodeError Instr :=
  match w.port with
  | .event => decodeEvent w.bytes
  | .link => decodeLink w.bytes
  | .status => decodeStatus w.bytes

/-! ## The encoder -/

/-- The 4-bit event codes of 30_encoding R101, zero-extended to a byte. -/
def evRxbyte : Byte := 0x0#8
def evReceive : Byte := 0x1#8
def evSend : Byte := 0x2#8
def evWrack : Byte := 0x3#8
def evDrain : Byte := 0x4#8
def evTerr : Byte := 0x5#8
def evTick : Byte := 0x6#8
def evClose : Byte := 0x7#8

/-- `T` = 0, `H` = 1 (30_encoding R102). -/
def srcCode : Src → Byte
  | .transport => 0#8
  | .host => 1#8

/-- The kind code of a byte-sequence argument (30_encoding R103, R104). -/
def kindCode : ByteArg → BitVec 2
  | .absent => 0#2
  | .bytes _ => 1#2
  | .notBytes => 2#2

/-- The bytes an argument carries; none unless it is a byte sequence. -/
def argBytes : ByteArg → Bytes
  | .absent => []
  | .bytes bs => bs
  | .notBytes => []

/-- The qualifier byte of a SEND record (log entry 3). -/
def sendQualifiers (d : SendDesc) : Byte :=
  (0#3 ++ kindCode d.payload) ++ (BitVec.ofBool d.cmdOk ++ BitVec.ofBool d.subsysOk ++ BitVec.ofBool d.typeOk)

/-- `pl_len`: the number of payload bytes, 0 unless `pl_kind = BYTES` (30_encoding R104). -/
def plLen (d : SendDesc) : BitVec 16 := BitVec.ofNat 16 (argBytes d.payload).length

def eventWord (ev : Byte) (side : Bytes) : PortWord := { port := .event, bytes := ev :: side }

/-- A CMD0 byte alone on the link (30_encoding R94). -/
def cmd0Word (t : BitVec 3) (subsys : BitVec 5) : PortWord :=
  { port := .link, bytes := [packCmd0 t (subsys.setWidth 8)] }

/-- A status code on the status port. -/
def statusWord (code : Byte) : PortWord := { port := .status, bytes := [code] }

/-- The word of an instruction. -/
def encode : Instr → PortWord
  | .rxbyte src b => eventWord evRxbyte [srcCode src, b]
  | .receive a => eventWord evReceive ((kindCode a).setWidth 8 :: argBytes a)
  | .send d => eventWord evSend
      (sendQualifiers d :: d.type :: d.subsys :: d.cmd :: loByte (plLen d) :: hiByte (plLen d) :: argBytes d.payload)
  | .wrack => eventWord evWrack []
  | .drain => eventWord evDrain []
  | .terr e => eventWord evTerr [e]
  | .tick => eventWord evTick []
  | .close => eventWord evClose []
  | .typePoll s => cmd0Word 0#3 s
  | .typeSreq s => cmd0Word 1#3 s
  | .typeAreq s => cmd0Word 2#3 s
  | .typeSrsp s => cmd0Word 3#3 s
  | .typeRes0 s => cmd0Word 4#3 s
  | .typeRes1 s => cmd0Word 5#3 s
  | .typeRes2 s => cmd0Word 6#3 s
  | .typeRes3 s => cmd0Word 7#3 s
  | .frameHdrL1 n t s c =>
      { port := .link, bytes := [Config.sof, n, packCmd0 t (s.setWidth 8), c] }
  | .frameHdrL2 n t s c =>
      { port := .link, bytes := [Config.sof, loByte n, hiByte n, packCmd0 t (s.setWidth 8), c] }
  | .doneOk => statusWord 0#8
  | .doneInvalidArgument => statusWord 1#8
  | .doneUnresolvedCommand => statusWord 2#8
  | .doneTimeout => statusWord 3#8
  | .doneTransportError => statusWord 4#8

/-! ## A bare word of the opcode table -/

/-- The operand bytes that the table gives no bits, all zero: as many as the event's record has. -/
def zeroSideband (ev : Nat) : Bytes :=
  match ev with
  | 0 => List.replicate 2 0#8
  | 1 => List.replicate 1 0#8
  | 2 => List.replicate 6 0#8
  | 5 => List.replicate 1 0#8
  | _ => []

/-- The `n` bytes of a number, its most significant byte first: the table writes a frame header "in wire order, first byte
leftmost". -/
def wireBytes (w : Nat) : Nat → Bytes
  | 0 => []
  | n + 1 => BitVec.ofNat 8 (w >>> (8 * n)) :: wireBytes w n

/-- An opcode-table word of `nbits` bits as the block is offered it. 3 bits: a status code. 4 bits: an event code. More
than 8 bits: a frame header. In one whole byte the table's code spaces overlap: the numbers 0 to 7 are read as event
codes and the others as a CMD0 byte. DESIGN CHOICE, log entry 4. -/
def tableWord (nbits w : Nat) : PortWord :=
  if nbits ≤ 3 then statusWord (BitVec.ofNat 8 w)
  else if nbits ≤ 4 then eventWord (BitVec.ofNat 8 w) (zeroSideband w)
  else if nbits ≤ 8 then
    if w < 8 then eventWord (BitVec.ofNat 8 w) (zeroSideband w)
    else { port := .link, bytes := [BitVec.ofNat 8 w] }
  else { port := .link, bytes := wireBytes w ((nbits + 7) / 8) }

/-- The instruction the decoder reads from an opcode-table word. -/
def decodeTableWord (nbits w : Nat) : Option Instr :=
  match decode (tableWord nbits w) with
  | .ok i => some i
  | .error _ => none

end Sys2Proof
end

