-- ==== Sys2Proof/Machine/State.lean ====
section
/-! DEFINITION. The state of the block: every register and buffer of 10_state, and the model's own fields that carry the
offered events, the transport's answers, the emitted outputs and the reports the host has read. State is plain data. -/

namespace Sys2Proof.Machine

/-- The state of the Stream Framer (10_state R22). -/
inductive RxState where
  | seekSof
  | readLength
  | readCmd0
  | readCmdid
  | readPayload
  | readFcs
deriving DecidableEq, Repr

/-- The state of the Transmit Controller (10_state R30). -/
inductive TxState where
  | idle
  | waitWrack
  | waitDrain
deriving DecidableEq, Repr

/-- A decoded packet (30_encoding R107). -/
structure Record where
  sof : Byte
  len : BitVec 16
  type : BitVec 3
  subsys : BitVec 5
  cmd : Byte
  payload : Bytes
  fcs : Byte
  csum : Byte
deriving DecidableEq, Repr

/-- The outcome of a send, or the failure of a receive (30_encoding R110). -/
inductive Done where
  /-- Status 0, with `packetBytes`. -/
  | ok (pkt : Bytes)
  /-- Status 1. -/
  | invalidArgument
  /-- Status 2. -/
  | unresolvedCommand
  /-- Status 3. -/
  | timeout
  /-- Status 4, with the captured error code. -/
  | transportError (e : Byte)
deriving DecidableEq, Repr

/-- An output event (00_scope R11, 30_encoding R107 to R110). -/
inductive Output where
  | data (r : Record)
  | flushed (type : BitVec 3) (subsys : Byte) (cmd : Byte)
  | txWrite (pkt : Bytes)
  | done (d : Done)
deriving DecidableEq, Repr

/-- One entry of the input stream: the words offered at one instant, or a construction. -/
inductive Slot where
  /-- Words offered at the same instant (60_exceptions R236). -/
  | instant (ws : List PortWord)
  /-- `rst` with its two straps (70_reset R260 to R262); `none` is an absent `lenBytes`. -/
  | construct (lenBytes : Option Nat) (hasTransport : Bool)
deriving DecidableEq, Repr

/-- A byte buffer: address and byte pairs, addresses strictly rising, none equal to `Config.bufFill` (log entry 11). -/
abbrev Memory := List Host.Cell

/-- The state of one instance. -/
structure State where
  /-- `rx_state` (R22). -/
  rxState : RxState
  /-- `rx_idx` (R23). -/
  rxIdx : BitVec 16
  /-- `rx_len` (R24). -/
  rxLen : BitVec 16
  /-- `rx_type` (R25). -/
  rxType : BitVec 3
  /-- `rx_subsys` (R25). -/
  rxSubsys : BitVec 5
  /-- `rx_cmd` (R26). -/
  rxCmd : Byte
  /-- `rx_acc`, hidden (R29). -/
  rxAcc : Byte
  /-- `closed` (R27). -/
  closed : Bool
  /-- `RXBUF` (R41). -/
  rxbuf : Memory
  /-- `tx_state` (R30). -/
  txState : TxState
  /-- `tx_timer` (R31). -/
  txTimer : BitVec 11
  /-- `tx_bp` (R32). -/
  txBp : Bool
  /-- `tx_obs` (R33). -/
  txObs : Bool
  /-- `tx_err_valid` (R34). -/
  txErrValid : Bool
  /-- `tx_err` (R34). -/
  txErr : Byte
  /-- `tx_type` (R35). -/
  txType : BitVec 3
  /-- `tx_subsys` (R35). -/
  txSubsys : Byte
  /-- `tx_cmd` (R35). -/
  txCmd : Byte
  /-- `tx_pktlen` (R36). -/
  txPktlen : BitVec 17
  /-- `TXBUF` (R42). -/
  txbuf : Memory
  /-- `cfg_len_bytes` = `LEN_BYTES - 1` (R39). -/
  cfgLenBytes : BitVec 1
  /-- `cfg_has_transport` (R40). -/
  cfgHasTransport : Bool
  /-- The model's own: the events offered and not yet taken, and the constructions to come (log entry 1). -/
  inbox : List Slot
  /-- The model's own: the SENDs that stay offered because the controller is busy, oldest first (42_txc R181). -/
  held : List SendDesc
  /-- The model's own: answers `accepted` prescribed for coming writes (log entry 8). -/
  answers : List Bool
  /-- The model's own: index of the next free answer (log entry 8). -/
  draws : Nat
  /-- The model's own: every output emitted so far, oldest first (log entry 18). -/
  outputs : List Output
  /-- The model's own: the DONE reports the host has read on the notification port, oldest first (log entry 7). -/
  reportsRead : List Done
deriving DecidableEq, Repr

/-- Where the machine would leave what the spec gives it. Both are safe: 20_memory R68 says that no rule can do this,
and a statement says that no state meeting the invariants does. -/
inductive Fault where
  /-- Raised by READ_PAYLOAD for an index past RXBUF's last byte. Safe. -/
  | rxbufIndex
  /-- Raised by a successful finish for a packet length past TXBUF's last byte. Safe. -/
  | txbufLength
deriving DecidableEq, Repr

/-- Inputs to which the spec gives no meaning ("refused"). All are safe: the run ends. -/
inductive Refusal where
  /-- Raised by `exec` for an instruction that has no meaning yet. Safe. -/
  | notModelled (mnemonic : String)
  /-- Raised by CLOSE on an instance without transport (42_txc R197, 93 U1). Safe. -/
  | closeWithoutTransport
  /-- Raised by a second CLOSE (R197, U2). Safe. -/
  | closeTwice
  /-- Raised by SEND for a payload longer than MAXLEN (R182, U4). Safe. -/
  | payloadTooLong
  /-- Raised by RECEIVE and by RXBYTE with source H after CLOSE (41_framer R151, R161, U5). Safe. -/
  | receiveAfterClose
  /-- Raised by RXBYTE with source T on an instance without transport (R151, U6). Safe. -/
  | transportByteWithoutTransport
  /-- Raised by a construction with `lenBytes` other than 1 and 2 (70_reset R261, U8). Safe. -/
  | badLenBytes
  /-- Raised by the step for an offered word the decoder refuses (30_encoding R101, R103, R104, R110, U3, U7), or for
  a word that is no record of the model's layouts (log entries 3 and 31). Safe. -/
  | undecodable (e : DecodeError)
deriving DecidableEq, Repr

/-- What a step of this machine answers. -/
abbrev Out := Host.Outcome State Fault Refusal

/-- The state of 10_state R46 with the default configuration (00_scope R4, R5). `rxAcc`, which the spec leaves
unspecified, is log entry 10; the two buffers list nothing (log entry 11); the model's own fields are empty. -/
def State.reset : State where
  rxState := .seekSof
  rxIdx := 0#16
  rxLen := 0#16
  rxType := 0#3
  rxSubsys := 0#5
  rxCmd := 0#8
  rxAcc := 0#8
  closed := false
  rxbuf := []
  txState := .idle
  txTimer := 0#11
  txBp := false
  txObs := false
  txErrValid := false
  txErr := 0#8
  txType := 0#3
  txSubsys := 0#8
  txCmd := 0#8
  txPktlen := 0#17
  txbuf := []
  cfgLenBytes := 1#1
  cfgHasTransport := Config.defaultHasTransport
  inbox := []
  held := []
  answers := []
  draws := 0
  outputs := []
  reportsRead := []

end Sys2Proof.Machine
end

