-- ==== Sys2Proof/Machine/Ops.lean ====
section
/-! DEFINITION. The named operations over the buffers and the outputs, the reporting of a failure, the end of a send,
and construction. -/

namespace Sys2Proof.Machine

/-- Continue with `f` from a next state; a fault or a refusal ends the run. -/
def andThen (o : Out) (f : State → Out) : Out :=
  match o with
  | .next s => f s
  | .fault r => .fault r
  | .refused r => .refused r

/-! ## The two buffers (20_memory R60, R64) -/

/-- The byte at an index; one that nothing has written reads as `Config.bufFill` (log entry 11). -/
def Memory.read : Memory → Nat → Byte
  | [], _ => Config.bufFill
  | (k, b) :: m, a => if k = a then b else Memory.read m a

/-- Store one byte, keeping the canonical form. -/
def Memory.write : Memory → Nat → Byte → Memory
  | [], a, b => if b = Config.bufFill then [] else [(a, b)]
  | (k, c) :: m, a, b =>
    if a < k then (if b = Config.bufFill then (k, c) :: m else (a, b) :: (k, c) :: m)
    else if a = k then (if b = Config.bufFill then m else (a, b) :: m)
    else (k, c) :: Memory.write m a b

/-- `MemRead(space, addr, n)`: the bytes at `addr` to `addr + n - 1` (00_scope, section 6). -/
def Memory.readRange (m : Memory) : Nat → Nat → Bytes
  | _, 0 => []
  | a, n + 1 => m.read a :: Memory.readRange m (a + 1) n

/-- `MemWrite(space, addr, n, v)`: the bytes `v` at `addr` to `addr + n - 1` (00_scope, section 6). -/
def Memory.writeRange : Memory → Nat → Bytes → Memory
  | m, _, [] => m
  | m, a, b :: bs => Memory.writeRange (m.write a b) (a + 1) bs

/-- Addresses strictly rising from `lo` on, and no entry that reads as an unlisted one does. -/
def Memory.canonicalFrom : Nat → Memory → Bool
  | _, [] => true
  | lo, (k, b) :: m => decide (lo ≤ k) && decide (b ≠ Config.bufFill) && Memory.canonicalFrom (k + 1) m

/-- The canonical form of a buffer of `size` bytes. -/
def Memory.wf (size : Nat) (m : Memory) : Bool :=
  Memory.canonicalFrom 0 m && m.all fun c => decide (c.1 < size)

/-! ## Outputs -/

/-- `emit E`: append output events to the step's outputs (00_scope, section 6). -/
def emit (os : List Output) (s : State) : State := { s with outputs := s.outputs ++ os }

/-! ## Failures (60_exceptions R220 to R224, R240)

There is no vector, no saved register and no return operation (R240, R245): a failure is a DONE event and the register
writes that its rule names, and the block carries on. -/

/-- The four failures (60_exceptions R220). -/
inductive Failure where
  | invalidArgument
  | unresolvedCommand
  | timeout
  | transportError
deriving DecidableEq, Repr

/-- Steps e of the send procedure: the observer is removed and the send window closes (42_txc R192, R193). -/
def release (s : State) : State := { s with txObs := false, txState := .idle }

/-- What a failing step does to the state (60_exceptions R240): the two argument failures change no register, the two
failures of a send in flight write `tx_obs <- 0` and `tx_state <- TX_IDLE`. -/
def raiseFailure (f : Failure) (s : State) : State :=
  match f with
  | .invalidArgument => emit [.done .invalidArgument] s
  | .unresolvedCommand => emit [.done .unresolvedCommand] s
  | .timeout => emit [.done .timeout] (release s)
  | .transportError => emit [.done (.transportError s.txErr)] (release s)

/-- The success path of `finish` (42_txc R193, steps 5e and 5g): FLUSHED, then DONE(OK) with the packet of TXBUF. -/
def succeed (s : State) : Out :=
  if s.txPktlen.toNat ≤ Config.txbufSize then
    .next (emit [.flushed s.txType s.txSubsys s.txCmd,
                 .done (.ok (s.txbuf.readRange 0 s.txPktlen.toNat))] (release s))
  else .fault .txbufLength

/-- `finish`, the end of a send whose waits were all acknowledged (42_txc R193): a captured error wins (R230). -/
def finish (s : State) : Out :=
  if s.txErrValid then .next (raiseFailure .transportError s) else succeed s

/-! ## Construction (70_reset R260 to R262) -/

/-- `cfg_len_bytes` for a configured `lenBytes`: absent means 2, other than 1 and 2 is refused (R261). -/
def lenBytesCode (lenBytes : Option Nat) : Option (BitVec 1) :=
  match lenBytes.getD Config.defaultLenBytes with
  | 1 => some 0#1
  | 2 => some 1#1
  | _ => none

/-- An instance constructed with a configuration record, in the environment of `s`: what `s` holds of the environment
(offered events, prescribed answers, the draw counter, outputs already emitted, reports the host has read) is not the
instance's and stays (log entry 19); everything else is discarded (R262). -/
def construct (lenBytes : Option Nat) (hasTransport : Bool) (s : State) : Out :=
  match lenBytesCode lenBytes with
  | some c => .next { State.reset with
      cfgLenBytes := c, cfgHasTransport := hasTransport,
      inbox := s.inbox, held := s.held, answers := s.answers, draws := s.draws, outputs := s.outputs,
      reportsRead := s.reportsRead }
  | none => .refused .badLenBytes

/-! ## Views of the state -/

/-- `LEN_BYTES` (10_state R39). -/
def State.lenBytes (s : State) : Nat := s.cfgLenBytes.toNat + 1

/-- The numeric encoding of `rx_state` (10_state R22). -/
def RxState.code : RxState → BitVec 3
  | .seekSof => 0#3
  | .readLength => 1#3
  | .readCmd0 => 2#3
  | .readCmdid => 3#3
  | .readPayload => 4#3
  | .readFcs => 5#3

/-- The numeric encoding of `tx_state` (10_state R30). -/
def TxState.code : TxState → BitVec 2
  | .idle => 0#2
  | .waitWrack => 1#2
  | .waitDrain => 2#2

/-- The status code of a DONE event (30_encoding R110). -/
def Done.status : Done → BitVec 3
  | .ok _ => 0#3
  | .invalidArgument => 1#3
  | .unresolvedCommand => 2#3
  | .timeout => 3#3
  | .transportError _ => 4#3

/-- The DONE report that stands on the notification port: the last one emitted (30_encoding R110, R111). -/
def lastDone : List Output → Option Done
  | [] => none
  | o :: os =>
    match lastDone os with
    | some d => some d
    | none =>
      match o with
      | .done d => some d
      | .data _ | .flushed _ _ _ | .txWrite _ => none

/-- The host looks at the notification port for a report with status `code`: if the last DONE report has that status, the
host has read it. No register and no buffer is read or written and nothing is emitted: the block's state does not depend
on whether anyone listens (60_exceptions R228). DESIGN CHOICE, log entry 7. -/
def takeReport (code : BitVec 3) (s : State) : State :=
  match lastDone s.outputs with
  | some d => if d.status = code then { s with reportsRead := s.reportsRead ++ [d] } else s
  | none => s

/-- The output port `obs` (30_encoding R111). -/
def State.obsPort (s : State) : Bool := s.txObs

/-- The output port `txc_state` (30_encoding R111). -/
def State.txcStatePort (s : State) : BitVec 2 := s.txState.code

/-- The output port `cmd_ready` as SEND sees it: 0 while `tx_state != TX_IDLE` (30_encoding R111). -/
def State.cmdReadyPort (s : State) : Bool := decide (s.txState = .idle)

/-- The frame position: the number of bytes of the current frame already consumed, SOF included (10_state R43). -/
def State.framePos (s : State) : Nat :=
  match s.rxState with
  | .seekSof => 0
  | .readLength => 1 + s.rxIdx.toNat
  | .readCmd0 => 1 + s.lenBytes
  | .readCmdid => 2 + s.lenBytes
  | .readPayload => 3 + s.lenBytes + s.rxIdx.toNat
  | .readFcs => 3 + s.lenBytes + s.rxLen.toNat

/-- The outbound byte stream: the concatenation of the writes in order (20_memory R60 (4)). -/
def State.outbound (s : State) : Bytes :=
  s.outputs.flatMap fun o => match o with
    | .txWrite p => p
    | _ => []

end Sys2Proof.Machine
end

