-- ==== Sys2Proof/Machine/Codec.lean ====
section
/-! DEFINITION. The Packet Codec (40_codec): pure functions, no state. -/

namespace Sys2Proof.Machine

/-! ## The checksum generator -/

/-- The micro-operation `absorb(b)`: `acc <- acc ^ b` (40_codec R133). -/
def absorb (acc b : Byte) : Byte := acc ^^^ b

/-- `xorfold(s)`, which is 0x00 for the empty sequence (40_codec R131). -/
def xorfold (bs : Bytes) : Byte := bs.foldl absorb 0x00#8

/-- `checksum(bufA, bufB)` (40_codec R131). -/
def checksum (a b : Bytes) : Byte := xorfold (a ++ b)

/-! ## Type codes and names -/

/-- What a caller may pass as `type` (40_codec R130). -/
inductive TypeArg where
  | num (n : Nat)
  | name (s : String)
  /-- Anything else, a numeric NaN included. -/
  | bad
deriving DecidableEq, Repr

/-- The named failures of the codec functions (40_codec R134, R138). -/
inductive CodecError where
  | invalidType
  | invalidArgument
  | unresolvedCommand
deriving DecidableEq, Repr

/-- `resolveType` (40_codec R134): a code 0 to 7, or one of the eight upper-case names, exactly. -/
def resolveType : TypeArg → Except CodecError (BitVec 3)
  | .num n => if n ≤ 7 then .ok (BitVec.ofNat 3 n) else .error .invalidType
  | .name s =>
    if s = "POLL" then .ok 0#3
    else if s = "SREQ" then .ok 1#3
    else if s = "AREQ" then .ok 2#3
    else if s = "SRSP" then .ok 3#3
    else if s = "RES0" then .ok 4#3
    else if s = "RES1" then .ok 5#3
    else if s = "RES2" then .ok 6#3
    else if s = "RES3" then .ok 7#3
    else .error .invalidType
  | .bad => .error .invalidType

/-- `typeName`, the reverse lookup (40_codec R135). -/
def typeName (t : BitVec 3) : String :=
  match t.toNat with
  | 0 => "POLL"
  | 1 => "SREQ"
  | 2 => "AREQ"
  | 3 => "SRSP"
  | 4 => "RES0"
  | 5 => "RES1"
  | 6 => "RES2"
  | _ => "RES3"

/-! ## The encoder -/

/-- `MAXLEN` (00_scope R8). -/
def maxLen (cfg : BitVec 1) : Nat := 2 ^ (8 * (cfg.toNat + 1)) - 1

/-- `lenfield(n)` (30_encoding R93), which the spec defines for `n <= MAXLEN`. That a larger `n` keeps its low byte when
`LEN_BYTES = 1` is DESIGN CHOICE, log entry 30. -/
def lenfield (cfg : BitVec 1) (n : BitVec 16) : Bytes :=
  if cfg = 0#1 then [loByte n] else [loByte n, hiByte n]

/-- The bytes of a frame between SOF and PAYLOAD (40_codec R137). -/
def frameHeader (cfg : BitVec 1) (n : BitVec 16) (t : BitVec 3) (subsys cmd : Byte) : Bytes :=
  lenfield cfg n ++ [packCmd0 t subsys, cmd]

/-- The value of `encode` after its checks have passed (40_codec R137), which the spec defines for a payload of at most MAXLEN
bytes. That a longer one gives a frame with its length cut off to the LENGTH field is DESIGN CHOICE, log entry 30; no step
and no answer of `encodeChecked` uses it there. -/
def encodeFrame (cfg : BitVec 1) (t : BitVec 3) (subsys cmd : Byte) (payload : Bytes) : Bytes :=
  let header := frameHeader cfg (BitVec.ofNat 16 payload.length) t subsys cmd
  [Config.sof] ++ header ++ payload ++ [checksum header payload]

/-- `encode` with its failures in the order of 40_codec R138. `none` for `subsys` or `cmdId` is an argument that is not a
non-NaN number; the answer `none` is a payload outside the function's domain (R137, 93 U4). For such a payload together with
a wrong-kind or unresolvable argument the spec gives no answer; that the checks of R138 answer there, and `none` comes only
after them, is DESIGN CHOICE, log entry 29. SEND does not rest on it: 42_txc R180 refuses such a payload before its checks. -/
def encodeChecked (cfg : BitVec 1) (type : TypeArg) (subsys cmd : Option Byte) (payload : ByteArg) :
    Option (Except CodecError Bytes) :=
  match type, subsys, cmd, payload with
  | .bad, _, _, _ => some (.error .invalidArgument)
  | _, none, _, _ => some (.error .invalidArgument)
  | _, _, none, _ => some (.error .invalidArgument)
  | _, _, _, .notBytes => some (.error .invalidArgument)
  | t, some s, some c, p =>
    match resolveType t with
    | .error _ => some (.error .unresolvedCommand)
    | .ok code =>
      if (argBytes p).length ≤ maxLen cfg then some (.ok (encodeFrame cfg code s c (argBytes p))) else none

/-! ## Hardware emission order (40_codec R133, R139) -/

/-- Emit the bytes in order, absorbing each: the bytes emitted and the accumulator after them. -/
def emitAbsorbing : Byte → Bytes → Bytes × Byte
  | acc, [] => ([], acc)
  | acc, b :: bs => (b :: (emitAbsorbing (absorb acc b) bs).1, (emitAbsorbing (absorb acc b) bs).2)

/-- The byte-serial encoder: SOF; `clear`; LENGTH, CMD0, CMDID and the payload, each absorbed; then the accumulator as
FCS (40_codec R139). For a payload longer than MAXLEN, outside the domain of `encode`, the length it emits is cut off as that
of `encodeFrame` is: DESIGN CHOICE, log entry 30. -/
def serialEncode (cfg : BitVec 1) (t : BitVec 3) (subsys cmd : Byte) (payload : Bytes) : Bytes :=
  let r := emitAbsorbing 0x00#8
    (lenfield cfg (BitVec.ofNat 16 payload.length) ++ [packCmd0 t subsys] ++ [cmd] ++ payload)
  Config.sof :: (r.1 ++ [r.2])

end Sys2Proof.Machine
end

