-- ==== Sys2Proof/Machine/Operands.lean ====
section
/-! DEFINITION. The operand forms: the delivery of an inbound byte, the admission and validation of a SEND descriptor, the
transport's answer to a write, and how the host's toolchain forms a SEND. -/

namespace Sys2Proof.Machine

/-! ## Inbound bytes (41_framer R151) -/

/-- What becomes of an offered byte. -/
inductive Delivery where
  | taken
  | dropped
  | refused (r : Refusal)
deriving DecidableEq, Repr

/-- `delivered(T) = cfg_has_transport and not closed`, `delivered(H) = not closed` (41_framer R151). -/
def delivered (src : Src) (s : State) : Bool :=
  match src with
  | .transport => s.cfgHasTransport && !s.closed
  | .host => !s.closed

/-- An undelivered byte is refused, but for a transport byte after CLOSE, which is dropped (41_framer R151). -/
def delivery (src : Src) (s : State) : Delivery :=
  if delivered src s then .taken
  else
    match src with
    | .transport => if s.cfgHasTransport then .dropped else .refused .transportByteWithoutTransport
    | .host => .refused .receiveAfterClose

/-- Where the bytes of a link word come from: the transport where there is one, the host where there is none. DESIGN CHOICE,
log entry 5. -/
def linkSource (s : State) : Src := if s.cfgHasTransport then .transport else .host

/-! ## The descriptor of a SEND (30_encoding R104, 42_txc R182) -/

/-- Admitted: the payload is one that the LENGTH field can express (42_txc R182, last paragraph). -/
def admitted (d : SendDesc) (s : State) : Bool :=
  match d.payload with
  | .bytes bs => decide (bs.length ≤ maxLen s.cfgLenBytes)
  | .absent => true
  | .notBytes => true

/-- `args_ok` (42_txc R182). -/
def argsOk (d : SendDesc) : Bool :=
  d.typeOk && d.subsysOk && d.cmdOk && decide (d.payload ≠ .notBytes)

/-- The encoded packet of a valid SEND with resolved type `t`; an absent payload is empty (42_txc R180). -/
def packetOf (d : SendDesc) (t : BitVec 3) (s : State) : Bytes :=
  encodeFrame s.cfgLenBytes t d.subsys d.cmd (argBytes d.payload)

/-! ## The answer `accepted` (30_encoding R109, log entry 8) -/

/-- The transport's answer to the next write: prescribed, or free. -/
def nextAnswer (s : State) : Bool :=
  match s.answers with
  | a :: _ => a
  | [] => Config.accepted s.draws

/-- The answer has been given. -/
def takeAnswer (s : State) : State :=
  match s.answers with
  | _ :: as => { s with answers := as }
  | [] => { s with draws := s.draws + 1 }

/-! ## The host's toolchain (30_encoding R113, 93 U21, U22) -/

/-- A numeric argument of the host's `send`. -/
inductive NumArg where
  | num (n : Nat)
  /-- Not a non-NaN number. -/
  | bad
deriving DecidableEq, Repr

/-- What the toolchain makes of a host call. -/
inductive FormedSend where
  /-- A SEND event is formed. -/
  | formed (d : SendDesc)
  /-- An unknown name: the toolchain reports the failure and no event is formed. -/
  | reported (f : Failure)
  /-- A number the 8-bit ports cannot carry: no event exists. -/
  | unpresentable
deriving DecidableEq, Repr

/-- The qualifier and the byte of a numeric argument; `none` if the port cannot carry it. -/
def portNumber : NumArg → Option (Bool × Byte)
  | .bad => some (false, 0#8)
  | .num n => if n < 256 then some (true, BitVec.ofNat 8 n) else none

/-- The `type` argument at the port: a known name gives its code (30_encoding R113). -/
def portType : TypeArg → Option (Option (Bool × Byte))
  | .bad => some (some (false, 0#8))
  | .num n => if n < 256 then some (some (true, BitVec.ofNat 8 n)) else none
  | .name s =>
    match resolveType (.name s) with
    | .ok t => some (some (true, t.setWidth 8))
    | .error _ => some none

/-- `send(type, subsys, cmdId, payload?)` as the toolchain turns it into an event (30_encoding R112 to R114). For an unknown
name it reports what the block would: the wrong kind of another argument first (40_codec R138), else UNRESOLVED_COMMAND
(log entry 24). -/
def formSend (type : TypeArg) (subsys cmd : NumArg) (payload : ByteArg) : FormedSend :=
  match portType type, portNumber subsys, portNumber cmd with
  | some none, some (sOk, _), some (cOk, _) =>
    if sOk && cOk && decide (payload ≠ .notBytes) then .reported .unresolvedCommand else .reported .invalidArgument
  | some (some (tOk, t)), some (sOk, s), some (cOk, c) =>
    .formed { typeOk := tOk, type := t, subsysOk := sOk, subsys := s, cmdOk := cOk, cmd := c, payload := payload }
  | _, _, _ => .unpresentable

end Sys2Proof.Machine
end

