-- ==== Sys2Proof/Machine/Flags.lean ====
section
/-! DEFINITION. The block's one-bit conditions (10_state R45) and what sets and clears them: `closed`, `tx_bp`, `tx_obs`,
`tx_err_valid`. `tx_obs` is cleared by `release` of Machine/Ops.lean. -/

namespace Sys2Proof.Machine

/-- `tx_bp <- not accepted` (10_state R32, 42_txc R185). -/
def backpressureOf (accepted : Bool) : Bool := !accepted

/-- Whether an arriving error replaces what `tx_err` holds: the first of a window always, a later one if `ERR_KEEP = LAST`
(42_txc R190). -/
def keepsError (errValid : Bool) : Bool := !errValid || decide (Config.errKeep = .last)

/-- The observer captures a transport error (42_txc R190). -/
def captureError (e : Byte) (s : State) : State :=
  { s with txErr := if keepsError s.txErrValid then e else s.txErr, txErrValid := true }

/-- `closed <- 1` (42_txc R197). -/
def detach (s : State) : State := { s with closed := true }

end Sys2Proof.Machine
end

