-- ==== Sys2Proof/Machine/Framer.lean ====
section
/-! DEFINITION. The Stream Framer (41_framer): one byte in each of the six states, and the meanings of RXBYTE and RECEIVE.
`rxAcc` is the hidden accumulator of 10_state R29: cleared when SOF is accepted, absorbing every byte consumed in
READ_LENGTH, READ_CMD0, READ_CMDID and READ_PAYLOAD. -/

namespace Sys2Proof.Machine

/-- SEEK_SOF (R152). -/
def rxSeekSof (b : Byte) (s : State) : State :=
  if b = Config.sof then { s with rxState := .readLength, rxIdx := 0#16, rxAcc := 0x00#8 } else s

/-- READ_LENGTH (R153). -/
def rxReadLength (b : Byte) (s : State) : State :=
  let len := if s.rxIdx = 0#16 then b.setWidth 16 else le16 (loByte s.rxLen) b
  if s.rxIdx.toNat + 1 = s.lenBytes then
    { s with rxLen := len, rxState := .readCmd0, rxIdx := 0#16, rxAcc := absorb s.rxAcc b }
  else
    { s with rxLen := len, rxIdx := 1#16, rxAcc := absorb s.rxAcc b }

/-- READ_CMD0 (R155). -/
def rxReadCmd0 (b : Byte) (s : State) : State :=
  { s with rxType := cmd0Type b, rxSubsys := cmd0Subsys b, rxState := .readCmdid, rxAcc := absorb s.rxAcc b }

/-- READ_CMDID (R156): a payload of no bytes completes immediately. -/
def rxReadCmdid (b : Byte) (s : State) : State :=
  if s.rxLen = 0#16 then { s with rxCmd := b, rxState := .readFcs, rxAcc := absorb s.rxAcc b }
  else { s with rxCmd := b, rxState := .readPayload, rxIdx := 0#16, rxAcc := absorb s.rxAcc b }

/-- READ_PAYLOAD (R157). An index that RXBUF does not have cannot be reached (20_memory R68): log entry 17. -/
def rxReadPayload (b : Byte) (s : State) : Out :=
  if s.rxIdx.toNat < Config.rxbufSize then
    let stored := { s with rxbuf := s.rxbuf.write s.rxIdx.toNat b, rxAcc := absorb s.rxAcc b }
    if s.rxIdx.toNat + 1 = s.rxLen.toNat then .next { stored with rxState := .readFcs }
    else .next { stored with rxIdx := s.rxIdx + 1#16 }
  else .fault .rxbufIndex

/-- `MemRead(RXBUF, 0, rx_len)`. -/
def rxPayload (s : State) : Bytes := s.rxbuf.readRange 0 s.rxLen.toNat

/-- The recomputed checksum (10_state R28, 41_framer R159). -/
def rxCsum (s : State) : Byte :=
  checksum (frameHeader s.cfgLenBytes s.rxLen s.rxType (s.rxSubsys.setWidth 8) s.rxCmd) (rxPayload s)

/-- The record of the frame whose FCS byte is `fcs` (R159, 30_encoding R107). -/
def rxRecord (fcs : Byte) (s : State) : Record :=
  { sof := Config.sof, len := s.rxLen, type := s.rxType, subsys := s.rxSubsys, cmd := s.rxCmd,
    payload := rxPayload s, fcs := fcs, csum := rxCsum s }

/-- READ_FCS (R159): one DATA event, whether or not `fcs == csum`. -/
def rxReadFcs (b : Byte) (s : State) : State :=
  emit [.data (rxRecord b s)] { s with rxState := .seekSof }

/-- A delivered byte, by the framer's state (R150, R165). -/
def framerStep (b : Byte) (s : State) : Out :=
  match s.rxState with
  | .seekSof => .next (rxSeekSof b s)
  | .readLength => .next (rxReadLength b s)
  | .readCmd0 => .next (rxReadCmd0 b s)
  | .readCmdid => .next (rxReadCmdid b s)
  | .readPayload => rxReadPayload b s
  | .readFcs => .next (rxReadFcs b s)

/-- An offered byte: delivered, dropped or refused (R151). -/
def rxFrom (src : Src) (b : Byte) (s : State) : Out :=
  match delivery src s with
  | .taken => framerStep b s
  | .dropped => .next s
  | .refused r => .refused r

/-- Offered bytes in order. -/
def feedFrom (src : Src) : Bytes → State → Out
  | [], s => .next s
  | b :: bs, s => andThen (rxFrom src b s) (feedFrom src bs)

/-- RXBYTE (R150). -/
def execRxbyte (src : Src) (b : Byte) (s : State) : Out := rxFrom src b s

/-- RECEIVE (R161): the kind check, then the `closed` check, then `RXBYTE(H, b)` for each byte in order. -/
def execReceive (arg : ByteArg) (s : State) : Out :=
  if arg = .notBytes then .next (raiseFailure .invalidArgument s)
  else if s.closed then .refused .receiveAfterClose
  else feedFrom .host (argBytes arg) s

end Sys2Proof.Machine
end

