-- ==== Sys2Proof/Machine/FrameRows.lean ====
section
/-! DEFINITION. The rows of the wire format: a CMD0 byte of each type code (30_encoding R94, R95) and the two frame headers
(R91, R92). Their meaning is that of their bytes arriving on the link: in READ_CMD0 a CMD0 byte gives `rx_type` and
`rx_subsys` (41_framer R155), in another state it is what that state makes of any byte (R158). Log entries 5 and 6. -/

namespace Sys2Proof.Machine

/-- Bytes arriving on the link, in order. -/
def linkBytes (bs : Bytes) (s : State) : Out := feedFrom (linkSource s) bs s

/-- A CMD0 byte arriving on the link. -/
def linkCmd0 (t : BitVec 3) (subsys : BitVec 5) (s : State) : Out := linkBytes [packCmd0 t (subsys.setWidth 8)] s

/-- TYPE_POLL. -/
def execTypePoll (subsys : BitVec 5) (s : State) : Out := linkCmd0 0#3 subsys s

/-- TYPE_SREQ. -/
def execTypeSreq (subsys : BitVec 5) (s : State) : Out := linkCmd0 1#3 subsys s

/-- TYPE_AREQ. -/
def execTypeAreq (subsys : BitVec 5) (s : State) : Out := linkCmd0 2#3 subsys s

/-- TYPE_SRSP. -/
def execTypeSrsp (subsys : BitVec 5) (s : State) : Out := linkCmd0 3#3 subsys s

/-- TYPE_RES0. -/
def execTypeRes0 (subsys : BitVec 5) (s : State) : Out := linkCmd0 4#3 subsys s

/-- TYPE_RES1. -/
def execTypeRes1 (subsys : BitVec 5) (s : State) : Out := linkCmd0 5#3 subsys s

/-- TYPE_RES2. -/
def execTypeRes2 (subsys : BitVec 5) (s : State) : Out := linkCmd0 6#3 subsys s

/-- TYPE_RES3. -/
def execTypeRes3 (subsys : BitVec 5) (s : State) : Out := linkCmd0 7#3 subsys s

/-- FRAME_HDR_L1: SOF, LENGTH, CMD0, CMDID (R91). -/
def execFrameHdrL1 (len : BitVec 8) (type : BitVec 3) (subsys : BitVec 5) (cmd : Byte) (s : State) : Out :=
  linkBytes [Config.sof, len, packCmd0 type (subsys.setWidth 8), cmd] s

/-- FRAME_HDR_L2: SOF, LENGTH low, LENGTH high, CMD0, CMDID (R92). -/
def execFrameHdrL2 (len : BitVec 16) (type : BitVec 3) (subsys : BitVec 5) (cmd : Byte) (s : State) : Out :=
  linkBytes [Config.sof, loByte len, hiByte len, packCmd0 type (subsys.setWidth 8), cmd] s

end Sys2Proof.Machine
end

