-- ==== Sys2Proof/Machine/StatusRows.lean ====
section
/-! DEFINITION. The rows of the status table (30_encoding R110). They are codes of the output DONE and no input events: the
block's registers are written by the rules of the send and the receive alone (10_state R20, R30, R44), and a report that
stands on the port changes nothing in the block (60_exceptions R228). A row therefore means that the host reads the report
with that status. DESIGN CHOICE, log entry 7. -/

namespace Sys2Proof.Machine

/-- DONE_OK: status 0 (30_encoding R110). -/
def execDoneOk (s : State) : Out := .next (takeReport 0#3 s)

/-- DONE_INVALID_ARGUMENT: status 1 (R110, R221). -/
def execDoneInvalidArgument (s : State) : Out := .next (takeReport 1#3 s)

/-- DONE_UNRESOLVED_COMMAND: status 2 (R110, R222). -/
def execDoneUnresolvedCommand (s : State) : Out := .next (takeReport 2#3 s)

/-- DONE_TIMEOUT: status 3 (R110, R223). -/
def execDoneTimeout (s : State) : Out := .next (takeReport 3#3 s)

/-- DONE_TRANSPORT_ERROR: status 4 (R110, R224). -/
def execDoneTransportError (s : State) : Out := .next (takeReport 4#3 s)

end Sys2Proof.Machine
end

