-- ==== Sys2Proof/Machine/Txc.lean ====
section
/-! DEFINITION. The Transmit Controller (42_txc): the meanings of SEND, WRACK, DRAIN, TERR, TICK and CLOSE. -/

namespace Sys2Proof.Machine

/-! ## SEND -/

/-- A SEND offered while the controller is busy stays offered (R181). -/
def hold (d : SendDesc) (s : State) : State := { s with held := s.held ++ [d] }

/-- Encode-only mode (R184): FLUSHED, then DONE(OK); no register changes. -/
def sendEncodeOnly (d : SendDesc) (t : BitVec 3) (s : State) : State :=
  emit [.flushed t d.subsys d.cmd, .done (.ok (packetOf d t s))] s

/-- Steps 5a and 5b and the start of 5c (R185): the observer is subscribed, the packet is written, the wait begins. -/
def sendWrite (d : SendDesc) (t : BitVec 3) (s : State) : State :=
  let pkt := packetOf d t s
  emit [.txWrite pkt]
    { takeAnswer s with
      txObs := true
      txErrValid := false
      txBp := backpressureOf (nextAnswer s)
      txbuf := s.txbuf.writeRange 0 pkt
      txPktlen := BitVec.ofNat 17 pkt.length
      txType := t
      txSubsys := d.subsys
      txCmd := d.cmd
      txTimer := Config.tWrack
      txState := .waitWrack }

/-- SEND (R180): hold, admission, step 1, step 2, then step 4 or steps 5a to 5c. -/
def execSend (d : SendDesc) (s : State) : Out :=
  if s.txState ≠ .idle then .next (hold d s)
  else if !admitted d s then .refused .payloadTooLong
  else if !argsOk d then .next (raiseFailure .invalidArgument s)
  else
    match resolveType (.num d.type.toNat) with
    | .error _ => .next (raiseFailure .unresolvedCommand s)
    | .ok t => if s.cfgHasTransport then .next (sendWrite d t s) else .next (sendEncodeOnly d t s)

/-! ## Acknowledgments -/

/-- The drain wait begins (R188). -/
def enterDrainWait (s : State) : State := { s with txTimer := Config.tDrain, txState := .waitDrain }

/-- WRACK (R186 to R188); outside its wait it changes nothing (R194). -/
def execWrack (s : State) : Out :=
  match s.txState with
  | .waitWrack => if s.txBp then .next (enterDrainWait s) else finish s
  | .idle => .next s
  | .waitDrain => .next s

/-- DRAIN (R189); outside its wait it changes nothing (R194). -/
def execDrain (s : State) : Out :=
  match s.txState with
  | .waitDrain => finish s
  | .idle => .next s
  | .waitWrack => .next s

/-- TERR (R190); without an observer it changes nothing. -/
def execTerr (e : Byte) (s : State) : Out :=
  if s.txObs then .next (captureError e s) else .next s

/-! ## The timer -/

/-- TICK (R191, R192): the tick that finds fewer than two units left ends the wait. -/
def execTick (s : State) : Out :=
  match s.txState with
  | .idle => .next s
  | .waitWrack | .waitDrain =>
    if 2 ≤ s.txTimer.toNat then .next { s with txTimer := s.txTimer - 1#11 }
    else .next (raiseFailure .timeout s)

/-! ## CLOSE -/

/-- CLOSE (R197). -/
def execClose (s : State) : Out :=
  if !s.cfgHasTransport then .refused .closeWithoutTransport
  else if s.closed then .refused .closeTwice
  else .next (detach s)

end Sys2Proof.Machine
end

