-- ==== Sys2Proof/Machine/Dispatch.lean ====
section
/-! DEFINITION. `exec`: one arm per row of the opcode table, each a call of the row's meaning. -/

namespace Sys2Proof.Machine

def exec (i : Instr) (s : State) : Host.Outcome State Fault Refusal :=
  match i with
  | .rxbyte src b => Sys2Proof.Machine.execRxbyte src b s
  | .receive arg => Sys2Proof.Machine.execReceive arg s
  | .send desc => Sys2Proof.Machine.execSend desc s
  | .wrack => Sys2Proof.Machine.execWrack s
  | .drain => Sys2Proof.Machine.execDrain s
  | .terr e => Sys2Proof.Machine.execTerr e s
  | .tick => Sys2Proof.Machine.execTick s
  | .close => Sys2Proof.Machine.execClose s
  | .typePoll subsys => Sys2Proof.Machine.execTypePoll subsys s
  | .typeSreq subsys => Sys2Proof.Machine.execTypeSreq subsys s
  | .typeAreq subsys => Sys2Proof.Machine.execTypeAreq subsys s
  | .typeSrsp subsys => Sys2Proof.Machine.execTypeSrsp subsys s
  | .typeRes0 subsys => Sys2Proof.Machine.execTypeRes0 subsys s
  | .typeRes1 subsys => Sys2Proof.Machine.execTypeRes1 subsys s
  | .typeRes2 subsys => Sys2Proof.Machine.execTypeRes2 subsys s
  | .typeRes3 subsys => Sys2Proof.Machine.execTypeRes3 subsys s
  | .frameHdrL1 len type subsys cmd => Sys2Proof.Machine.execFrameHdrL1 len type subsys cmd s
  | .frameHdrL2 len type subsys cmd => Sys2Proof.Machine.execFrameHdrL2 len type subsys cmd s
  | .doneOk => Sys2Proof.Machine.execDoneOk s
  | .doneInvalidArgument => Sys2Proof.Machine.execDoneInvalidArgument s
  | .doneUnresolvedCommand => Sys2Proof.Machine.execDoneUnresolvedCommand s
  | .doneTimeout => Sys2Proof.Machine.execDoneTimeout s
  | .doneTransportError => Sys2Proof.Machine.execDoneTransportError s

end Sys2Proof.Machine
end

