-- ==== Sys2Proof/Machine/Fetch.lean ====
section
/-! DEFINITION. Which of the offered words the block takes next (60_exceptions R236, 42_txc R181). -/

namespace Sys2Proof.Machine

/-- The place of SEND in the order of coincident events: the last. -/
def sendPriority : Nat := 8

/-- The order of coincident events: TERR, WRACK, DRAIN, TICK, RXBYTE, RECEIVE, CLOSE, SEND (60_exceptions R236). The
rest is DESIGN CHOICE, log entry 15: every link word, a header or not, stands with RXBYTE; an event word stands at the place of
its code, whether or not its record decodes; a status word, and an event word without one of the eight codes, stand after
CLOSE and before SEND. -/
def priority (w : PortWord) : Nat :=
  match w.port with
  | .link => 4
  | .status => 7
  | .event =>
    match w.bytes with
    | [] => 7
    | ev :: _ =>
      match ev.toNat with
      | 5 => 0
      | 3 => 1
      | 4 => 2
      | 6 => 3
      | 0 => 4
      | 1 => 5
      | 7 => 6
      | 2 => sendPriority
      | _ => 7

/-- The first word of least priority number, and the others in their order. -/
def takeFirst : PortWord → List PortWord → PortWord × List PortWord
  | w, [] => (w, [])
  | w, v :: vs =>
    if priority w ≤ priority (takeFirst v vs).1 then (w, v :: vs)
    else ((takeFirst v vs).1, w :: (takeFirst v vs).2)

/-- What the next step does. -/
inductive Work where
  /-- Nothing is offered. -/
  | nothing
  /-- The instant has no event left. -/
  | endInstant (s : State)
  | construct (lenBytes : Option Nat) (hasTransport : Bool) (s : State)
  /-- An offered word, and the state without it. -/
  | word (w : PortWord) (s : State)
  /-- The oldest held SEND, and the state without it. -/
  | heldSend (d : SendDesc) (s : State)
deriving DecidableEq, Repr

/-- The held SEND if one is ready, else `other`. -/
def heldOr (s : State) (other : Work) : Work :=
  match s.held with
  | d :: ds => if s.txState = .idle then .heldSend d { s with held := ds } else other
  | [] => other

/-- The next piece of work: within an instant the events of R236 in their order; a SEND, held or new, only after every
other event of the instant, the held ones first (they were offered first). -/
def nextWork (s : State) : Work :=
  match s.inbox with
  | [] => heldOr s .nothing
  | .construct lb ht :: rest => .construct lb ht { s with inbox := rest }
  | .instant [] :: rest => heldOr s (.endInstant { s with inbox := rest })
  | .instant (w :: ws) :: rest =>
    let p := takeFirst w ws
    let run := Work.word p.1 { s with inbox := .instant p.2 :: rest }
    if priority p.1 = sendPriority then heldOr s run else run

/-- Run one piece of work. A word that decodes to nothing is refused when it is taken; for a SEND with the reserved `pl_kind` 3
that is so during a send too, before the hold of 42_txc R180 (DESIGN CHOICE, log entry 28). -/
def runWork (s : State) : Work → Out
  | .nothing => .next s
  | .endInstant s' => .next s'
  | .construct lb ht s' => construct lb ht s'
  | .heldSend d s' => exec (.send d) s'
  | .word w s' =>
    match decode w with
    | .ok i => exec i s'
    | .error e => .refused (.undecodable e)

end Sys2Proof.Machine
end

