-- ==== Sys2Proof/Machine/Step.lean ====
section
/-! DEFINITION. The step, and the placing of one opcode-table word where the step takes its next event. -/

namespace Sys2Proof.Machine

/-- One step: at most one event is handled (00_scope R9). -/
def step (s : State) : Host.Outcome State Fault Refusal := runWork s (nextWork s)

/-- `s` with an opcode-table word offered alone at the next instant. A SEND that is still held would be taken before an
offered SEND, so for a SEND none is held. -/
def State.withFetchWord (s : State) (nbits w : Nat) : State :=
  { s with
    inbox := .instant [tableWord nbits w] :: s.inbox
    held := if priority (tableWord nbits w) = sendPriority then [] else s.held }

end Sys2Proof.Machine
end

