-- ==== Sys2Proof/Machine/Pseudo.lean ====
section
/-! DEFINITION. The pseudo-operations of 30_encoding R112 and R114 as the events they expand to, and a script of events run in
order. -/

namespace Sys2Proof.Machine

/-- `rxt(c)`: one transport-sourced RXBYTE per byte, in order (R114 (3)). -/
def rxt (c : Bytes) : List Instr := c.map (Instr.rxbyte .transport)

/-- The bytes of `receive(c)` as single events, one host-sourced RXBYTE per byte (R114 (2)). -/
def rxh (c : Bytes) : List Instr := c.map (Instr.rxbyte .host)

/-- `tick*N` (R114 (4)). -/
def ticks (n : Nat) : List Instr := List.replicate n .tick

/-- Events handled one after another, each in the state the one before it left (20_memory R69). -/
def runEvents : List Instr → State → Out
  | [], s => .next s
  | i :: is, s => andThen (exec i s) (runEvents is)

end Sys2Proof.Machine
end

