-- ==== Sys2Proof/Safety.lean ====
section
/-! DEFINITION. What holds of every state the block can be in, how much of a send's bound is left, and which parts of two
states agree: the terms in which the claims about the machine are stated. -/

namespace Sys2Proof.Machine

/-! ## Invariants -/

/-- The framer's counters point inside the field they count (10_state R23, R24, 41_framer R157), and only an instance with
transport can be closed (42_txc R197). -/
structure FramerOk (s : State) : Prop where
  lengthIndex : s.rxState = .readLength → s.rxIdx.toNat < s.lenBytes
  payloadIndex : s.rxState = .readPayload → s.rxIdx.toNat < s.rxLen.toNat
  shortLength : s.cfgLenBytes = 0#1 → s.rxLen.toNat < 256
  closedAttached : s.closed = true → s.cfgHasTransport = true

/-- The Transmit Controller's registers agree with its state (10_state R31, R33, R36, 42_txc R184, R188). -/
structure TxcOk (s : State) : Prop where
  observer : s.txObs = true ↔ s.txState ≠ .idle
  wrackTimer : s.txState = .waitWrack → 1 ≤ s.txTimer.toNat ∧ s.txTimer.toNat ≤ 1150
  drainTimer : s.txState = .waitDrain → 1 ≤ s.txTimer.toNat ∧ s.txTimer.toNat ≤ 1100
  drainBackpressure : s.txState = .waitDrain → s.txBp = true
  needsTransport : s.txState ≠ .idle → s.cfgHasTransport = true
  packetLength : s.txState ≠ .idle → s.lenBytes + 4 ≤ s.txPktlen.toNat ∧ s.txPktlen.toNat ≤ 65541

/-- Both buffers are in canonical form and inside their index ranges (20_memory R60). -/
structure MemoryOk (s : State) : Prop where
  rx : s.rxbuf.wf Config.rxbufSize = true
  tx : s.txbuf.wf Config.txbufSize = true

/-- The bytes of the frame in progress consumed since its SOF, rebuilt from the framer's registers. -/
def consumed (s : State) : Bytes :=
  let header := frameHeader s.cfgLenBytes s.rxLen s.rxType (s.rxSubsys.setWidth 8) s.rxCmd
  match s.rxState with
  | .seekSof => []
  | .readLength => (lenfield s.cfgLenBytes s.rxLen).take s.rxIdx.toNat
  | .readCmd0 => lenfield s.cfgLenBytes s.rxLen
  | .readCmdid => lenfield s.cfgLenBytes s.rxLen ++ [packCmd0 s.rxType (s.rxSubsys.setWidth 8)]
  | .readPayload => header ++ s.rxbuf.readRange 0 s.rxIdx.toNat
  | .readFcs => header ++ rxPayload s

/-- Inside a frame the hidden accumulator is the XOR of the bytes consumed since SOF (10_state R29). -/
def AccumulatorOk (s : State) : Prop := s.rxState ≠ .seekSof → s.rxAcc = xorfold (consumed s)

/-- During a send window TXBUF holds an encoded frame of the latched type, subsystem and command (10_state R42). -/
def PacketOk (s : State) : Prop :=
  s.txState ≠ .idle →
    ∃ p : Bytes, p.length ≤ maxLen s.cfgLenBytes ∧
      s.txbuf.readRange 0 s.txPktlen.toNat = encodeFrame s.cfgLenBytes s.txType s.txSubsys s.txCmd p

/-- Everything the claims assume of a state. -/
structure Inv (s : State) : Prop where
  framer : FramerOk s
  txc : TxcOk s
  memory : MemoryOk s
  accumulator : AccumulatorOk s
  packet : PacketOk s

/-! ## The bound on a send (42_txc R195) -/

/-- The most TICK events the send in flight can still survive before it ends. -/
def ticksLeft (s : State) : Nat :=
  match s.txState with
  | .idle => 0
  | .waitWrack => s.txTimer.toNat - 1 + (if s.txBp then 1100 else 1)
  | .waitDrain => s.txTimer.toNat

/-- The number of TICK events of a script. -/
def tickCount (is : List Instr) : Nat := is.countP fun i => decide (i = .tick)

/-! ## Parts of the state -/

/-- What FRAMER owns (00_scope R10), and the configuration it reads. -/
structure SameFramer (s t : State) : Prop where
  rxState : t.rxState = s.rxState
  rxIdx : t.rxIdx = s.rxIdx
  rxLen : t.rxLen = s.rxLen
  rxType : t.rxType = s.rxType
  rxSubsys : t.rxSubsys = s.rxSubsys
  rxCmd : t.rxCmd = s.rxCmd
  rxAcc : t.rxAcc = s.rxAcc
  closed : t.closed = s.closed
  rxbuf : t.rxbuf = s.rxbuf

/-- What TXC owns (00_scope R10), and what the model keeps of its surroundings. -/
structure SameTxc (s t : State) : Prop where
  txState : t.txState = s.txState
  txTimer : t.txTimer = s.txTimer
  txBp : t.txBp = s.txBp
  txObs : t.txObs = s.txObs
  txErrValid : t.txErrValid = s.txErrValid
  txErr : t.txErr = s.txErr
  txType : t.txType = s.txType
  txSubsys : t.txSubsys = s.txSubsys
  txCmd : t.txCmd = s.txCmd
  txPktlen : t.txPktlen = s.txPktlen
  txbuf : t.txbuf = s.txbuf
  held : t.held = s.held
  answers : t.answers = s.answers
  draws : t.draws = s.draws

/-- The configuration registers, which no operation changes (70_reset R261). -/
structure SameConfig (s t : State) : Prop where
  lenBytes : t.cfgLenBytes = s.cfgLenBytes
  hasTransport : t.cfgHasTransport = s.cfgHasTransport

/-- An output of the framer's own: a record. -/
def Output.isData : Output → Bool
  | .data _ => true
  | .flushed _ _ _ | .txWrite _ | .done _ => false

/-- A DONE event. -/
def Output.isDone : Output → Bool
  | .done _ => true
  | .data _ | .flushed _ _ _ | .txWrite _ => false

/-- A configuration with a link to take bytes from: the source of link bytes is delivered. -/
def linkOpen (s : State) : Bool := delivered (linkSource s) s

/-- An event of FRAMER (00_scope R10). -/
def isFramerEvent (i : Instr) : Bool :=
  match i with
  | .rxbyte _ _ | .receive _ => true
  | .send _ | .wrack | .drain | .terr _ | .tick | .close
  | .typePoll _ | .typeSreq _ | .typeAreq _ | .typeSrsp _ | .typeRes0 _ | .typeRes1 _ | .typeRes2 _ | .typeRes3 _
  | .frameHdrL1 _ _ _ _ | .frameHdrL2 _ _ _ _
  | .doneOk | .doneInvalidArgument | .doneUnresolvedCommand | .doneTimeout | .doneTransportError => false

/-- An event of TXC (00_scope R10). -/
def isTxcEvent (i : Instr) : Bool :=
  match i with
  | .send _ | .wrack | .drain | .terr _ | .tick => true
  | .rxbyte _ _ | .receive _ | .close
  | .typePoll _ | .typeSreq _ | .typeAreq _ | .typeSrsp _ | .typeRes0 _ | .typeRes1 _ | .typeRes2 _ | .typeRes3 _
  | .frameHdrL1 _ _ _ _ | .frameHdrL2 _ _ _ _
  | .doneOk | .doneInvalidArgument | .doneUnresolvedCommand | .doneTimeout | .doneTransportError => false

end Sys2Proof.Machine
end

