-- ==== Sys2Proof/Certificates/Slice0/Obligations.lean ====
section
/-! DEFINITION. The statements for the provers. Rule numbers are those of spec/. Where a docstring names a log entry, the
clause it speaks of is the model's choice and no rule of the spec. -/

open Sys2Proof Sys2Proof.Machine

/-! ## Words -/

/-- Decoding the encoding of a well-formed instruction gives it back, with every operand at every value. -/
def Obligations.DecodeOfEncodeIsTheInstruction : Prop :=
  ∀ i : Instr, WellFormed i = true → decode (encode i) = .ok i

/-- A few words written out from the tables of 30_encoding decode to what they stand for. The sideband layout of an
event is the model's, log entry 3. -/
def Obligations.WordsOfTheTableDecode : Prop :=
  decode { port := .event, bytes := [0x00#8, 0x01#8, 0xFE#8] } = .ok (.rxbyte .host 0xFE#8) ∧
  decode { port := .event, bytes := [0x01#8, 0x01#8, 0xFE#8, 0x00#8] } = .ok (.receive (.bytes [0xFE#8, 0x00#8])) ∧
  decode { port := .event, bytes := [0x05#8, 0x2A#8] } = .ok (.terr 0x2A#8) ∧
  decode { port := .event, bytes := [0x06#8] } = .ok .tick ∧
  decode { port := .link, bytes := [0x26#8] } = .ok (.typeSreq 6#5) ∧
  decode { port := .link, bytes := [0xFE#8, 0x03#8, 0x26#8, 0x00#8] } = .ok (.frameHdrL1 3#8 1#3 6#5 0x00#8) ∧
  decode { port := .link, bytes := [0xFE#8, 0x2C#8, 0x01#8, 0x44#8, 0x80#8] } = .ok (.frameHdrL2 300#16 2#3 4#5 0x80#8) ∧
  decode { port := .status, bytes := [0x03#8] } = .ok .doneTimeout

/-- Event codes 8 to 15, the kind code 3 and the status codes 5 to 7 have no instruction, and a step that is offered a
word without one is refused (R101, R103, R104, R110, 93 U3, U7). The model's choices: where these codes stand in a
word, and that a record of another shape is refused too (log entries 3 and 4); that a status code can be offered at
all, so that 5 to 7, of which R110 says only that they are never produced, are refused (log entry 7); that a SEND
record with `pl_kind` 3 is refused when it is taken, during a send too, where R180's order would hold it first (log
entry 28); that a link word that is no CMD0 byte and no header is refused (log entry 31). -/
def Obligations.ReservedCodesAreRefused : Prop :=
  (∀ (ev : Byte) (side : Bytes), 8 ≤ ev.toNat → ev.toNat < 16 →
    decode { port := .event, bytes := ev :: side } = .error .reservedEventCode) ∧
  (∀ chunk : Bytes, decode { port := .event, bytes := 0x01#8 :: 0x03#8 :: chunk } = .error .reservedKind) ∧
  (∀ (q type subsys cmd lo hi : Byte) (pl : Bytes), q.extractLsb' 5 3 = 0#3 → q.extractLsb' 3 2 = 3#2 →
    decode { port := .event, bytes := 0x02#8 :: q :: type :: subsys :: cmd :: lo :: hi :: pl } = .error .reservedKind) ∧
  (∀ c : Byte, 5 ≤ c.toNat → c.toNat < 8 → decode { port := .status, bytes := [c] } = .error .reservedStatus) ∧
  (∀ (s : State) (w : PortWord) (rest : List Slot) (e : DecodeError), s.inbox = .instant [w] :: rest → s.held = [] →
    decode w = .error e → step s = .refused (.undecodable e))

/-! ## Reset, construction, the step -/

/-- The registers of the table of R46 for which the spec gives a value, with the default configuration of R4 and R5.
The hidden `rx_acc` and the buffers, which the table leaves unspecified, are not stated. -/
def Obligations.ResetRegistersAreTheTable : Prop :=
  let s := State.reset
  s.rxState = .seekSof ∧ s.rxIdx = 0#16 ∧ s.rxLen = 0#16 ∧ s.rxType = 0#3 ∧ s.rxSubsys = 0#5 ∧ s.rxCmd = 0#8 ∧
  s.closed = false ∧ s.txState = .idle ∧ s.txTimer = 0#11 ∧ s.txBp = false ∧ s.txObs = false ∧ s.txErrValid = false ∧
  s.txErr = 0#8 ∧ s.txType = 0#3 ∧ s.txSubsys = 0#8 ∧ s.txCmd = 0#8 ∧ s.txPktlen = 0#17 ∧ s.cfgLenBytes = 1#1 ∧
  s.cfgHasTransport = false

/-- Construction (R260 to R262): `lenBytes` 1, 2 or absent (which means 2) gives an instance in the reset state with
that configuration, whatever the state was, and emits nothing; any other `lenBytes` is refused. That the offered
events, the held SENDs, the prescribed answers, the emitted outputs and the reports the host has read stay is the
model's, log entry 19; so are the values that `State.reset` gives the hidden accumulator and the two buffers, which
R46 leaves unspecified, log entries 10 and 11. -/
def Obligations.ConstructionDiscardsTheInstance : Prop :=
  ∀ (s : State) (lb : Option Nat) (ht : Bool) (rest : List Slot), s.inbox = .construct lb ht :: rest →
    (lb = some 1 → step s = .next { State.reset with
      cfgLenBytes := 0#1, cfgHasTransport := ht, inbox := rest, held := s.held, answers := s.answers,
      draws := s.draws, outputs := s.outputs, reportsRead := s.reportsRead }) ∧
    (lb = none ∨ lb = some 2 → step s = .next { State.reset with
      cfgLenBytes := 1#1, cfgHasTransport := ht, inbox := rest, held := s.held, answers := s.answers,
      draws := s.draws, outputs := s.outputs, reportsRead := s.reportsRead }) ∧
    (lb ≠ none → lb ≠ some 1 → lb ≠ some 2 → step s = .refused .badLenBytes)

/-- A step runs the instruction that the offered word decodes to, in the state without that word: for a word offered
alone (a SEND only where no held SEND goes before it), and for an opcode-table word placed by `withFetchWord`. The
list of offers (log entry 1), `withFetchWord` (log entry 2), the port that a bare table word is given (log entry 4)
and the held SENDs that go first (log entry 14) are the model's. -/
def Obligations.StepRunsTheDecodedInstruction : Prop :=
  (∀ (s : State) (w : PortWord) (rest : List Slot) (i : Instr), s.inbox = .instant [w] :: rest → decode w = .ok i →
    (priority w ≠ sendPriority ∨ s.held = [] ∨ s.txState ≠ .idle) →
    step s = exec i { s with inbox := .instant [] :: rest }) ∧
  (∀ (s : State) (nbits w : Nat) (i : Instr), decodeTableWord nbits w = some i →
    step (s.withFetchWord nbits w) = exec i
      { s with inbox := .instant [] :: s.inbox,
               held := if priority (tableWord nbits w) = sendPriority then [] else s.held })

/-- Of the words offered at one instant the step takes one that none of the others goes before, and leaves the others;
the order is TERR, WRACK, DRAIN, TICK, RXBYTE, RECEIVE, CLOSE, SEND (R236). The places of link words, of status words
and of event words that do not decode are the model's choice, log entry 15. -/
def Obligations.CoincidentEventsAreTakenInOrder : Prop :=
  (∀ (s : State) (w : PortWord) (ws : List PortWord) (rest : List Slot), s.inbox = .instant (w :: ws) :: rest →
    ∃ (v : PortWord) (vs : List PortWord), (v :: vs).Perm (w :: ws) ∧ (∀ u ∈ vs, priority v ≤ priority u) ∧
      (priority v ≠ sendPriority ∨ s.held = [] ∨ s.txState ≠ .idle →
        (∀ i, decode v = .ok i → step s = exec i { s with inbox := .instant vs :: rest }) ∧
        (∀ e, decode v = .error e → step s = .refused (.undecodable e)))) ∧
  (∀ (e b : Byte) (src : Src) (a : ByteArg) (d : SendDesc),
    priority (encode (.terr e)) < priority (encode .wrack) ∧
    priority (encode .wrack) < priority (encode .drain) ∧
    priority (encode .drain) < priority (encode .tick) ∧
    priority (encode .tick) < priority (encode (.rxbyte src b)) ∧
    priority (encode (.rxbyte src b)) < priority (encode (.receive a)) ∧
    priority (encode (.receive a)) < priority (encode .close) ∧
    priority (encode .close) < priority (encode (.send d)) ∧
    priority (encode (.send d)) = sendPriority)

/-- A SEND offered while a send is in flight changes no register and stays offered; in the first state with `tx_state
= TX_IDLE` in which no other event of the instant is left, the step takes it, the oldest first (R181). -/
def Obligations.BusySendStaysOfferedUntilIdle : Prop :=
  (∀ (d : SendDesc) (s : State), s.txState ≠ .idle → exec (.send d) s = .next { s with held := s.held ++ [d] }) ∧
  (∀ (d : SendDesc) (ds : List SendDesc) (s : State), s.txState = .idle → s.held = d :: ds →
    (s.inbox = [] ∨ ∃ ws rest, s.inbox = .instant ws :: rest ∧ ∀ w ∈ ws, priority w = sendPriority) →
    step s = exec (.send d) { s with held := ds })

/-! ## RXBYTE -/

/-- Delivery (R151): which offered bytes are delivered; a transport byte after CLOSE is dropped and changes nothing;
the other undelivered bytes are refused. -/
def Obligations.UndeliveredByteHasNoEffect : Prop :=
  ∀ (b : Byte) (s : State),
    (delivered .transport s = true ↔ s.cfgHasTransport = true ∧ s.closed = false) ∧
    (delivered .host s = true ↔ s.closed = false) ∧
    (s.cfgHasTransport = true → s.closed = true → exec (.rxbyte .transport b) s = .next s) ∧
    (s.cfgHasTransport = false → exec (.rxbyte .transport b) s = .refused .transportByteWithoutTransport) ∧
    (s.closed = true → exec (.rxbyte .host b) s = .refused .receiveAfterClose)

/-- RXBYTE in SEEK_SOF (R152): 0xFE starts a frame, every other byte is discarded. That the hidden accumulator is
kept, and cleared here, is R29's leave and the model's reading of it, log entry 26. -/
def Obligations.SeekSofAcceptsOnlyTheMarker : Prop :=
  ∀ (src : Src) (b : Byte) (s : State), delivered src s = true → s.rxState = .seekSof →
    exec (.rxbyte src b) s =
      if b = 0xFE#8 then .next { s with rxState := .readLength, rxIdx := 0#16, rxAcc := 0x00#8 } else .next s

/-- RXBYTE in READ_LENGTH (R153): the first byte is the low byte and clears the high one, a later one is the high
byte; after `LEN_BYTES` bytes the state is READ_CMD0. That the hidden accumulator is kept, and absorbs the byte, is
R29's leave and the model's reading of it, log entry 26. -/
def Obligations.ReadLengthIsLittleEndian : Prop :=
  ∀ (src : Src) (b : Byte) (s : State), delivered src s = true → s.rxState = .readLength →
    let len := if s.rxIdx = 0#16 then b.setWidth 16 else (b.setWidth 16 <<< 8) ||| (s.rxLen &&& 0x00FF#16)
    exec (.rxbyte src b) s =
      if s.rxIdx.toNat + 1 = s.cfgLenBytes.toNat + 1 then
        .next { s with rxLen := len, rxState := .readCmd0, rxIdx := 0#16, rxAcc := s.rxAcc ^^^ b }
      else .next { s with rxLen := len, rxIdx := 1#16, rxAcc := s.rxAcc ^^^ b }

/-- RXBYTE in READ_CMD0 (R155): `rx_type <- b[7:5]`, `rx_subsys <- b[4:0]`. The hidden accumulator absorbs the byte
(R29, log entry 26). -/
def Obligations.ReadCmd0SplitsTheByte : Prop :=
  ∀ (src : Src) (b : Byte) (s : State), delivered src s = true → s.rxState = .readCmd0 →
    ∃ (t : BitVec 3) (u : BitVec 5), t.toNat = b.toNat / 32 ∧ u.toNat = b.toNat % 32 ∧
      exec (.rxbyte src b) s =
        .next { s with rxType := t, rxSubsys := u, rxState := .readCmdid, rxAcc := s.rxAcc ^^^ b }

/-- RXBYTE in READ_CMDID (R156): a payload of no bytes completes immediately. The hidden accumulator absorbs the byte
(R29, log entry 26). -/
def Obligations.ReadCmdidOpensThePayload : Prop :=
  ∀ (src : Src) (b : Byte) (s : State), delivered src s = true → s.rxState = .readCmdid →
    exec (.rxbyte src b) s =
      if s.rxLen = 0#16 then .next { s with rxCmd := b, rxState := .readFcs, rxAcc := s.rxAcc ^^^ b }
      else .next { s with rxCmd := b, rxState := .readPayload, rxIdx := 0#16, rxAcc := s.rxAcc ^^^ b }

/-- RXBYTE in READ_PAYLOAD (R157): the byte is stored at index `rx_idx` and nowhere else, the count goes on or the
state becomes READ_FCS, the hidden accumulator absorbs the byte (R29, log entry 26), and nothing else changes. The
premises on the count and on RXBUF's form are invariants (FramerInvariantIsKept, BuffersStayCanonical). -/
def Obligations.ReadPayloadStoresOneByte : Prop :=
  ∀ (src : Src) (b : Byte) (s : State), delivered src s = true → s.rxState = .readPayload →
    s.rxIdx.toNat < s.rxLen.toNat → s.rxbuf.wf Config.rxbufSize = true →
    ∃ m : Memory, m.read s.rxIdx.toNat = b ∧ (∀ a, a ≠ s.rxIdx.toNat → m.read a = s.rxbuf.read a) ∧
      exec (.rxbyte src b) s =
        if s.rxIdx.toNat + 1 = s.rxLen.toNat then
          .next { s with rxbuf := m, rxState := .readFcs, rxAcc := s.rxAcc ^^^ b }
        else .next { s with rxbuf := m, rxIdx := s.rxIdx + 1#16, rxAcc := s.rxAcc ^^^ b }

/-- RXBYTE in READ_FCS (R159): exactly one record, with the received `fcs` and the recomputed `csum` whether or not
they agree, and back to SEEK_SOF. Where `rx_len` is past MAXLEN, which is in no reachable state
(FramerInvariantIsKept), the length bytes in `csum` are the model's choice, log entry 30. -/
def Obligations.ReadFcsEmitsTheRecord : Prop :=
  ∀ (src : Src) (b : Byte) (s : State), delivered src s = true → s.rxState = .readFcs →
    let payload := s.rxbuf.readRange 0 s.rxLen.toNat
    let cmd0 := ((s.rxType.setWidth 8 <<< 5) &&& 0xE0#8) ||| (s.rxSubsys.setWidth 8 &&& 0x1F#8)
    exec (.rxbyte src b) s = .next { s with
      rxState := .seekSof
      outputs := s.outputs ++ [.data
        { sof := 0xFE#8, len := s.rxLen, type := s.rxType, subsys := s.rxSubsys, cmd := s.rxCmd, payload := payload,
          fcs := b, csum := checksum (lenfield s.cfgLenBytes s.rxLen ++ [cmd0, s.rxCmd]) payload }] }

/-- The frame position of R43 counts the bytes of the frame: a delivered byte that starts or continues a frame adds
one, a discarded byte and an FCS byte leave it at 0. -/
def Obligations.FramePositionCountsDeliveredBytes : Prop :=
  ∀ (src : Src) (b : Byte) (s t : State), FramerOk s → delivered src s = true → exec (.rxbyte src b) s = .next t →
    (s.rxState = .seekSof → b ≠ 0xFE#8 → s.framePos = 0 ∧ t.framePos = 0) ∧
    (s.rxState = .seekSof → b = 0xFE#8 → s.framePos = 0 ∧ t.framePos = 1) ∧
    (s.rxState = .readFcs → s.framePos = 3 + s.lenBytes + s.rxLen.toNat ∧ t.framePos = 0) ∧
    (s.rxState ≠ .seekSof → s.rxState ≠ .readFcs → t.framePos = s.framePos + 1)

/-! ## RECEIVE -/

/-- RECEIVE (R161): the kind first, INVALID_ARGUMENT without any register written; then `closed`; then every byte of
the chunk as an RXBYTE of the host, in order; an absent or empty chunk changes nothing and emits nothing. -/
def Obligations.ReceiveChecksItsArgument : Prop :=
  ∀ s : State,
    exec (.receive .notBytes) s = .next { s with outputs := s.outputs ++ [.done .invalidArgument] } ∧
    (∀ a : ByteArg, a ≠ .notBytes → s.closed = true → exec (.receive a) s = .refused .receiveAfterClose) ∧
    (s.closed = false → ∀ c : Bytes, exec (.receive (.bytes c)) s = runEvents (c.map (Instr.rxbyte .host)) s) ∧
    (s.closed = false → exec (.receive .absent) s = .next s ∧ exec (.receive (.bytes [])) s = .next s)

/-- RECEIVE of any chunk completes wherever the framer's invariant holds and the instance is not closed; it leaves the
transmit side (TXBUF too), the configuration and `closed` alone and emits records only. Which bytes of RXBUF it writes
is said by ReceiveIsItsBytesInOrder and ReadPayloadStoresOneByte. -/
def Obligations.ReceiveCompletesForEveryChunk : Prop :=
  ∀ (s : State) (bs : Bytes), FramerOk s → s.closed = false →
    ∃ (t : State) (os : List Output), exec (.receive (.bytes bs)) s = .next t ∧ SameTxc s t ∧ SameConfig s t ∧
      t.closed = s.closed ∧ t.inbox = s.inbox ∧ t.reportsRead = s.reportsRead ∧
      t.outputs = s.outputs ++ os ∧ (∀ o ∈ os, o.isData = true)

/-- Chunk-boundary invariance (R162): a chunk received whole, in two parts, or byte by byte from either source, ends
the same way: the same next state with the same outputs, or the same stop; and an encoded frame received in any chunks
from SEEK_SOF ends as the frame received at once does, with exactly one record. The premise on RXBUF's form is an
invariant (BuffersStayCanonical). -/
def Obligations.ReceiveIsItsBytesInOrder : Prop :=
  ∀ (s : State) (c1 c2 : Bytes), s.closed = false →
    exec (.receive (.bytes (c1 ++ c2))) s = runEvents [.receive (.bytes c1), .receive (.bytes c2)] s ∧
    exec (.receive (.bytes c1)) s = runEvents (rxh c1) s ∧
    (s.cfgHasTransport = true → exec (.receive (.bytes c1)) s = runEvents (rxt c1) s) ∧
    (∀ (cs : List Bytes) (ty : BitVec 3) (sub cmd : Byte) (p : Bytes), s.rxState = .seekSof →
      s.rxbuf.wf Config.rxbufSize = true → p.length ≤ maxLen s.cfgLenBytes →
      cs.flatten = encodeFrame s.cfgLenBytes ty sub cmd p →
      ∃ (t : State) (r : Record), runEvents (cs.map fun c => .receive (.bytes c)) s = .next t ∧
        exec (.receive (.bytes (encodeFrame s.cfgLenBytes ty sub cmd p))) s = .next t ∧
        t.outputs = s.outputs ++ [.data r])

/-! ## Whole frames -/

/-- Every structurally complete frame is emitted (R158, R159, R160): from SEEK_SOF, a marker, the length field of a
payload, any two header bytes, the payload (0xFE bytes among it or not) and any FCS byte give exactly one record with
those contents, and leave the framer in SEEK_SOF. -/
def Obligations.EveryCompleteFrameIsEmittedOnce : Prop :=
  ∀ (src : Src) (s : State) (cmd0 cmd fcs : Byte) (p : Bytes), delivered src s = true → s.rxState = .seekSof →
    s.rxbuf.wf Config.rxbufSize = true → p.length ≤ maxLen s.cfgLenBytes →
    let n := BitVec.ofNat 16 p.length
    let body := lenfield s.cfgLenBytes n ++ [cmd0, cmd] ++ p
    ∃ t : State, runEvents ((0xFE#8 :: (body ++ [fcs])).map (Instr.rxbyte src)) s = .next t ∧
      t.rxState = .seekSof ∧ SameTxc s t ∧ SameConfig s t ∧
      t.outputs = s.outputs ++ [.data { sof := 0xFE#8, len := n, type := cmd0Type cmd0, subsys := cmd0Subsys cmd0,
                                        cmd := cmd, payload := p, fcs := fcs, csum := xorfold body }]

/-- The round trip (R141): `encode` of a type that resolves and of a payload the LENGTH field can express gives bytes
whose delivery from SEEK_SOF emits exactly one record, with the arguments (the subsystem masked to five bits) and with
`csum = fcs`, the last byte, and leaves the framer in SEEK_SOF. The premise on RXBUF's form is an invariant
(BuffersStayCanonical). -/
def Obligations.EncodedFrameDecodesToItsArguments : Prop :=
  ∀ (src : Src) (s : State) (arg : TypeArg) (ty : BitVec 3) (sub cmd : Byte) (p : Bytes), delivered src s = true →
    s.rxState = .seekSof → s.rxbuf.wf Config.rxbufSize = true → resolveType arg = .ok ty →
    p.length ≤ maxLen s.cfgLenBytes →
    ∃ (frame : Bytes) (t : State) (f : Byte) (u : BitVec 5),
      encodeChecked s.cfgLenBytes arg (some sub) (some cmd) (.bytes p) = some (.ok frame) ∧
      runEvents (frame.map (Instr.rxbyte src)) s = .next t ∧
      t.rxState = .seekSof ∧ u.toNat = sub.toNat % 32 ∧ frame.getLast? = some f ∧
      t.outputs = s.outputs ++ [.data { sof := 0xFE#8, len := BitVec.ofNat 16 p.length, type := ty, subsys := u,
                                        cmd := cmd, payload := p, fcs := f, csum := f }]

/-- Resynchronisation (R163): bytes without 0xFE before a valid frame add no record and lose none. -/
def Obligations.GarbageBeforeAFrameIsDiscarded : Prop :=
  ∀ (src : Src) (s : State) (g : Bytes) (ty : BitVec 3) (sub cmd : Byte) (p : Bytes), delivered src s = true →
    s.rxState = .seekSof → s.rxbuf.wf Config.rxbufSize = true → p.length ≤ maxLen s.cfgLenBytes → 0xFE#8 ∉ g →
    ∃ (t : State) (r : Record),
      runEvents ((g ++ encodeFrame s.cfgLenBytes ty sub cmd p).map (Instr.rxbyte src)) s = .next t ∧
      t.rxState = .seekSof ∧ t.outputs = s.outputs ++ [.data r] ∧ r.type = ty ∧ r.subsys = sub.setWidth 5 ∧
      r.cmd = cmd ∧ r.payload = p ∧ r.csum = r.fcs

/-- A LENGTH holds the framer in the frame (R164): while fewer bytes have come than the payload still lacks, the
framer stays in READ_PAYLOAD and emits nothing, whatever the bytes; with the last of them it is in READ_FCS, still
without output. -/
def Obligations.LengthHoldsTheFramerInThePayload : Prop :=
  ∀ (src : Src) (s : State) (bs : Bytes), FramerOk s → delivered src s = true → s.rxState = .readPayload →
    s.rxIdx.toNat + bs.length ≤ s.rxLen.toNat →
    ∃ t : State, runEvents (bs.map (Instr.rxbyte src)) s = .next t ∧ t.outputs = s.outputs ∧ t.rxLen = s.rxLen ∧
      (s.rxIdx.toNat + bs.length < s.rxLen.toNat → t.rxState = .readPayload) ∧
      (s.rxIdx.toNat + bs.length = s.rxLen.toNat → t.rxState = .readFcs)

/-- The length field read back (R93, R154): the bytes of `lenfield(n)` leave READ_LENGTH with `rx_len = n`. The hidden
accumulator has absorbed them (R29, log entry 26). -/
def Obligations.LengthFieldReadsBack : Prop :=
  ∀ (src : Src) (s : State) (n : BitVec 16), delivered src s = true → s.rxState = .readLength → s.rxIdx = 0#16 →
    n.toNat ≤ maxLen s.cfgLenBytes →
    runEvents ((lenfield s.cfgLenBytes n).map (Instr.rxbyte src)) s =
      .next { s with rxLen := n, rxState := .readCmd0, rxIdx := 0#16,
                     rxAcc := s.rxAcc ^^^ xorfold (lenfield s.cfgLenBytes n) }

/-! ## The wire-format rows -/

/-- A CMD0 row arriving in READ_CMD0 gives its type and its subsystem (R94, R95, R155), all eight types alike; in any
other state it is the byte that the state makes of it (R158), that is RXBYTE of that byte. That a row is an operation,
and means its byte arriving from the instance's own source, is the model's choice, log entries 4 and 5; the hidden
accumulator absorbs the byte (R29, log entry 26). -/
def Obligations.TypeRowsGiveTypeAndSubsystem : Prop :=
  (∀ (s : State) (u : BitVec 5), linkOpen s = true → s.rxState = .readCmd0 →
    ∀ (i : Instr) (t : BitVec 3), (i, t) ∈
      [(Instr.typePoll u, 0#3), (.typeSreq u, 1#3), (.typeAreq u, 2#3), (.typeSrsp u, 3#3),
       (.typeRes0 u, 4#3), (.typeRes1 u, 5#3), (.typeRes2 u, 6#3), (.typeRes3 u, 7#3)] →
      exec i s = .next { s with rxType := t, rxSubsys := u, rxState := .readCmdid,
                                rxAcc := s.rxAcc ^^^ packCmd0 t (u.setWidth 8) }) ∧
  (∀ (s : State) (t : BitVec 3) (u : BitVec 5),
    exec (typeRow t u) s = exec (.rxbyte (linkSource s) (packCmd0 t (u.setWidth 8))) s)

/-- A header of format L1 (R91): on an instance with `LEN_BYTES = 1`, from SEEK_SOF, it gives length, type, subsystem
and command, and opens the payload or, at length 0, waits for the FCS; with `LEN_BYTES = 2` LENGTH and CMD0 are taken
together as the length and CMDID as CMD0 (R270); from any state of the framer it completes and leaves everything but
the framer alone; on a closed instance with transport it is dropped. That a header is an operation is the model's
choice, log entries 5 and 6; the hidden accumulator is the XOR of the header's bytes (R29, log entry 26). -/
def Obligations.HeaderL1IsReadByFormat : Prop :=
  ∀ (s : State) (n : BitVec 8) (t : BitVec 3) (u : BitVec 5) (c : Byte),
    let cmd0 := packCmd0 t (u.setWidth 8)
    (linkOpen s = true → s.rxState = .seekSof → s.cfgLenBytes = 0#1 → exec (.frameHdrL1 n t u c) s =
      .next { s with rxIdx := 0#16, rxLen := n.setWidth 16, rxType := t, rxSubsys := u, rxCmd := c,
                     rxState := if n = 0#8 then .readFcs else .readPayload, rxAcc := xorfold [n, cmd0, c] }) ∧
    (linkOpen s = true → s.rxState = .seekSof → s.cfgLenBytes = 1#1 → exec (.frameHdrL1 n t u c) s =
      .next { s with rxIdx := 0#16, rxLen := (cmd0.setWidth 16 <<< 8) ||| n.setWidth 16, rxType := cmd0Type c,
                     rxSubsys := cmd0Subsys c, rxState := .readCmdid, rxAcc := xorfold [n, cmd0, c] }) ∧
    (linkOpen s = true → FramerOk s → ∃ t', exec (.frameHdrL1 n t u c) s = .next t' ∧ SameTxc s t' ∧ SameConfig s t' ∧
      t'.closed = s.closed ∧ t'.inbox = s.inbox ∧ t'.reportsRead = s.reportsRead) ∧
    (s.cfgHasTransport = true → s.closed = true → exec (.frameHdrL1 n t u c) s = .next s)

/-- A header of format L2 (R92): on an instance with `LEN_BYTES = 2`, from SEEK_SOF, it gives length, type, subsystem
and command; with `LEN_BYTES = 1` LENGTH low is the length, LENGTH high is taken as CMD0, CMD0 as CMDID, and CMDID as
the FCS, with one record, where LENGTH low is 0, and as the first payload byte otherwise (R270); from any state of the
framer it completes and leaves everything but the framer alone; on a closed instance with transport it is dropped. The
premise on RXBUF's form is an invariant (BuffersStayCanonical). That a header is an operation is the model's choice,
log entries 5 and 6; the hidden accumulator is the XOR of the bytes since SOF (R29, log entry 26). -/
def Obligations.HeaderL2IsReadByFormat : Prop :=
  ∀ (s : State) (n : BitVec 16) (t : BitVec 3) (u : BitVec 5) (c : Byte),
    let lo := loByte n
    let hi := hiByte n
    let cmd0 := packCmd0 t (u.setWidth 8)
    (linkOpen s = true → s.rxState = .seekSof → s.cfgLenBytes = 1#1 → exec (.frameHdrL2 n t u c) s =
      .next { s with rxIdx := 0#16, rxLen := n, rxType := t, rxSubsys := u, rxCmd := c,
                     rxState := if n = 0#16 then .readFcs else .readPayload,
                     rxAcc := xorfold [lo, hi, cmd0, c] }) ∧
    (linkOpen s = true → s.rxState = .seekSof → s.cfgLenBytes = 0#1 → lo = 0#8 → exec (.frameHdrL2 n t u c) s =
      .next { s with rxIdx := 0#16, rxLen := 0#16, rxType := cmd0Type hi, rxSubsys := cmd0Subsys hi, rxCmd := cmd0,
                     rxState := .seekSof, rxAcc := xorfold [lo, hi, cmd0],
                     outputs := s.outputs ++ [.data
                       { sof := 0xFE#8, len := 0#16, type := cmd0Type hi, subsys := cmd0Subsys hi, cmd := cmd0,
                         payload := [], fcs := c, csum := xorfold [lo, hi, cmd0] }] }) ∧
    (linkOpen s = true → s.rxState = .seekSof → s.cfgLenBytes = 0#1 → lo ≠ 0#8 → s.rxbuf.wf Config.rxbufSize = true →
      ∃ m : Memory, m.read 0 = c ∧ (∀ a, a ≠ 0 → m.read a = s.rxbuf.read a) ∧ exec (.frameHdrL2 n t u c) s =
        .next { s with rxIdx := if lo = 1#8 then 0#16 else 1#16, rxLen := lo.setWidth 16, rxType := cmd0Type hi,
                       rxSubsys := cmd0Subsys hi, rxCmd := cmd0, rxbuf := m,
                       rxState := if lo = 1#8 then .readFcs else .readPayload,
                       rxAcc := xorfold [lo, hi, cmd0, c] }) ∧
    (linkOpen s = true → FramerOk s → ∃ t', exec (.frameHdrL2 n t u c) s = .next t' ∧ SameTxc s t' ∧ SameConfig s t' ∧
      t'.closed = s.closed ∧ t'.inbox = s.inbox ∧ t'.reportsRead = s.reportsRead) ∧
    (s.cfgHasTransport = true → s.closed = true → exec (.frameHdrL2 n t u c) s = .next s)

/-! ## The codec -/

/-- The fold and the checksum of nothing and of one byte (R131), and the laws of the checksum (R132). -/
def Obligations.ChecksumLaws : Prop :=
  xorfold [] = 0x00#8 ∧ (∀ (b : Byte) (bs : Bytes), xorfold (b :: bs) = b ^^^ xorfold bs) ∧
  checksum [] [] = 0x00#8 ∧ (∀ b : Byte, checksum [b] [] = b) ∧
  (∀ a b : Bytes, checksum a b = checksum b a) ∧
  (∀ a : Bytes, checksum a [] = xorfold a) ∧
  (∀ a b : Bytes, checksum a b = xorfold a ^^^ xorfold b) ∧
  (∀ a a' b b' : Bytes, a.Perm a' → b.Perm b' → checksum a b = checksum a' b') ∧
  (∀ s : Bytes, xorfold (s ++ [xorfold s]) = 0x00#8)

/-- Names and codes (R134, R135): the eight names; every code resolves by its name and by its number to itself; a
number above 7, a name that is none of the eight, and a bad argument fail. -/
def Obligations.TypeNamesAndCodesAgree : Prop :=
  [0#3, 1#3, 2#3, 3#3, 4#3, 5#3, 6#3, 7#3].map typeName =
    ["POLL", "SREQ", "AREQ", "SRSP", "RES0", "RES1", "RES2", "RES3"] ∧
  (∀ c : BitVec 3, resolveType (.name (typeName c)) = .ok c ∧ resolveType (.num c.toNat) = .ok c) ∧
  (∀ n : Nat, 7 < n → resolveType (.num n) = .error .invalidType) ∧
  (∀ nm : String, (∀ c : BitVec 3, nm ≠ typeName c) → resolveType (.name nm) = .error .invalidType) ∧
  resolveType .bad = .error .invalidType

/-- CMD0 as a number (R94, R136): the type is the three high bits, the low five bits of `subsys` the five low bits;
and back. -/
def Obligations.Cmd0IsTypeAboveSubsystem : Prop :=
  (∀ (t : BitVec 3) (sub : Byte), (packCmd0 t sub).toNat = 32 * t.toNat + sub.toNat % 32) ∧
  (∀ b : Byte, (cmd0Type b).toNat = b.toNat / 32 ∧ (cmd0Subsys b).toNat = b.toNat % 32)

/-- The layout of an encoded frame, byte by byte (R91, R92), and its FCS: the XOR of the bytes after SOF and before it
(R97). -/
def Obligations.EncodedFrameLayout : Prop :=
  ∀ (cfg : BitVec 1) (t : BitVec 3) (sub cmd : Byte) (p : Bytes), p.length ≤ maxLen cfg →
    let f := encodeFrame cfg t sub cmd p
    let h := cfg.toNat + 4
    f.length = p.length + (cfg.toNat + 1) + 4 ∧ f[0]? = some 0xFE#8 ∧
    f[1]? = some (BitVec.ofNat 8 (p.length % 256)) ∧
    (cfg = 1#1 → f[2]? = some (BitVec.ofNat 8 (p.length / 256))) ∧
    f[cfg.toNat + 2]? = some (packCmd0 t sub) ∧ f[cfg.toNat + 3]? = some cmd ∧
    (∀ i, i < p.length → f[h + i]? = p[i]?) ∧
    f[h + p.length]? = some (xorfold ((f.drop 1).take (h - 1 + p.length))) ∧
    xorfold (f.drop 1) = 0x00#8

/-- The byte-serial encoder emits the frame (R139). For a payload longer than MAXLEN, outside the domain of `encode`,
both cut the length off alike: that is the model's choice, log entry 30. -/
def Obligations.SerialEncoderEmitsTheFrame : Prop :=
  ∀ (cfg : BitVec 1) (t : BitVec 3) (sub cmd : Byte) (p : Bytes),
    serialEncode cfg t sub cmd p = encodeFrame cfg t sub cmd p

/-- The failures of `encode` in their order (R138), and its value when there is none (R137). That the failures are
answered for a payload longer than MAXLEN too, which R137 puts outside the function's domain, is the model's choice,
log entry 29. -/
def Obligations.EncodeFailsInOrder : Prop :=
  ∀ (cfg : BitVec 1) (ty : TypeArg) (sub cmd : Option Byte) (p : ByteArg),
    (ty = .bad ∨ sub = none ∨ cmd = none ∨ p = .notBytes →
      encodeChecked cfg ty sub cmd p = some (.error .invalidArgument)) ∧
    (ty ≠ .bad → sub ≠ none → cmd ≠ none → p ≠ .notBytes → (∀ c, resolveType ty ≠ .ok c) →
      encodeChecked cfg ty sub cmd p = some (.error .unresolvedCommand)) ∧
    (∀ (c : BitVec 3) (s k : Byte), resolveType ty = .ok c → sub = some s → cmd = some k → p ≠ .notBytes →
      (argBytes p).length ≤ maxLen cfg →
      encodeChecked cfg ty sub cmd p = some (.ok (encodeFrame cfg c s k (argBytes p))))

/-- The host's toolchain (R113): a known name gives a SEND with its code; an unknown name is reported as
UNRESOLVED_COMMAND, as the block reports an unknown code, and forms no event. -/
def Obligations.ToolchainResolvesNames : Prop :=
  ∀ (sub cmd : Byte) (bs : Bytes),
    (∀ c : BitVec 3, formSend (.name (typeName c)) (.num sub.toNat) (.num cmd.toNat) (.bytes bs) =
      .formed { typeOk := true, type := BitVec.ofNat 8 c.toNat, subsysOk := true, subsys := sub, cmdOk := true,
                cmd := cmd, payload := .bytes bs }) ∧
    (∀ nm : String, (∀ c : BitVec 3, nm ≠ typeName c) →
      formSend (.name nm) (.num sub.toNat) (.num cmd.toNat) (.bytes bs) = .reported .unresolvedCommand)

/-! ## SEND -/

/-- SEND's checks in an idle controller (R182, R183, R229): a payload longer than MAXLEN is refused; an argument of
the wrong kind is INVALID_ARGUMENT before anything else; a type above 7 is UNRESOLVED_COMMAND; neither report writes a
register. -/
def Obligations.SendChecksInOrder : Prop :=
  ∀ (d : SendDesc) (s : State), s.txState = .idle →
    (∀ bs, d.payload = .bytes bs → maxLen s.cfgLenBytes < bs.length → exec (.send d) s = .refused .payloadTooLong) ∧
    ((argBytes d.payload).length ≤ maxLen s.cfgLenBytes →
      (d.typeOk = false ∨ d.subsysOk = false ∨ d.cmdOk = false ∨ d.payload = .notBytes →
        exec (.send d) s = .next { s with outputs := s.outputs ++ [.done .invalidArgument] }) ∧
      (d.typeOk = true → d.subsysOk = true → d.cmdOk = true → d.payload ≠ .notBytes → 7 < d.type.toNat →
        exec (.send d) s = .next { s with outputs := s.outputs ++ [.done .unresolvedCommand] }))

/-- SEND without a transport (R184): FLUSHED with the arguments as given, then DONE(OK) with the encoded frame; no
register changes; and the transport's signals and the timer have no effect there. -/
def Obligations.SendEncodesWithoutTransport : Prop :=
  ∀ s : State, s.txState = .idle → s.txObs = false → s.cfgHasTransport = false →
    (∀ (d : SendDesc) (ty : BitVec 3), d.typeOk = true → d.subsysOk = true → d.cmdOk = true → d.payload ≠ .notBytes →
      (argBytes d.payload).length ≤ maxLen s.cfgLenBytes → d.type.toNat = ty.toNat →
      exec (.send d) s = .next { s with outputs := s.outputs ++
        [.flushed ty d.subsys d.cmd,
         .done (.ok (encodeFrame s.cfgLenBytes ty d.subsys d.cmd (argBytes d.payload)))] }) ∧
    exec .wrack s = .next s ∧ exec .drain s = .next s ∧ exec .tick s = .next s ∧ ∀ e, exec (.terr e) s = .next s

/-- SEND with a transport (R185): the observer is subscribed, the captured error cleared, the packet handed over whole
and kept in TXBUF from index 0, the answer remembered as backpressure, the arguments latched, the wait of 1150 units
begun; the framer, the configuration and TXBUF past the packet are left alone. The premise on TXBUF's form is an
invariant (BuffersStayCanonical). Where the answer comes from is the model's, log entry 8. -/
def Obligations.SendWritesAndWaits : Prop :=
  ∀ (d : SendDesc) (s : State) (ty : BitVec 3), s.txState = .idle → s.cfgHasTransport = true →
    d.typeOk = true → d.subsysOk = true → d.cmdOk = true → d.payload ≠ .notBytes →
    (argBytes d.payload).length ≤ maxLen s.cfgLenBytes → d.type.toNat = ty.toNat →
    s.txbuf.wf Config.txbufSize = true →
    let pkt := encodeFrame s.cfgLenBytes ty d.subsys d.cmd (argBytes d.payload)
    ∃ t : State, exec (.send d) s = .next t ∧
      t.txState = .waitWrack ∧ t.txTimer = 1150#11 ∧ t.txObs = true ∧ t.txErrValid = false ∧ t.txErr = s.txErr ∧
      t.txBp = (!nextAnswer s) ∧ t.txType = ty ∧ t.txSubsys = d.subsys ∧ t.txCmd = d.cmd ∧
      t.txPktlen.toNat = pkt.length ∧ t.txbuf.readRange 0 pkt.length = pkt ∧
      (∀ a, pkt.length ≤ a → t.txbuf.read a = s.txbuf.read a) ∧
      t.outputs = s.outputs ++ [.txWrite pkt] ∧ SameFramer s t ∧ SameConfig s t ∧ t.inbox = s.inbox ∧ t.held = s.held ∧
      t.reportsRead = s.reportsRead ∧
      (∀ a as, s.answers = a :: as → nextAnswer s = a ∧ t.answers = as ∧ t.draws = s.draws) ∧
      (s.answers = [] → t.answers = [] ∧ t.draws = s.draws + 1)

/-! ## Acknowledgments, errors, the timer, CLOSE -/

/-- WRACK (R186, R187, R188, R193, R194): under backpressure the drain wait of 1100 units begins; otherwise the send
ends, with the captured error if there is one, else with FLUSHED and DONE(OK, packet); outside its wait nothing
changes. The bound on the packet's length is an invariant (ControllerInvariantIsKept). -/
def Obligations.WrackEndsOrDefersTheSend : Prop :=
  ∀ s : State,
    (s.txState = .waitWrack → s.txBp = true →
      exec .wrack s = .next { s with txTimer := 1100#11, txState := .waitDrain }) ∧
    (s.txState = .waitWrack → s.txBp = false → s.txErrValid = true →
      exec .wrack s = .next { s with
        txObs := false, txState := .idle,
        outputs := s.outputs ++ [.done (.transportError s.txErr)] }) ∧
    (s.txState = .waitWrack → s.txBp = false → s.txErrValid = false → s.txPktlen.toNat ≤ 65541 →
      exec .wrack s = .next { s with
        txObs := false, txState := .idle,
        outputs := s.outputs ++ [.flushed s.txType s.txSubsys s.txCmd,
                                 .done (.ok (s.txbuf.readRange 0 s.txPktlen.toNat))] }) ∧
    (s.txState ≠ .waitWrack → exec .wrack s = .next s)

/-- DRAIN (R189, R193, R194): in its wait it ends the send as WRACK does; outside its wait nothing changes and nothing
is remembered. -/
def Obligations.DrainEndsTheSend : Prop :=
  ∀ s : State,
    (s.txState = .waitDrain → s.txErrValid = true →
      exec .drain s = .next { s with
        txObs := false, txState := .idle,
        outputs := s.outputs ++ [.done (.transportError s.txErr)] }) ∧
    (s.txState = .waitDrain → s.txErrValid = false → s.txPktlen.toNat ≤ 65541 →
      exec .drain s = .next { s with
        txObs := false, txState := .idle,
        outputs := s.outputs ++ [.flushed s.txType s.txSubsys s.txCmd,
                                 .done (.ok (s.txbuf.readRange 0 s.txPktlen.toNat))] }) ∧
    (s.txState ≠ .waitDrain → exec .drain s = .next s)

/-- TERR (R190): captured while the observer is subscribed, the first of a window always, a later one if `ERR_KEEP =
LAST` (whatever that parameter is); the wait goes on; without an observer nothing changes. -/
def Obligations.TerrIsCapturedInTheWindow : Prop :=
  ∀ (e : Byte) (s : State),
    (s.txObs = true → s.txErrValid = false →
      exec (.terr e) s = .next { s with txErr := e, txErrValid := true }) ∧
    (s.txObs = true → s.txErrValid = true →
      exec (.terr e) s = .next { s with txErr := if Config.errKeep = .last then e else s.txErr }) ∧
    (s.txObs = false → exec (.terr e) s = .next s)

/-- TICK (R191, R192): in a wait the timer counts down, and at 1 the send ends with TIMEOUT, whether or not an error
was captured (R231); in TX_IDLE nothing changes. -/
def Obligations.TickCountsDownToTimeout : Prop :=
  ∀ s : State,
    (s.txState = .idle → exec .tick s = .next s) ∧
    (s.txState ≠ .idle → 2 ≤ s.txTimer.toNat →
      exec .tick s = .next { s with txTimer := BitVec.ofNat 11 (s.txTimer.toNat - 1) }) ∧
    (s.txState ≠ .idle → s.txTimer = 1#11 →
      exec .tick s = .next { s with txObs := false, txState := .idle, outputs := s.outputs ++ [.done .timeout] })

/-- A wait with `n` units left survives `n - 1` TICK events and times out on the `n`-th (R191, R192). -/
def Obligations.WaitTimesOutOnItsLastTick : Prop :=
  ∀ s : State, s.txState ≠ .idle → 1 ≤ s.txTimer.toNat →
    runEvents (ticks (s.txTimer.toNat - 1)) s = .next { s with txTimer := 1#11 } ∧
    runEvents (ticks s.txTimer.toNat) s = .next { s with
      txTimer := 1#11, txObs := false, txState := .idle, outputs := s.outputs ++ [.done .timeout] }

/-- The bound on a send (R195): from any state of a send window, every script of events that holds as many TICK events
as are left, in any order with any other events, passes through a state in which the send has ended; and never more
than 2249 are left. A script may hold status rows, which write no register: that is the model's choice, log entry 7.
-/
def Obligations.EverySendEndsWithinItsBound : Prop :=
  (∀ (s t : State) (is : List Instr), TxcOk s → s.txState ≠ .idle → ticksLeft s ≤ tickCount is →
    runEvents is s = .next t →
    ∃ (n : Nat) (u : State), n ≤ is.length ∧ runEvents (is.take n) s = .next u ∧ u.txState = .idle) ∧
  (∀ s : State, TxcOk s → ticksLeft s ≤ 2249)

/-- CLOSE (R197, R198): it sets `closed` and nothing else; without transport, and a second time, it is refused. -/
def Obligations.CloseDetachesTheFramerOnly : Prop :=
  ∀ s : State,
    (s.cfgHasTransport = true → s.closed = false → exec .close s = .next { s with closed := true }) ∧
    (s.cfgHasTransport = false → exec .close s = .refused .closeWithoutTransport) ∧
    (s.cfgHasTransport = true → s.closed = true → exec .close s = .refused .closeTwice)

/-- The moves of `tx_state` (R44, R199): SEND opens a wait, WRACK goes on to the drain wait or ends the send, DRAIN
ends it, TICK ends either wait, and no other instruction moves it; the rows that are no input events (log entries 5 to
7) do not move it either. -/
def Obligations.ControllerStateMovesAsStated : Prop :=
  ∀ (i : Instr) (s t : State), exec i s = .next t → t.txState ≠ s.txState →
    (s.txState = .idle ∧ t.txState = .waitWrack ∧ ∃ d, i = .send d) ∨
    (s.txState = .waitWrack ∧ t.txState = .waitDrain ∧ i = .wrack) ∨
    (s.txState = .waitWrack ∧ t.txState = .idle ∧ (i = .wrack ∨ i = .tick)) ∨
    (s.txState = .waitDrain ∧ t.txState = .idle ∧ (i = .drain ∨ i = .tick))

/-- Each send ends with exactly one DONE (R245): an event of the controller that leaves the send in flight emits
nothing, and the one that ends it emits one DONE, last. -/
def Obligations.EachSendEndsWithOneDone : Prop :=
  ∀ (i : Instr) (s t : State), isTxcEvent i = true → s.txState ≠ .idle → exec i s = .next t →
    (t.txState ≠ .idle → t.outputs = s.outputs) ∧
    (t.txState = .idle → ∃ (os : List Output) (d : Done), t.outputs = s.outputs ++ os ++ [.done d] ∧
      (∀ o ∈ os, o.isDone = false) ∧ t.txObs = false)

/-! ## The status rows -/

/-- The status rows, with the status codes of R110: a row whose status is that of the last DONE report emitted is the
host reading that report; any other row finds nothing to read. No register, no buffer and no output changes (R228).
That a status code is an operation is the model's choice, log entry 7. -/
def Obligations.StatusRowsReadTheReport : Prop :=
  ((∀ pkt, (Done.ok pkt).status = 0#3) ∧ Done.invalidArgument.status = 1#3 ∧ Done.unresolvedCommand.status = 2#3 ∧
    Done.timeout.status = 3#3 ∧ ∀ e, (Done.transportError e).status = 4#3) ∧
  ∀ (i : Instr) (code : BitVec 3), (i, code) ∈
      [(Instr.doneOk, 0#3), (.doneInvalidArgument, 1#3), (.doneUnresolvedCommand, 2#3), (.doneTimeout, 3#3),
       (.doneTransportError, 4#3)] → ∀ s : State,
    (∀ (before after : List Output) (d : Done), s.outputs = before ++ [.done d] ++ after →
      (∀ o ∈ after, o.isDone = false) →
      exec i s = .next { s with reportsRead := if d.status = code then s.reportsRead ++ [d] else s.reportsRead }) ∧
    ((∀ o ∈ s.outputs, o.isDone = false) → exec i s = .next s)

/-! ## The two agents -/

/-- No rule of FRAMER reads the state of TXC (R10, R75): in two states that agree on the framer's registers and the
configuration a framer event has the same outcome: the same framer registers after it and the same outputs. -/
def Obligations.FramerIgnoresTheTransmitSide : Prop :=
  ∀ (i : Instr) (s s' t : State), isFramerEvent i = true → SameFramer s s' → SameConfig s s' → exec i s = .next t →
    ∃ (t' : State) (os : List Output), exec i s' = .next t' ∧ SameFramer t t' ∧ SameTxc s' t' ∧
      t.outputs = s.outputs ++ os ∧ t'.outputs = s'.outputs ++ os

/-- No rule of TXC reads the state of FRAMER (R10). -/
def Obligations.ControllerIgnoresTheReceiveSide : Prop :=
  ∀ (i : Instr) (s s' t : State), isTxcEvent i = true → SameTxc s s' → SameConfig s s' → exec i s = .next t →
    ∃ (t' : State) (os : List Output), exec i s' = .next t' ∧ SameTxc t t' ∧ SameFramer s' t' ∧
      t.outputs = s.outputs ++ os ∧ t'.outputs = s'.outputs ++ os

/-- A framer event and a controller event commute (R72): if either order has a next state, so has the other, with the
same state and the same two output lists. CLOSE commutes neither with RXBYTE of source T nor with RECEIVE. -/
def Obligations.FramerAndControllerEventsCommute : Prop :=
  (∀ (f x : Instr) (s u v : State), isFramerEvent f = true → isTxcEvent x = true →
    exec f s = .next u → exec x u = .next v →
    ∃ (w z : State) (os os' : List Output), exec x s = .next w ∧ exec f w = .next z ∧
      u.outputs = s.outputs ++ os ∧ v.outputs = u.outputs ++ os' ∧
      w.outputs = s.outputs ++ os' ∧ z.outputs = w.outputs ++ os ∧
      z = { v with outputs := z.outputs }) ∧
  (∀ (f x : Instr) (s w z : State), isFramerEvent f = true → isTxcEvent x = true →
    exec x s = .next w → exec f w = .next z →
    ∃ (u v : State) (os os' : List Output), exec f s = .next u ∧ exec x u = .next v ∧
      u.outputs = s.outputs ++ os ∧ v.outputs = u.outputs ++ os' ∧
      w.outputs = s.outputs ++ os' ∧ z.outputs = w.outputs ++ os ∧
      z = { v with outputs := z.outputs }) ∧
  (∀ s : State, s.cfgHasTransport = true → s.closed = false → s.rxState = .seekSof →
    (∃ u v : State, runEvents [.close, .rxbyte .transport 0xFE#8] s = .next u ∧
      runEvents [.rxbyte .transport 0xFE#8, .close] s = .next v ∧ u.rxState = .seekSof ∧ v.rxState = .readLength) ∧
    (∃ v : State, runEvents [.close, .receive (.bytes [0xFE#8])] s = .refused .receiveAfterClose ∧
      runEvents [.receive (.bytes [0xFE#8]), .close] s = .next v ∧ v.rxState = .readLength))

/-! ## Invariants -/

/-- The reset state meets every invariant. What the buffers hold at reset is the model's, log entry 11. -/
def Obligations.ResetMeetsTheInvariant : Prop := Inv State.reset

/-- Every step keeps the framer's counters inside the field they count (R23, R24, R68, R157). -/
def Obligations.FramerInvariantIsKept : Prop :=
  ∀ s t : State, FramerOk s → step s = .next t → FramerOk t

/-- Every step keeps the controller's registers in agreement with its state: the observer is subscribed exactly during
a send window (R33, R241), the timer of a wait is between 1 and its bound (R31), the packet length is that of a frame
(R36). -/
def Obligations.ControllerInvariantIsKept : Prop :=
  ∀ s t : State, TxcOk s → step s = .next t → TxcOk t

/-- Every step keeps both buffers canonical and inside their index ranges (R60, R68). The canonical form, rising
addresses and no byte that an unlisted one reads as, is the model's representation of a buffer, log entry 11. -/
def Obligations.BuffersStayCanonical : Prop :=
  ∀ s t : State, MemoryOk s → step s = .next t → MemoryOk t

/-- The hidden accumulator (R29): every step keeps it equal to the XOR of the frame's bytes consumed since SOF, and at
the FCS byte it is the recomputed checksum of R28. That the model keeps the register is log entry 26; where `rx_len`
is past MAXLEN, in no reachable state, the length bytes of both are log entry 30. -/
def Obligations.AccumulatorIsTheRecomputedChecksum : Prop :=
  (∀ s t : State, FramerOk s → MemoryOk s → AccumulatorOk s → step s = .next t → AccumulatorOk t) ∧
  (∀ (src : Src) (b : Byte) (s : State), AccumulatorOk s → delivered src s = true → s.rxState = .readFcs →
    ∃ (t : State) (r : Record), exec (.rxbyte src b) s = .next t ∧ t.outputs = s.outputs ++ [.data r] ∧
      r.csum = s.rxAcc)

/-- During a send window TXBUF holds an encoded frame of the latched type, subsystem and command, and every step keeps
it (R42). -/
def Obligations.TxbufHoldsThePacketOfTheWindow : Prop :=
  ∀ s t : State, MemoryOk s → PacketOk s → step s = .next t → PacketOk t

/-- No state that meets the invariants takes a step out of a buffer's index range (R68): the step never faults. The
faults are the model's, log entry 17. -/
def Obligations.StepNeverFaults : Prop :=
  ∀ (s : State) (r : Fault), FramerOk s → TxcOk s → step s ≠ .fault r
end

