-- ==== Sys2Proof/Laws/Codec.lean ====
section
/-! SUPPORT. Lemmas of the codec's functions: XOR folds, byte order, CMD0 fields, lengths. -/

namespace Sys2Proof.Machine

/-! ## XOR folds -/

@[simp] theorem xorfold_nil : xorfold [] = 0x00#8 := rfl

theorem foldl_absorb (acc : Byte) (bs : Bytes) : bs.foldl absorb acc = acc ^^^ xorfold bs := by
  induction bs generalizing acc with
  | nil => simp [xorfold]
  | cons b bs ih =>
    have h1 := ih (absorb acc b)
    have h2 := ih (absorb 0x00#8 b)
    simp only [xorfold, List.foldl_cons] at h1 h2 ⊢
    rw [h1, h2]
    simp [absorb, BitVec.xor_assoc]

theorem xorfold_cons (b : Byte) (bs : Bytes) : xorfold (b :: bs) = b ^^^ xorfold bs := by
  have h := foldl_absorb (absorb 0x00#8 b) bs
  simpa [xorfold, absorb] using h

theorem xorfold_append (a b : Bytes) : xorfold (a ++ b) = xorfold a ^^^ xorfold b := by
  induction a with
  | nil => simp
  | cons x a ih => simp [xorfold_cons, ih, BitVec.xor_assoc]

/-- Absorbing one more byte. -/
theorem xorfold_snoc (bs : Bytes) (b : Byte) : xorfold (bs ++ [b]) = absorb (xorfold bs) b := by
  simp [xorfold_append, xorfold_cons, absorb]

/-! ## Byte order -/

@[simp] theorem le16_lo_hi (n : BitVec 16) : le16 (loByte n) (hiByte n) = n := by
  apply BitVec.eq_of_getLsbD_eq
  intro i hi
  simp only [le16, loByte, hiByte, BitVec.getLsbD_or, BitVec.getLsbD_shiftLeft, BitVec.getLsbD_setWidth,
    BitVec.getLsbD_ushiftRight]
  by_cases h : i < 8
  · simp [h, hi]
  · have h8 : 8 + (i - 8) = i := by omega
    have h9 : i - 8 < 8 := by omega
    have h10 : i - 8 < 16 := by omega
    simp [h, hi, h8, h9, h10]

@[simp] theorem loByte_le16 (lo hi : Byte) : loByte (le16 lo hi) = lo := by
  apply BitVec.eq_of_getLsbD_eq
  intro i h
  simp [le16, loByte, h]

@[simp] theorem hiByte_le16 (lo hi : Byte) : hiByte (le16 lo hi) = hi := by
  apply BitVec.eq_of_getLsbD_eq
  intro i h
  have h1 : 8 + i < 16 := by omega
  have h2 : i < 16 := by omega
  simp [le16, hiByte, h, h1, h2]

/-- `(b1 << 8) | b0` is exact (40_codec R140 (4)). -/
theorem le16_toNat (lo hi : Byte) : (le16 lo hi).toNat = lo.toNat + 256 * hi.toNat := by
  have hlo := lo.isLt
  have hhi := hi.isLt
  have h : (le16 lo hi) = hi ++ lo := by
    apply BitVec.eq_of_getLsbD_eq
    intro i hi'
    simp only [le16, BitVec.getLsbD_or, BitVec.getLsbD_shiftLeft, BitVec.getLsbD_setWidth, BitVec.getLsbD_append]
    by_cases h : i < 8
    · simp [h, show i < 16 by omega]
    · have h0 := BitVec.getLsbD_of_ge lo i (by omega)
      simp [h, h0, show i < 16 by omega, show i - 8 < 16 by omega]
  rw [h, BitVec.toNat_append, Nat.shiftLeft_eq, Nat.mul_comm, ← Nat.two_pow_add_eq_or_of_lt hlo]
  omega

/-! ## CMD0 -/

@[simp] theorem cmd0Type_packCmd0 (t : BitVec 3) (s : Byte) : cmd0Type (packCmd0 t s) = t := by
  apply BitVec.eq_of_getLsbD_eq
  intro i h
  have h3 : i = 0 ∨ i = 1 ∨ i = 2 := by omega
  rcases h3 with rfl | rfl | rfl <;> simp [cmd0Type, packCmd0]

@[simp] theorem cmd0Subsys_packCmd0 (t : BitVec 3) (s : Byte) : cmd0Subsys (packCmd0 t s) = s.setWidth 5 := by
  apply BitVec.eq_of_getLsbD_eq
  intro i h
  have h5 : i = 0 ∨ i = 1 ∨ i = 2 ∨ i = 3 ∨ i = 4 := by omega
  rcases h5 with rfl | rfl | rfl | rfl | rfl <;> simp [cmd0Subsys, packCmd0]

/-- Splitting a CMD0 byte and packing it again (10_state R25). -/
@[simp] theorem packCmd0_split (b : Byte) : packCmd0 (cmd0Type b) ((cmd0Subsys b).setWidth 8) = b := by
  revert b; decide

/-- Only the low five bits of `subsys` are packed (40_codec R136). -/
theorem packCmd0_mask (t : BitVec 3) (s : Byte) : packCmd0 t ((s.setWidth 5).setWidth 8) = packCmd0 t s := by
  have h : (s.setWidth 5).setWidth 8 &&& 0x1F#8 = s &&& 0x1F#8 := by revert s; decide
  simp only [packCmd0, h]

/-! ## Lengths -/

@[simp] theorem lenfield_length (cfg : BitVec 1) (n : BitVec 16) : (lenfield cfg n).length = cfg.toNat + 1 := by
  have h : cfg = 0#1 ∨ cfg = 1#1 := by revert cfg; decide
  rcases h with rfl | rfl <;> rfl

@[simp] theorem frameHeader_length (cfg : BitVec 1) (n : BitVec 16) (t : BitVec 3) (s c : Byte) :
    (frameHeader cfg n t s c).length = cfg.toNat + 3 := by
  simp [frameHeader]

@[simp] theorem encodeFrame_length (cfg : BitVec 1) (t : BitVec 3) (s c : Byte) (p : Bytes) :
    (encodeFrame cfg t s c p).length = p.length + (cfg.toNat + 1) + 4 := by
  simp [encodeFrame]; omega

theorem cfg_cases (cfg : BitVec 1) : cfg = 0#1 ∨ cfg = 1#1 := by revert cfg; decide

@[simp] theorem maxLen_short : maxLen 0#1 = 255 := by decide

@[simp] theorem maxLen_long : maxLen 1#1 = 65535 := by decide

theorem maxLen_le (cfg : BitVec 1) : maxLen cfg ≤ 65535 := by
  rcases cfg_cases cfg with rfl | rfl <;> simp

theorem encodeFrame_length_le {cfg : BitVec 1} {p : Bytes} (h : p.length ≤ maxLen cfg) (t : BitVec 3) (s c : Byte) :
    (encodeFrame cfg t s c p).length ≤ 65541 := by
  rcases cfg_cases cfg with rfl | rfl <;> simp at h ⊢ <;> omega

end Sys2Proof.Machine
end

