-- ==== Sys2Proof/Laws/Memory.lean ====
section
/-! SUPPORT. The laws of the two buffers: a read after a write, what a write leaves alone, ranges, and that every operation
keeps the canonical form. -/

namespace Sys2Proof.Machine

/-- A write leaves every other byte alone. -/
theorem Memory.read_write_other (m : Memory) {a a' : Nat} (b : Byte) (h : a' ≠ a) :
    (m.write a b).read a' = m.read a' := by
  induction m with
  | nil => unfold Memory.write; split <;> simp [Memory.read, h.symm]
  | cons c m ih =>
    obtain ⟨k, d⟩ := c
    unfold Memory.write
    by_cases h1 : a < k
    · simp only [h1, if_true]; split <;> simp [Memory.read, h.symm]
    · by_cases h2 : a = k
      · subst h2
        simp only [lt_irrefl, if_false, if_true]
        split <;> simp [Memory.read, h.symm]
      · simp only [h1, h2, if_false, Memory.read, ih]

/-- Below its lower bound a canonical buffer lists nothing. -/
theorem Memory.read_below {lo a : Nat} {m : Memory} (hm : Memory.canonicalFrom lo m = true) (ha : a < lo) :
    m.read a = Config.bufFill := by
  induction m generalizing lo with
  | nil => rfl
  | cons c m ih =>
    obtain ⟨k, b⟩ := c
    simp only [Memory.canonicalFrom, Bool.and_eq_true, decide_eq_true_eq] at hm
    have hk : k ≠ a := by omega
    simp only [Memory.read, hk, if_false]
    exact ih hm.2 (by omega)

/-- A lower bound may be lowered. -/
theorem Memory.canonicalFrom_mono {lo lo' : Nat} {m : Memory} (h : lo' ≤ lo)
    (hm : Memory.canonicalFrom lo m = true) : Memory.canonicalFrom lo' m = true := by
  cases m with
  | nil => rfl
  | cons c m =>
    obtain ⟨k, b⟩ := c
    simp only [Memory.canonicalFrom, Bool.and_eq_true, decide_eq_true_eq] at hm ⊢
    exact ⟨⟨by omega, hm.1.2⟩, hm.2⟩

/-- In a canonical buffer a read after a write to the same index gives the value written. -/
theorem Memory.read_write_same {lo : Nat} {m : Memory} (hm : Memory.canonicalFrom lo m = true) (a : Nat) (b : Byte) :
    (m.write a b).read a = b := by
  induction m generalizing lo with
  | nil => unfold Memory.write; split <;> simp_all [Memory.read]
  | cons c m ih =>
    obtain ⟨k, d⟩ := c
    have hm' := hm
    simp only [Memory.canonicalFrom, Bool.and_eq_true, decide_eq_true_eq] at hm
    unfold Memory.write
    by_cases h1 : a < k
    · simp only [h1, if_true]
      split
      · next hb =>
        rw [Memory.read_below (lo := k) (m := (k, d) :: m) _ h1, hb]
        simp only [Memory.canonicalFrom, Bool.and_eq_true, decide_eq_true_eq]
        exact ⟨⟨le_refl k, hm.1.2⟩, hm.2⟩
      · simp [Memory.read]
    · by_cases h2 : a = k
      · subst h2
        simp only [lt_irrefl, if_false, if_true]
        split
        · next hb => rw [Memory.read_below hm.2 (by omega), hb]
        · simp [Memory.read]
      · have h3 : k ≠ a := fun e => h2 e.symm
        simp only [h1, h2, h3, if_false, Memory.read, ih hm.2]

/-- A write keeps the canonical form. -/
theorem Memory.canonicalFrom_write {lo : Nat} {m : Memory} (hm : Memory.canonicalFrom lo m = true) {a : Nat}
    (b : Byte) (ha : lo ≤ a) : Memory.canonicalFrom lo (m.write a b) = true := by
  induction m generalizing lo with
  | nil => unfold Memory.write; split <;> simp_all [Memory.canonicalFrom]
  | cons c m ih =>
    obtain ⟨k, d⟩ := c
    have hm' := hm
    simp only [Memory.canonicalFrom, Bool.and_eq_true, decide_eq_true_eq] at hm
    unfold Memory.write
    by_cases h1 : a < k
    · simp only [h1, if_true]
      split
      · exact hm'
      · next hb =>
        simp only [Memory.canonicalFrom, Bool.and_eq_true, decide_eq_true_eq]
        exact ⟨⟨ha, hb⟩, ⟨by omega, hm.1.2⟩, hm.2⟩
    · by_cases h2 : a = k
      · subst h2
        simp only [lt_irrefl, if_false, if_true]
        split
        · exact Memory.canonicalFrom_mono (by omega) hm.2
        · next hb =>
          simp only [Memory.canonicalFrom, Bool.and_eq_true, decide_eq_true_eq]
          exact ⟨⟨ha, hb⟩, hm.2⟩
      · simp only [h1, h2, if_false, Memory.canonicalFrom, Bool.and_eq_true, decide_eq_true_eq]
        exact ⟨hm.1, ih hm.2 (by omega)⟩

/-- A write inside the index range adds no index outside it. -/
theorem Memory.all_write {size : Nat} {m : Memory} {a : Nat} (b : Byte)
    (hm : (m.all fun c => decide (c.1 < size)) = true) (ha : a < size) :
    ((m.write a b).all fun c => decide (c.1 < size)) = true := by
  induction m with
  | nil => unfold Memory.write; split <;> simp_all
  | cons c m ih =>
    obtain ⟨k, d⟩ := c
    rw [List.all_cons, Bool.and_eq_true, decide_eq_true_eq] at hm
    have ht := ih hm.2
    have hk : ((k, d) :: m).all (fun c => decide (c.1 < size)) = true := by
      rw [List.all_cons, Bool.and_eq_true, decide_eq_true_eq]; exact hm
    have hcons : ∀ x : Host.Cell, x.1 < size → ∀ l : Memory, (l.all fun c => decide (c.1 < size)) = true →
        ((x :: l).all fun c => decide (c.1 < size)) = true := fun x hx l hl => by
      rw [List.all_cons, Bool.and_eq_true, decide_eq_true_eq]; exact ⟨hx, hl⟩
    unfold Memory.write
    split_ifs
    · exact hk
    · exact hcons _ ha _ hk
    · exact hm.2
    · exact hcons _ ha _ hm.2
    · exact hcons _ hm.1 _ ht

/-- A write inside the index range keeps a buffer well formed. -/
theorem Memory.wf_write {size : Nat} {m : Memory} {a : Nat} (b : Byte) (hm : m.wf size = true) (ha : a < size) :
    (m.write a b).wf size = true := by
  simp only [Memory.wf, Bool.and_eq_true] at hm ⊢
  exact ⟨Memory.canonicalFrom_write hm.1 b (Nat.zero_le a), Memory.all_write b hm.2 ha⟩

/-- The canonical form inside `Memory.wf`. -/
theorem Memory.canonical_of_wf {size : Nat} {m : Memory} (hm : m.wf size = true) :
    Memory.canonicalFrom 0 m = true := by
  simp only [Memory.wf, Bool.and_eq_true] at hm; exact hm.1

/-! ## Ranges -/

@[simp] theorem Memory.readRange_zero (m : Memory) (a : Nat) : m.readRange a 0 = [] := rfl

@[simp] theorem Memory.readRange_length (m : Memory) (a n : Nat) : (m.readRange a n).length = n := by
  induction n generalizing a with
  | zero => rfl
  | succ n ih => simp [Memory.readRange, ih]

/-- A range one byte longer has that byte at its end. -/
theorem Memory.readRange_succ (m : Memory) (a n : Nat) :
    m.readRange a (n + 1) = m.readRange a n ++ [m.read (a + n)] := by
  induction n generalizing a with
  | zero => simp [Memory.readRange]
  | succ n ih =>
    rw [Memory.readRange, ih (a + 1)]
    simp [Memory.readRange, Nat.add_assoc, Nat.add_comm 1 n]

/-- Two buffers that agree on a range read the same there. -/
theorem Memory.readRange_congr {m m' : Memory} {a n : Nat} (h : ∀ i, a ≤ i → i < a + n → m.read i = m'.read i) :
    m.readRange a n = m'.readRange a n := by
  induction n generalizing a with
  | zero => rfl
  | succ n ih =>
    simp only [Memory.readRange]
    rw [h a (le_refl a) (by omega), ih fun i h1 h2 => h i (by omega) (by omega)]

/-- A write past the end of a range leaves the range alone. -/
theorem Memory.readRange_write_past (m : Memory) {a n k : Nat} (b : Byte) (h : a + n ≤ k) :
    (m.write k b).readRange a n = m.readRange a n :=
  Memory.readRange_congr fun i _ h2 => Memory.read_write_other m b (by omega)

/-- Writing a sequence keeps a buffer well formed. -/
theorem Memory.wf_writeRange {size : Nat} {m : Memory} {a : Nat} {bs : Bytes} (hm : m.wf size = true)
    (h : a + bs.length ≤ size) : (m.writeRange a bs).wf size = true := by
  induction bs generalizing m a with
  | nil => exact hm
  | cons b bs ih =>
    simp only [List.length_cons] at h
    exact ih (Memory.wf_write b hm (by omega)) (by omega)

/-- Writing a sequence leaves every index outside it alone. -/
theorem Memory.read_writeRange_other (m : Memory) {a i : Nat} {bs : Bytes} (h : i < a ∨ a + bs.length ≤ i) :
    (m.writeRange a bs).read i = m.read i := by
  induction bs generalizing m a with
  | nil => rfl
  | cons b bs ih =>
    simp only [List.length_cons] at h
    rw [Memory.writeRange, ih (m.write a b) (by omega), Memory.read_write_other m b (by omega)]

/-- Writing a sequence and reading it back. -/
theorem Memory.readRange_writeRange {m : Memory} (hm : Memory.canonicalFrom 0 m = true) (a : Nat) (bs : Bytes) :
    (m.writeRange a bs).readRange a bs.length = bs := by
  induction bs generalizing m a with
  | nil => rfl
  | cons b bs ih =>
    have hw := Memory.canonicalFrom_write hm b (Nat.zero_le a)
    simp only [Memory.writeRange, List.length_cons, Memory.readRange]
    rw [ih hw, Memory.read_writeRange_other _ (Or.inl (by omega)), Memory.read_write_same hm]

end Sys2Proof.Machine
end

