-- ==== Sys2Proof/Laws/State.lean ====
section
/-! SUPPORT. One lemma per field for each named update of State, true by rfl, so that no later proof unfolds an update. -/

namespace Sys2Proof.Machine

/-! ## emit -/

@[simp] theorem emit_rxState (os : List Output) (s : State) :
    (emit os s).rxState = s.rxState := rfl
@[simp] theorem emit_rxIdx (os : List Output) (s : State) :
    (emit os s).rxIdx = s.rxIdx := rfl
@[simp] theorem emit_rxLen (os : List Output) (s : State) :
    (emit os s).rxLen = s.rxLen := rfl
@[simp] theorem emit_rxType (os : List Output) (s : State) :
    (emit os s).rxType = s.rxType := rfl
@[simp] theorem emit_rxSubsys (os : List Output) (s : State) :
    (emit os s).rxSubsys = s.rxSubsys := rfl
@[simp] theorem emit_rxCmd (os : List Output) (s : State) :
    (emit os s).rxCmd = s.rxCmd := rfl
@[simp] theorem emit_rxAcc (os : List Output) (s : State) :
    (emit os s).rxAcc = s.rxAcc := rfl
@[simp] theorem emit_closed (os : List Output) (s : State) :
    (emit os s).closed = s.closed := rfl
@[simp] theorem emit_rxbuf (os : List Output) (s : State) :
    (emit os s).rxbuf = s.rxbuf := rfl
@[simp] theorem emit_txState (os : List Output) (s : State) :
    (emit os s).txState = s.txState := rfl
@[simp] theorem emit_txTimer (os : List Output) (s : State) :
    (emit os s).txTimer = s.txTimer := rfl
@[simp] theorem emit_txBp (os : List Output) (s : State) :
    (emit os s).txBp = s.txBp := rfl
@[simp] theorem emit_txObs (os : List Output) (s : State) :
    (emit os s).txObs = s.txObs := rfl
@[simp] theorem emit_txErrValid (os : List Output) (s : State) :
    (emit os s).txErrValid = s.txErrValid := rfl
@[simp] theorem emit_txErr (os : List Output) (s : State) :
    (emit os s).txErr = s.txErr := rfl
@[simp] theorem emit_txType (os : List Output) (s : State) :
    (emit os s).txType = s.txType := rfl
@[simp] theorem emit_txSubsys (os : List Output) (s : State) :
    (emit os s).txSubsys = s.txSubsys := rfl
@[simp] theorem emit_txCmd (os : List Output) (s : State) :
    (emit os s).txCmd = s.txCmd := rfl
@[simp] theorem emit_txPktlen (os : List Output) (s : State) :
    (emit os s).txPktlen = s.txPktlen := rfl
@[simp] theorem emit_txbuf (os : List Output) (s : State) :
    (emit os s).txbuf = s.txbuf := rfl
@[simp] theorem emit_cfgLenBytes (os : List Output) (s : State) :
    (emit os s).cfgLenBytes = s.cfgLenBytes := rfl
@[simp] theorem emit_cfgHasTransport (os : List Output) (s : State) :
    (emit os s).cfgHasTransport = s.cfgHasTransport := rfl
@[simp] theorem emit_inbox (os : List Output) (s : State) :
    (emit os s).inbox = s.inbox := rfl
@[simp] theorem emit_held (os : List Output) (s : State) :
    (emit os s).held = s.held := rfl
@[simp] theorem emit_answers (os : List Output) (s : State) :
    (emit os s).answers = s.answers := rfl
@[simp] theorem emit_draws (os : List Output) (s : State) :
    (emit os s).draws = s.draws := rfl
@[simp] theorem emit_outputs (os : List Output) (s : State) :
    (emit os s).outputs = s.outputs ++ os := rfl
@[simp] theorem emit_reportsRead (os : List Output) (s : State) :
    (emit os s).reportsRead = s.reportsRead := rfl

/-! ## release -/

@[simp] theorem release_rxState (s : State) :
    (release s).rxState = s.rxState := rfl
@[simp] theorem release_rxIdx (s : State) :
    (release s).rxIdx = s.rxIdx := rfl
@[simp] theorem release_rxLen (s : State) :
    (release s).rxLen = s.rxLen := rfl
@[simp] theorem release_rxType (s : State) :
    (release s).rxType = s.rxType := rfl
@[simp] theorem release_rxSubsys (s : State) :
    (release s).rxSubsys = s.rxSubsys := rfl
@[simp] theorem release_rxCmd (s : State) :
    (release s).rxCmd = s.rxCmd := rfl
@[simp] theorem release_rxAcc (s : State) :
    (release s).rxAcc = s.rxAcc := rfl
@[simp] theorem release_closed (s : State) :
    (release s).closed = s.closed := rfl
@[simp] theorem release_rxbuf (s : State) :
    (release s).rxbuf = s.rxbuf := rfl
@[simp] theorem release_txState (s : State) :
    (release s).txState = .idle := rfl
@[simp] theorem release_txTimer (s : State) :
    (release s).txTimer = s.txTimer := rfl
@[simp] theorem release_txBp (s : State) :
    (release s).txBp = s.txBp := rfl
@[simp] theorem release_txObs (s : State) :
    (release s).txObs = false := rfl
@[simp] theorem release_txErrValid (s : State) :
    (release s).txErrValid = s.txErrValid := rfl
@[simp] theorem release_txErr (s : State) :
    (release s).txErr = s.txErr := rfl
@[simp] theorem release_txType (s : State) :
    (release s).txType = s.txType := rfl
@[simp] theorem release_txSubsys (s : State) :
    (release s).txSubsys = s.txSubsys := rfl
@[simp] theorem release_txCmd (s : State) :
    (release s).txCmd = s.txCmd := rfl
@[simp] theorem release_txPktlen (s : State) :
    (release s).txPktlen = s.txPktlen := rfl
@[simp] theorem release_txbuf (s : State) :
    (release s).txbuf = s.txbuf := rfl
@[simp] theorem release_cfgLenBytes (s : State) :
    (release s).cfgLenBytes = s.cfgLenBytes := rfl
@[simp] theorem release_cfgHasTransport (s : State) :
    (release s).cfgHasTransport = s.cfgHasTransport := rfl
@[simp] theorem release_inbox (s : State) :
    (release s).inbox = s.inbox := rfl
@[simp] theorem release_held (s : State) :
    (release s).held = s.held := rfl
@[simp] theorem release_answers (s : State) :
    (release s).answers = s.answers := rfl
@[simp] theorem release_draws (s : State) :
    (release s).draws = s.draws := rfl
@[simp] theorem release_outputs (s : State) :
    (release s).outputs = s.outputs := rfl
@[simp] theorem release_reportsRead (s : State) :
    (release s).reportsRead = s.reportsRead := rfl

/-! ## hold -/

@[simp] theorem hold_rxState (d : SendDesc) (s : State) :
    (hold d s).rxState = s.rxState := rfl
@[simp] theorem hold_rxIdx (d : SendDesc) (s : State) :
    (hold d s).rxIdx = s.rxIdx := rfl
@[simp] theorem hold_rxLen (d : SendDesc) (s : State) :
    (hold d s).rxLen = s.rxLen := rfl
@[simp] theorem hold_rxType (d : SendDesc) (s : State) :
    (hold d s).rxType = s.rxType := rfl
@[simp] theorem hold_rxSubsys (d : SendDesc) (s : State) :
    (hold d s).rxSubsys = s.rxSubsys := rfl
@[simp] theorem hold_rxCmd (d : SendDesc) (s : State) :
    (hold d s).rxCmd = s.rxCmd := rfl
@[simp] theorem hold_rxAcc (d : SendDesc) (s : State) :
    (hold d s).rxAcc = s.rxAcc := rfl
@[simp] theorem hold_closed (d : SendDesc) (s : State) :
    (hold d s).closed = s.closed := rfl
@[simp] theorem hold_rxbuf (d : SendDesc) (s : State) :
    (hold d s).rxbuf = s.rxbuf := rfl
@[simp] theorem hold_txState (d : SendDesc) (s : State) :
    (hold d s).txState = s.txState := rfl
@[simp] theorem hold_txTimer (d : SendDesc) (s : State) :
    (hold d s).txTimer = s.txTimer := rfl
@[simp] theorem hold_txBp (d : SendDesc) (s : State) :
    (hold d s).txBp = s.txBp := rfl
@[simp] theorem hold_txObs (d : SendDesc) (s : State) :
    (hold d s).txObs = s.txObs := rfl
@[simp] theorem hold_txErrValid (d : SendDesc) (s : State) :
    (hold d s).txErrValid = s.txErrValid := rfl
@[simp] theorem hold_txErr (d : SendDesc) (s : State) :
    (hold d s).txErr = s.txErr := rfl
@[simp] theorem hold_txType (d : SendDesc) (s : State) :
    (hold d s).txType = s.txType := rfl
@[simp] theorem hold_txSubsys (d : SendDesc) (s : State) :
    (hold d s).txSubsys = s.txSubsys := rfl
@[simp] theorem hold_txCmd (d : SendDesc) (s : State) :
    (hold d s).txCmd = s.txCmd := rfl
@[simp] theorem hold_txPktlen (d : SendDesc) (s : State) :
    (hold d s).txPktlen = s.txPktlen := rfl
@[simp] theorem hold_txbuf (d : SendDesc) (s : State) :
    (hold d s).txbuf = s.txbuf := rfl
@[simp] theorem hold_cfgLenBytes (d : SendDesc) (s : State) :
    (hold d s).cfgLenBytes = s.cfgLenBytes := rfl
@[simp] theorem hold_cfgHasTransport (d : SendDesc) (s : State) :
    (hold d s).cfgHasTransport = s.cfgHasTransport := rfl
@[simp] theorem hold_inbox (d : SendDesc) (s : State) :
    (hold d s).inbox = s.inbox := rfl
@[simp] theorem hold_held (d : SendDesc) (s : State) :
    (hold d s).held = s.held ++ [d] := rfl
@[simp] theorem hold_answers (d : SendDesc) (s : State) :
    (hold d s).answers = s.answers := rfl
@[simp] theorem hold_draws (d : SendDesc) (s : State) :
    (hold d s).draws = s.draws := rfl
@[simp] theorem hold_outputs (d : SendDesc) (s : State) :
    (hold d s).outputs = s.outputs := rfl
@[simp] theorem hold_reportsRead (d : SendDesc) (s : State) :
    (hold d s).reportsRead = s.reportsRead := rfl

/-! ## detach -/

@[simp] theorem detach_rxState (s : State) :
    (detach s).rxState = s.rxState := rfl
@[simp] theorem detach_rxIdx (s : State) :
    (detach s).rxIdx = s.rxIdx := rfl
@[simp] theorem detach_rxLen (s : State) :
    (detach s).rxLen = s.rxLen := rfl
@[simp] theorem detach_rxType (s : State) :
    (detach s).rxType = s.rxType := rfl
@[simp] theorem detach_rxSubsys (s : State) :
    (detach s).rxSubsys = s.rxSubsys := rfl
@[simp] theorem detach_rxCmd (s : State) :
    (detach s).rxCmd = s.rxCmd := rfl
@[simp] theorem detach_rxAcc (s : State) :
    (detach s).rxAcc = s.rxAcc := rfl
@[simp] theorem detach_closed (s : State) :
    (detach s).closed = true := rfl
@[simp] theorem detach_rxbuf (s : State) :
    (detach s).rxbuf = s.rxbuf := rfl
@[simp] theorem detach_txState (s : State) :
    (detach s).txState = s.txState := rfl
@[simp] theorem detach_txTimer (s : State) :
    (detach s).txTimer = s.txTimer := rfl
@[simp] theorem detach_txBp (s : State) :
    (detach s).txBp = s.txBp := rfl
@[simp] theorem detach_txObs (s : State) :
    (detach s).txObs = s.txObs := rfl
@[simp] theorem detach_txErrValid (s : State) :
    (detach s).txErrValid = s.txErrValid := rfl
@[simp] theorem detach_txErr (s : State) :
    (detach s).txErr = s.txErr := rfl
@[simp] theorem detach_txType (s : State) :
    (detach s).txType = s.txType := rfl
@[simp] theorem detach_txSubsys (s : State) :
    (detach s).txSubsys = s.txSubsys := rfl
@[simp] theorem detach_txCmd (s : State) :
    (detach s).txCmd = s.txCmd := rfl
@[simp] theorem detach_txPktlen (s : State) :
    (detach s).txPktlen = s.txPktlen := rfl
@[simp] theorem detach_txbuf (s : State) :
    (detach s).txbuf = s.txbuf := rfl
@[simp] theorem detach_cfgLenBytes (s : State) :
    (detach s).cfgLenBytes = s.cfgLenBytes := rfl
@[simp] theorem detach_cfgHasTransport (s : State) :
    (detach s).cfgHasTransport = s.cfgHasTransport := rfl
@[simp] theorem detach_inbox (s : State) :
    (detach s).inbox = s.inbox := rfl
@[simp] theorem detach_held (s : State) :
    (detach s).held = s.held := rfl
@[simp] theorem detach_answers (s : State) :
    (detach s).answers = s.answers := rfl
@[simp] theorem detach_draws (s : State) :
    (detach s).draws = s.draws := rfl
@[simp] theorem detach_outputs (s : State) :
    (detach s).outputs = s.outputs := rfl
@[simp] theorem detach_reportsRead (s : State) :
    (detach s).reportsRead = s.reportsRead := rfl

/-! ## captureError -/

@[simp] theorem captureError_rxState (e : Byte) (s : State) :
    (captureError e s).rxState = s.rxState := rfl
@[simp] theorem captureError_rxIdx (e : Byte) (s : State) :
    (captureError e s).rxIdx = s.rxIdx := rfl
@[simp] theorem captureError_rxLen (e : Byte) (s : State) :
    (captureError e s).rxLen = s.rxLen := rfl
@[simp] theorem captureError_rxType (e : Byte) (s : State) :
    (captureError e s).rxType = s.rxType := rfl
@[simp] theorem captureError_rxSubsys (e : Byte) (s : State) :
    (captureError e s).rxSubsys = s.rxSubsys := rfl
@[simp] theorem captureError_rxCmd (e : Byte) (s : State) :
    (captureError e s).rxCmd = s.rxCmd := rfl
@[simp] theorem captureError_rxAcc (e : Byte) (s : State) :
    (captureError e s).rxAcc = s.rxAcc := rfl
@[simp] theorem captureError_closed (e : Byte) (s : State) :
    (captureError e s).closed = s.closed := rfl
@[simp] theorem captureError_rxbuf (e : Byte) (s : State) :
    (captureError e s).rxbuf = s.rxbuf := rfl
@[simp] theorem captureError_txState (e : Byte) (s : State) :
    (captureError e s).txState = s.txState := rfl
@[simp] theorem captureError_txTimer (e : Byte) (s : State) :
    (captureError e s).txTimer = s.txTimer := rfl
@[simp] theorem captureError_txBp (e : Byte) (s : State) :
    (captureError e s).txBp = s.txBp := rfl
@[simp] theorem captureError_txObs (e : Byte) (s : State) :
    (captureError e s).txObs = s.txObs := rfl
@[simp] theorem captureError_txErrValid (e : Byte) (s : State) :
    (captureError e s).txErrValid = true := rfl
@[simp] theorem captureError_txErr (e : Byte) (s : State) :
    (captureError e s).txErr = if keepsError s.txErrValid then e else s.txErr := rfl
@[simp] theorem captureError_txType (e : Byte) (s : State) :
    (captureError e s).txType = s.txType := rfl
@[simp] theorem captureError_txSubsys (e : Byte) (s : State) :
    (captureError e s).txSubsys = s.txSubsys := rfl
@[simp] theorem captureError_txCmd (e : Byte) (s : State) :
    (captureError e s).txCmd = s.txCmd := rfl
@[simp] theorem captureError_txPktlen (e : Byte) (s : State) :
    (captureError e s).txPktlen = s.txPktlen := rfl
@[simp] theorem captureError_txbuf (e : Byte) (s : State) :
    (captureError e s).txbuf = s.txbuf := rfl
@[simp] theorem captureError_cfgLenBytes (e : Byte) (s : State) :
    (captureError e s).cfgLenBytes = s.cfgLenBytes := rfl
@[simp] theorem captureError_cfgHasTransport (e : Byte) (s : State) :
    (captureError e s).cfgHasTransport = s.cfgHasTransport := rfl
@[simp] theorem captureError_inbox (e : Byte) (s : State) :
    (captureError e s).inbox = s.inbox := rfl
@[simp] theorem captureError_held (e : Byte) (s : State) :
    (captureError e s).held = s.held := rfl
@[simp] theorem captureError_answers (e : Byte) (s : State) :
    (captureError e s).answers = s.answers := rfl
@[simp] theorem captureError_draws (e : Byte) (s : State) :
    (captureError e s).draws = s.draws := rfl
@[simp] theorem captureError_outputs (e : Byte) (s : State) :
    (captureError e s).outputs = s.outputs := rfl
@[simp] theorem captureError_reportsRead (e : Byte) (s : State) :
    (captureError e s).reportsRead = s.reportsRead := rfl

/-! ## enterDrainWait -/

@[simp] theorem enterDrainWait_rxState (s : State) :
    (enterDrainWait s).rxState = s.rxState := rfl
@[simp] theorem enterDrainWait_rxIdx (s : State) :
    (enterDrainWait s).rxIdx = s.rxIdx := rfl
@[simp] theorem enterDrainWait_rxLen (s : State) :
    (enterDrainWait s).rxLen = s.rxLen := rfl
@[simp] theorem enterDrainWait_rxType (s : State) :
    (enterDrainWait s).rxType = s.rxType := rfl
@[simp] theorem enterDrainWait_rxSubsys (s : State) :
    (enterDrainWait s).rxSubsys = s.rxSubsys := rfl
@[simp] theorem enterDrainWait_rxCmd (s : State) :
    (enterDrainWait s).rxCmd = s.rxCmd := rfl
@[simp] theorem enterDrainWait_rxAcc (s : State) :
    (enterDrainWait s).rxAcc = s.rxAcc := rfl
@[simp] theorem enterDrainWait_closed (s : State) :
    (enterDrainWait s).closed = s.closed := rfl
@[simp] theorem enterDrainWait_rxbuf (s : State) :
    (enterDrainWait s).rxbuf = s.rxbuf := rfl
@[simp] theorem enterDrainWait_txState (s : State) :
    (enterDrainWait s).txState = .waitDrain := rfl
@[simp] theorem enterDrainWait_txTimer (s : State) :
    (enterDrainWait s).txTimer = Config.tDrain := rfl
@[simp] theorem enterDrainWait_txBp (s : State) :
    (enterDrainWait s).txBp = s.txBp := rfl
@[simp] theorem enterDrainWait_txObs (s : State) :
    (enterDrainWait s).txObs = s.txObs := rfl
@[simp] theorem enterDrainWait_txErrValid (s : State) :
    (enterDrainWait s).txErrValid = s.txErrValid := rfl
@[simp] theorem enterDrainWait_txErr (s : State) :
    (enterDrainWait s).txErr = s.txErr := rfl
@[simp] theorem enterDrainWait_txType (s : State) :
    (enterDrainWait s).txType = s.txType := rfl
@[simp] theorem enterDrainWait_txSubsys (s : State) :
    (enterDrainWait s).txSubsys = s.txSubsys := rfl
@[simp] theorem enterDrainWait_txCmd (s : State) :
    (enterDrainWait s).txCmd = s.txCmd := rfl
@[simp] theorem enterDrainWait_txPktlen (s : State) :
    (enterDrainWait s).txPktlen = s.txPktlen := rfl
@[simp] theorem enterDrainWait_txbuf (s : State) :
    (enterDrainWait s).txbuf = s.txbuf := rfl
@[simp] theorem enterDrainWait_cfgLenBytes (s : State) :
    (enterDrainWait s).cfgLenBytes = s.cfgLenBytes := rfl
@[simp] theorem enterDrainWait_cfgHasTransport (s : State) :
    (enterDrainWait s).cfgHasTransport = s.cfgHasTransport := rfl
@[simp] theorem enterDrainWait_inbox (s : State) :
    (enterDrainWait s).inbox = s.inbox := rfl
@[simp] theorem enterDrainWait_held (s : State) :
    (enterDrainWait s).held = s.held := rfl
@[simp] theorem enterDrainWait_answers (s : State) :
    (enterDrainWait s).answers = s.answers := rfl
@[simp] theorem enterDrainWait_draws (s : State) :
    (enterDrainWait s).draws = s.draws := rfl
@[simp] theorem enterDrainWait_outputs (s : State) :
    (enterDrainWait s).outputs = s.outputs := rfl
@[simp] theorem enterDrainWait_reportsRead (s : State) :
    (enterDrainWait s).reportsRead = s.reportsRead := rfl

/-! ## takeAnswer -/

@[simp] theorem takeAnswer_rxState (s : State) : (takeAnswer s).rxState = s.rxState := by
  unfold takeAnswer; split <;> rfl
@[simp] theorem takeAnswer_rxIdx (s : State) : (takeAnswer s).rxIdx = s.rxIdx := by
  unfold takeAnswer; split <;> rfl
@[simp] theorem takeAnswer_rxLen (s : State) : (takeAnswer s).rxLen = s.rxLen := by
  unfold takeAnswer; split <;> rfl
@[simp] theorem takeAnswer_rxType (s : State) : (takeAnswer s).rxType = s.rxType := by
  unfold takeAnswer; split <;> rfl
@[simp] theorem takeAnswer_rxSubsys (s : State) : (takeAnswer s).rxSubsys = s.rxSubsys := by
  unfold takeAnswer; split <;> rfl
@[simp] theorem takeAnswer_rxCmd (s : State) : (takeAnswer s).rxCmd = s.rxCmd := by
  unfold takeAnswer; split <;> rfl
@[simp] theorem takeAnswer_rxAcc (s : State) : (takeAnswer s).rxAcc = s.rxAcc := by
  unfold takeAnswer; split <;> rfl
@[simp] theorem takeAnswer_closed (s : State) : (takeAnswer s).closed = s.closed := by
  unfold takeAnswer; split <;> rfl
@[simp] theorem takeAnswer_rxbuf (s : State) : (takeAnswer s).rxbuf = s.rxbuf := by
  unfold takeAnswer; split <;> rfl
@[simp] theorem takeAnswer_txState (s : State) : (takeAnswer s).txState = s.txState := by
  unfold takeAnswer; split <;> rfl
@[simp] theorem takeAnswer_txTimer (s : State) : (takeAnswer s).txTimer = s.txTimer := by
  unfold takeAnswer; split <;> rfl
@[simp] theorem takeAnswer_txBp (s : State) : (takeAnswer s).txBp = s.txBp := by
  unfold takeAnswer; split <;> rfl
@[simp] theorem takeAnswer_txObs (s : State) : (takeAnswer s).txObs = s.txObs := by
  unfold takeAnswer; split <;> rfl
@[simp] theorem takeAnswer_txErrValid (s : State) : (takeAnswer s).txErrValid = s.txErrValid := by
  unfold takeAnswer; split <;> rfl
@[simp] theorem takeAnswer_txErr (s : State) : (takeAnswer s).txErr = s.txErr := by
  unfold takeAnswer; split <;> rfl
@[simp] theorem takeAnswer_txType (s : State) : (takeAnswer s).txType = s.txType := by
  unfold takeAnswer; split <;> rfl
@[simp] theorem takeAnswer_txSubsys (s : State) : (takeAnswer s).txSubsys = s.txSubsys := by
  unfold takeAnswer; split <;> rfl
@[simp] theorem takeAnswer_txCmd (s : State) : (takeAnswer s).txCmd = s.txCmd := by
  unfold takeAnswer; split <;> rfl
@[simp] theorem takeAnswer_txPktlen (s : State) : (takeAnswer s).txPktlen = s.txPktlen := by
  unfold takeAnswer; split <;> rfl
@[simp] theorem takeAnswer_txbuf (s : State) : (takeAnswer s).txbuf = s.txbuf := by
  unfold takeAnswer; split <;> rfl
@[simp] theorem takeAnswer_cfgLenBytes (s : State) : (takeAnswer s).cfgLenBytes = s.cfgLenBytes := by
  unfold takeAnswer; split <;> rfl
@[simp] theorem takeAnswer_cfgHasTransport (s : State) : (takeAnswer s).cfgHasTransport = s.cfgHasTransport := by
  unfold takeAnswer; split <;> rfl
@[simp] theorem takeAnswer_inbox (s : State) : (takeAnswer s).inbox = s.inbox := by
  unfold takeAnswer; split <;> rfl
@[simp] theorem takeAnswer_held (s : State) : (takeAnswer s).held = s.held := by
  unfold takeAnswer; split <;> rfl
@[simp] theorem takeAnswer_outputs (s : State) : (takeAnswer s).outputs = s.outputs := by
  unfold takeAnswer; split <;> rfl
@[simp] theorem takeAnswer_reportsRead (s : State) : (takeAnswer s).reportsRead = s.reportsRead := by
  unfold takeAnswer; split <;> rfl

/-! ## raiseFailure -/

@[simp] theorem raiseFailure_rxState (k : Failure) (s : State) : (raiseFailure k s).rxState = s.rxState := by
  cases k <;> rfl
@[simp] theorem raiseFailure_rxIdx (k : Failure) (s : State) : (raiseFailure k s).rxIdx = s.rxIdx := by
  cases k <;> rfl
@[simp] theorem raiseFailure_rxLen (k : Failure) (s : State) : (raiseFailure k s).rxLen = s.rxLen := by
  cases k <;> rfl
@[simp] theorem raiseFailure_rxType (k : Failure) (s : State) : (raiseFailure k s).rxType = s.rxType := by
  cases k <;> rfl
@[simp] theorem raiseFailure_rxSubsys (k : Failure) (s : State) : (raiseFailure k s).rxSubsys = s.rxSubsys := by
  cases k <;> rfl
@[simp] theorem raiseFailure_rxCmd (k : Failure) (s : State) : (raiseFailure k s).rxCmd = s.rxCmd := by
  cases k <;> rfl
@[simp] theorem raiseFailure_rxAcc (k : Failure) (s : State) : (raiseFailure k s).rxAcc = s.rxAcc := by
  cases k <;> rfl
@[simp] theorem raiseFailure_closed (k : Failure) (s : State) : (raiseFailure k s).closed = s.closed := by
  cases k <;> rfl
@[simp] theorem raiseFailure_rxbuf (k : Failure) (s : State) : (raiseFailure k s).rxbuf = s.rxbuf := by
  cases k <;> rfl
@[simp] theorem raiseFailure_txTimer (k : Failure) (s : State) : (raiseFailure k s).txTimer = s.txTimer := by
  cases k <;> rfl
@[simp] theorem raiseFailure_txBp (k : Failure) (s : State) : (raiseFailure k s).txBp = s.txBp := by
  cases k <;> rfl
@[simp] theorem raiseFailure_txErrValid (k : Failure) (s : State) : (raiseFailure k s).txErrValid = s.txErrValid := by
  cases k <;> rfl
@[simp] theorem raiseFailure_txErr (k : Failure) (s : State) : (raiseFailure k s).txErr = s.txErr := by
  cases k <;> rfl
@[simp] theorem raiseFailure_txType (k : Failure) (s : State) : (raiseFailure k s).txType = s.txType := by
  cases k <;> rfl
@[simp] theorem raiseFailure_txSubsys (k : Failure) (s : State) : (raiseFailure k s).txSubsys = s.txSubsys := by
  cases k <;> rfl
@[simp] theorem raiseFailure_txCmd (k : Failure) (s : State) : (raiseFailure k s).txCmd = s.txCmd := by
  cases k <;> rfl
@[simp] theorem raiseFailure_txPktlen (k : Failure) (s : State) : (raiseFailure k s).txPktlen = s.txPktlen := by
  cases k <;> rfl
@[simp] theorem raiseFailure_txbuf (k : Failure) (s : State) : (raiseFailure k s).txbuf = s.txbuf := by
  cases k <;> rfl
@[simp] theorem raiseFailure_cfgLenBytes (k : Failure) (s : State) : (raiseFailure k s).cfgLenBytes = s.cfgLenBytes := by
  cases k <;> rfl
@[simp] theorem raiseFailure_cfgHasTransport (k : Failure) (s : State) : (raiseFailure k s).cfgHasTransport = s.cfgHasTransport := by
  cases k <;> rfl
@[simp] theorem raiseFailure_inbox (k : Failure) (s : State) : (raiseFailure k s).inbox = s.inbox := by
  cases k <;> rfl
@[simp] theorem raiseFailure_held (k : Failure) (s : State) : (raiseFailure k s).held = s.held := by
  cases k <;> rfl
@[simp] theorem raiseFailure_answers (k : Failure) (s : State) : (raiseFailure k s).answers = s.answers := by
  cases k <;> rfl
@[simp] theorem raiseFailure_draws (k : Failure) (s : State) : (raiseFailure k s).draws = s.draws := by
  cases k <;> rfl
@[simp] theorem raiseFailure_reportsRead (k : Failure) (s : State) : (raiseFailure k s).reportsRead = s.reportsRead := by
  cases k <;> rfl

/-- What a failure emits: one DONE event with its status (60_exceptions R220). -/
def Failure.done (k : Failure) (s : State) : Done :=
  match k with
  | .invalidArgument => .invalidArgument
  | .unresolvedCommand => .unresolvedCommand
  | .timeout => .timeout
  | .transportError => .transportError s.txErr

/-- The send in flight ends with this failure (60_exceptions R240). -/
def Failure.endsSend : Failure → Bool
  | .invalidArgument | .unresolvedCommand => false
  | .timeout | .transportError => true

@[simp] theorem raiseFailure_outputs (k : Failure) (s : State) :
    (raiseFailure k s).outputs = s.outputs ++ [.done (k.done s)] := by cases k <;> rfl

@[simp] theorem raiseFailure_txState (k : Failure) (s : State) :
    (raiseFailure k s).txState = if k.endsSend then .idle else s.txState := by cases k <;> rfl

@[simp] theorem raiseFailure_txObs (k : Failure) (s : State) :
    (raiseFailure k s).txObs = if k.endsSend then false else s.txObs := by cases k <;> rfl

/-! ## takeReport -/

/-- Reading a report changes what the host has read and nothing else. -/
theorem takeReport_eq (c : BitVec 3) (s : State) : takeReport c s = { s with reportsRead := (takeReport c s).reportsRead } := by
  unfold takeReport; split <;> (try split) <;> rfl

@[simp] theorem takeReport_rxState (c : BitVec 3) (s : State) : (takeReport c s).rxState = s.rxState := by
  rw [takeReport_eq]
@[simp] theorem takeReport_rxIdx (c : BitVec 3) (s : State) : (takeReport c s).rxIdx = s.rxIdx := by
  rw [takeReport_eq]
@[simp] theorem takeReport_rxLen (c : BitVec 3) (s : State) : (takeReport c s).rxLen = s.rxLen := by
  rw [takeReport_eq]
@[simp] theorem takeReport_rxType (c : BitVec 3) (s : State) : (takeReport c s).rxType = s.rxType := by
  rw [takeReport_eq]
@[simp] theorem takeReport_rxSubsys (c : BitVec 3) (s : State) : (takeReport c s).rxSubsys = s.rxSubsys := by
  rw [takeReport_eq]
@[simp] theorem takeReport_rxCmd (c : BitVec 3) (s : State) : (takeReport c s).rxCmd = s.rxCmd := by
  rw [takeReport_eq]
@[simp] theorem takeReport_rxAcc (c : BitVec 3) (s : State) : (takeReport c s).rxAcc = s.rxAcc := by
  rw [takeReport_eq]
@[simp] theorem takeReport_closed (c : BitVec 3) (s : State) : (takeReport c s).closed = s.closed := by
  rw [takeReport_eq]
@[simp] theorem takeReport_rxbuf (c : BitVec 3) (s : State) : (takeReport c s).rxbuf = s.rxbuf := by
  rw [takeReport_eq]
@[simp] theorem takeReport_txState (c : BitVec 3) (s : State) : (takeReport c s).txState = s.txState := by
  rw [takeReport_eq]
@[simp] theorem takeReport_txTimer (c : BitVec 3) (s : State) : (takeReport c s).txTimer = s.txTimer := by
  rw [takeReport_eq]
@[simp] theorem takeReport_txBp (c : BitVec 3) (s : State) : (takeReport c s).txBp = s.txBp := by
  rw [takeReport_eq]
@[simp] theorem takeReport_txObs (c : BitVec 3) (s : State) : (takeReport c s).txObs = s.txObs := by
  rw [takeReport_eq]
@[simp] theorem takeReport_txErrValid (c : BitVec 3) (s : State) : (takeReport c s).txErrValid = s.txErrValid := by
  rw [takeReport_eq]
@[simp] theorem takeReport_txErr (c : BitVec 3) (s : State) : (takeReport c s).txErr = s.txErr := by
  rw [takeReport_eq]
@[simp] theorem takeReport_txType (c : BitVec 3) (s : State) : (takeReport c s).txType = s.txType := by
  rw [takeReport_eq]
@[simp] theorem takeReport_txSubsys (c : BitVec 3) (s : State) : (takeReport c s).txSubsys = s.txSubsys := by
  rw [takeReport_eq]
@[simp] theorem takeReport_txCmd (c : BitVec 3) (s : State) : (takeReport c s).txCmd = s.txCmd := by
  rw [takeReport_eq]
@[simp] theorem takeReport_txPktlen (c : BitVec 3) (s : State) : (takeReport c s).txPktlen = s.txPktlen := by
  rw [takeReport_eq]
@[simp] theorem takeReport_txbuf (c : BitVec 3) (s : State) : (takeReport c s).txbuf = s.txbuf := by
  rw [takeReport_eq]
@[simp] theorem takeReport_cfgLenBytes (c : BitVec 3) (s : State) : (takeReport c s).cfgLenBytes = s.cfgLenBytes := by
  rw [takeReport_eq]
@[simp] theorem takeReport_cfgHasTransport (c : BitVec 3) (s : State) : (takeReport c s).cfgHasTransport = s.cfgHasTransport := by
  rw [takeReport_eq]
@[simp] theorem takeReport_inbox (c : BitVec 3) (s : State) : (takeReport c s).inbox = s.inbox := by
  rw [takeReport_eq]
@[simp] theorem takeReport_held (c : BitVec 3) (s : State) : (takeReport c s).held = s.held := by
  rw [takeReport_eq]
@[simp] theorem takeReport_answers (c : BitVec 3) (s : State) : (takeReport c s).answers = s.answers := by
  rw [takeReport_eq]
@[simp] theorem takeReport_draws (c : BitVec 3) (s : State) : (takeReport c s).draws = s.draws := by
  rw [takeReport_eq]
@[simp] theorem takeReport_outputs (c : BitVec 3) (s : State) : (takeReport c s).outputs = s.outputs := by
  rw [takeReport_eq]

/-- What the host has read after looking for a status: the last report too, if it has that status. -/
theorem takeReport_reportsRead (c : BitVec 3) (s : State) :
    (takeReport c s).reportsRead = s.reportsRead ++ (lastDone s.outputs).toList.filter fun d => d.status = c := by
  unfold takeReport; split
  · split <;> simp [*]
  · simp [*]

/-- The report that stands on the port is the last one emitted. -/
theorem lastDone_append (os ps : List Output) : lastDone (os ++ ps) = (lastDone ps).or (lastDone os) := by
  induction os with
  | nil => simp [lastDone]
  | cons o os ih =>
    simp only [List.cons_append, lastDone, ih]
    cases lastDone ps <;> cases lastDone os <;> simp

/-- Outputs without a DONE event leave nothing on the port. -/
theorem lastDone_eq_none {os : List Output} (h : ∀ o ∈ os, o.isDone = false) : lastDone os = none := by
  induction os with
  | nil => rfl
  | cons o os ih =>
    have h1 := h o (by simp)
    have h2 := ih fun o ho => h o (by simp [ho])
    cases o <;> simp_all [lastDone, Output.isDone]

end Sys2Proof.Machine
end

