-- ==== Sys2Proof/Laws/Framer.lean ====
section
/-! SUPPORT. What one delivered byte can do, what a sequence of bytes can do, and when neither faults. -/

namespace Sys2Proof.Machine

@[simp] theorem andThen_next (s : State) (f : State → Out) : andThen (.next s) f = f s := rfl
@[simp] theorem andThen_fault (r : Fault) (f : State → Out) : andThen (.fault r) f = .fault r := rfl
@[simp] theorem andThen_refused (r : Refusal) (f : State → Out) : andThen (.refused r) f = .refused r := rfl

theorem andThen_assoc (o : Out) (f g : State → Out) :
    andThen (andThen o f) g = andThen o fun s => andThen (f s) g := by cases o <;> rfl

/-- A sequence answers a next state only if its first part did. -/
theorem andThen_eq_next {o : Out} {f : State → Out} {t : State} (h : andThen o f = .next t) :
    ∃ s, o = .next s ∧ f s = .next t := by
  cases o with
  | next s => exact ⟨s, rfl, h⟩
  | fault r => simp at h
  | refused r => simp at h

/-! ## Delivery -/

theorem rxFrom_delivered {src : Src} {s : State} (h : delivered src s = true) (b : Byte) :
    rxFrom src b s = framerStep b s := by
  simp [rxFrom, delivery, h]

/-- Delivery reads only the configuration and `closed`. -/
theorem delivered_congr {s t : State} (src : Src) (hc : t.closed = s.closed)
    (hT : t.cfgHasTransport = s.cfgHasTransport) : delivered src t = delivered src s := by
  cases src <;> simp [delivered, hc, hT]

/-! ## One byte, case by case -/

theorem rxSeekSof_sof (s : State) :
    rxSeekSof Config.sof s = { s with rxState := .readLength, rxIdx := 0#16, rxAcc := 0x00#8 } := if_pos rfl

theorem rxSeekSof_discard {b : Byte} (h : b ≠ Config.sof) (s : State) : rxSeekSof b s = s := if_neg h

/-- The only LENGTH byte of format L1. -/
theorem rxReadLength_only {s : State} (hc : s.cfgLenBytes = 0#1) (hi : s.rxIdx = 0#16) (b : Byte) :
    rxReadLength b s = { s with rxLen := b.setWidth 16, rxState := .readCmd0, rxIdx := 0#16,
                                rxAcc := absorb s.rxAcc b } := by
  simp [rxReadLength, State.lenBytes, hc, hi]

/-- The low LENGTH byte of format L2. -/
theorem rxReadLength_low {s : State} (hc : s.cfgLenBytes = 1#1) (hi : s.rxIdx = 0#16) (b : Byte) :
    rxReadLength b s = { s with rxLen := b.setWidth 16, rxIdx := 1#16, rxAcc := absorb s.rxAcc b } := by
  simp [rxReadLength, State.lenBytes, hc, hi]

/-- The high LENGTH byte of format L2. -/
theorem rxReadLength_high {s : State} (hc : s.cfgLenBytes = 1#1) (hi : s.rxIdx = 1#16) (b : Byte) :
    rxReadLength b s = { s with rxLen := le16 (loByte s.rxLen) b, rxState := .readCmd0, rxIdx := 0#16,
                                rxAcc := absorb s.rxAcc b } := by
  simp [rxReadLength, State.lenBytes, hc, hi]

theorem rxReadCmdid_empty {s : State} (h : s.rxLen = 0#16) (b : Byte) :
    rxReadCmdid b s = { s with rxCmd := b, rxState := .readFcs, rxAcc := absorb s.rxAcc b } := if_pos h

theorem rxReadCmdid_payload {s : State} (h : s.rxLen ≠ 0#16) (b : Byte) :
    rxReadCmdid b s = { s with rxCmd := b, rxState := .readPayload, rxIdx := 0#16, rxAcc := absorb s.rxAcc b } :=
  if_neg h

/-- With the framer's invariant READ_LENGTH is in one of three places. -/
theorem readLength_cases {s : State} (hok : FramerOk s) (hs : s.rxState = .readLength) :
    (s.cfgLenBytes = 0#1 ∧ s.rxIdx = 0#16) ∨ (s.cfgLenBytes = 1#1 ∧ s.rxIdx = 0#16) ∨
    (s.cfgLenBytes = 1#1 ∧ s.rxIdx = 1#16) := by
  have h := hok.lengthIndex hs
  rcases cfg_cases s.cfgLenBytes with hc | hc
  · refine .inl ⟨hc, BitVec.eq_of_toNat_eq ?_⟩
    simp only [State.lenBytes, hc] at h
    simpa using h
  · simp only [State.lenBytes, hc] at h
    have h2 : s.rxIdx.toNat = 0 ∨ s.rxIdx.toNat = 1 := by
      have : (1#1).toNat = 1 := rfl
      omega
    rcases h2 with h2 | h2
    · exact .inr (.inl ⟨hc, BitVec.eq_of_toNat_eq h2⟩)
    · exact .inr (.inr ⟨hc, BitVec.eq_of_toNat_eq h2⟩)

/-! ## One byte -/

/-- What a delivered byte leaves alone, whatever the framer's state. -/
structure FramerFrame (s t : State) : Prop where
  txc : SameTxc s t
  config : SameConfig s t
  closed : t.closed = s.closed
  inbox : t.inbox = s.inbox
  reportsRead : t.reportsRead = s.reportsRead

theorem FramerFrame.refl (s : State) : FramerFrame s s := by
  constructor <;> (try constructor) <;> rfl

theorem FramerFrame.trans {s t u : State} (h : FramerFrame s t) (k : FramerFrame t u) : FramerFrame s u := by
  obtain ⟨⟨h1, h2, h3, h4, h5, h6, h7, h8, h9, h10, h11, h12, h13, h14⟩, ⟨h15, h16⟩, h17, h18, h19⟩ := h
  obtain ⟨⟨k1, k2, k3, k4, k5, k6, k7, k8, k9, k10, k11, k12, k13, k14⟩, ⟨k15, k16⟩, k17, k18, k19⟩ := k
  exact ⟨⟨k1.trans h1, k2.trans h2, k3.trans h3, k4.trans h4, k5.trans h5, k6.trans h6, k7.trans h7, k8.trans h8,
    k9.trans h9, k10.trans h10, k11.trans h11, k12.trans h12, k13.trans h13, k14.trans h14⟩,
    ⟨k15.trans h15, k16.trans h16⟩, k17.trans h17, k18.trans h18, k19.trans h19⟩

/-- Everything a delivered byte can do: one case per framer state (41_framer R165). -/
theorem framerStep_cases {b : Byte} {s t : State} (h : framerStep b s = .next t) :
    (s.rxState = .seekSof ∧ t = rxSeekSof b s) ∨ (s.rxState = .readLength ∧ t = rxReadLength b s) ∨
    (s.rxState = .readCmd0 ∧ t = rxReadCmd0 b s) ∨ (s.rxState = .readCmdid ∧ t = rxReadCmdid b s) ∨
    (s.rxState = .readPayload ∧ s.rxIdx.toNat < Config.rxbufSize ∧
      ((s.rxIdx.toNat + 1 = s.rxLen.toNat ∧
        t = { s with rxbuf := s.rxbuf.write s.rxIdx.toNat b, rxAcc := absorb s.rxAcc b, rxState := .readFcs }) ∨
       (s.rxIdx.toNat + 1 ≠ s.rxLen.toNat ∧
        t = { s with rxbuf := s.rxbuf.write s.rxIdx.toNat b, rxAcc := absorb s.rxAcc b,
                     rxIdx := s.rxIdx + 1#16 }))) ∨
    (s.rxState = .readFcs ∧ t = rxReadFcs b s) := by
  unfold framerStep at h
  split at h
  · next hs => simp only [Host.Outcome.next.injEq] at h; exact .inl ⟨hs, h.symm⟩
  · next hs => simp only [Host.Outcome.next.injEq] at h; exact .inr (.inl ⟨hs, h.symm⟩)
  · next hs => simp only [Host.Outcome.next.injEq] at h; exact .inr (.inr (.inl ⟨hs, h.symm⟩))
  · next hs => simp only [Host.Outcome.next.injEq] at h; exact .inr (.inr (.inr (.inl ⟨hs, h.symm⟩)))
  · next hs =>
    refine .inr (.inr (.inr (.inr (.inl ?_))))
    unfold rxReadPayload at h
    by_cases hi : s.rxIdx.toNat < Config.rxbufSize
    · by_cases hl : s.rxIdx.toNat + 1 = s.rxLen.toNat
      · simp only [hi, hl, if_true, Host.Outcome.next.injEq] at h
        exact ⟨hs, hi, .inl ⟨hl, h.symm⟩⟩
      · simp only [hi, hl, if_true, if_false, Host.Outcome.next.injEq] at h
        exact ⟨hs, hi, .inr ⟨hl, h.symm⟩⟩
    · simp [hi] at h
  · next hs =>
    simp only [Host.Outcome.next.injEq] at h
    exact .inr (.inr (.inr (.inr (.inr ⟨hs, h.symm⟩))))

/-- A delivered byte leaves the transmit side, the configuration and the environment alone. -/
theorem framerStep_frame {b : Byte} {s t : State} (h : framerStep b s = .next t) : FramerFrame s t := by
  rcases framerStep_cases h with ⟨-, rfl⟩ | ⟨-, rfl⟩ | ⟨-, rfl⟩ | ⟨-, rfl⟩ | ⟨-, -, ⟨-, rfl⟩ | ⟨-, rfl⟩⟩ | ⟨-, rfl⟩
  · unfold rxSeekSof; split <;> (constructor <;> (try constructor) <;> rfl)
  · unfold rxReadLength; dsimp only; split <;> (constructor <;> (try constructor) <;> rfl)
  · constructor <;> (try constructor) <;> rfl
  · unfold rxReadCmdid; split <;> (constructor <;> (try constructor) <;> rfl)
  · constructor <;> (try constructor) <;> rfl
  · constructor <;> (try constructor) <;> rfl
  · constructor <;> (try constructor) <;> rfl

/-- A delivered byte emits nothing, but for READ_FCS, which emits one record (41_framer R150). -/
theorem framerStep_outputs {b : Byte} {s t : State} (h : framerStep b s = .next t) :
    t.outputs = s.outputs ++ if s.rxState = .readFcs then [.data (rxRecord b s)] else [] := by
  rcases framerStep_cases h with ⟨hs, rfl⟩ | ⟨hs, rfl⟩ | ⟨hs, rfl⟩ | ⟨hs, rfl⟩ | ⟨hs, -, ⟨-, rfl⟩ | ⟨-, rfl⟩⟩ | ⟨hs, rfl⟩
  · unfold rxSeekSof; split <;> simp [hs]
  · unfold rxReadLength; dsimp only; split <;> simp [hs]
  · simp [hs, rxReadCmd0]
  · unfold rxReadCmdid; split <;> simp [hs]
  · simp [hs]
  · simp [hs]
  · simp [hs, rxReadFcs, rxRecord, rxCsum, rxPayload]

/-- A delivered byte is never refused. -/
theorem framerStep_not_refused (b : Byte) (s : State) (r : Refusal) : framerStep b s ≠ .refused r := by
  unfold framerStep rxReadPayload
  split <;> (try split_ifs) <;> simp

/-- Where the counters are in range a delivered byte has a next state. -/
theorem framerStep_completes {s : State} (b : Byte)
    (h : s.rxState = .readPayload → s.rxIdx.toNat < s.rxLen.toNat) : ∃ t, framerStep b s = .next t := by
  have hl := s.rxLen.isLt
  cases hs : s.rxState <;> simp only [framerStep, hs] <;> try exact ⟨_, rfl⟩
  have hi : s.rxIdx.toNat < Config.rxbufSize := by have := h hs; simp only [Config.rxbufSize]; omega
  unfold rxReadPayload
  simp only [hi, if_true]
  split_ifs <;> exact ⟨_, rfl⟩

/-- A delivered byte keeps the framer's invariant. -/
theorem framerStep_keeps_ok {b : Byte} {s t : State} (hok : FramerOk s) (h : framerStep b s = .next t) :
    FramerOk t := by
  obtain ⟨hl, hp, hsh, hcl⟩ := hok
  have hb := b.isLt
  have hlen := s.rxLen.isLt
  rcases framerStep_cases h with ⟨hs, rfl⟩ | ⟨hs, rfl⟩ | ⟨hs, rfl⟩ | ⟨hs, rfl⟩ | ⟨hs, hi, ⟨hn, rfl⟩ | ⟨hn, rfl⟩⟩ | ⟨hs, rfl⟩
  · unfold rxSeekSof; split
    · exact ⟨fun _ => by simp [State.lenBytes], fun h => by simp at h, hsh, hcl⟩
    · exact ⟨hl, hp, hsh, hcl⟩
  · have hshort : s.cfgLenBytes = 0#1 →
        (if s.rxIdx = 0#16 then b.setWidth 16 else le16 (loByte s.rxLen) b).toNat < 256 := by
      intro hc
      have h1 := hl hs
      have h0 : s.rxIdx = 0#16 := by
        apply BitVec.eq_of_toNat_eq
        simp only [State.lenBytes, hc] at h1
        simpa using h1
      simp only [h0, if_true, BitVec.toNat_setWidth]
      omega
    unfold rxReadLength; dsimp only
    split_ifs with h1 h2 h2
    · exact ⟨fun h => by simp at h, fun h => by simp at h, fun hc => by simpa [h2] using hshort hc, hcl⟩
    · exact ⟨fun h => by simp at h, fun h => by simp at h, fun hc => by simpa [h2] using hshort hc, hcl⟩
    · refine ⟨fun _ => ?_, fun h => by simp [hs] at h, fun hc => by simpa [h2] using hshort hc, hcl⟩
      have h3 := hl hs
      simp only [State.lenBytes] at h1 h3 ⊢
      have := s.cfgLenBytes.isLt
      simp only [BitVec.toNat_ofNat]; omega
    · refine ⟨fun _ => ?_, fun h => by simp [hs] at h, fun hc => by simpa [h2] using hshort hc, hcl⟩
      have h3 := hl hs
      simp only [State.lenBytes] at h1 h3 ⊢
      have := s.cfgLenBytes.isLt
      simp only [BitVec.toNat_ofNat]; omega
  · exact ⟨fun h => by simp [rxReadCmd0] at h, fun h => by simp [rxReadCmd0] at h, hsh, hcl⟩
  · unfold rxReadCmdid; split
    · exact ⟨fun h => by simp at h, fun h => by simp at h, hsh, hcl⟩
    · next h0 =>
      refine ⟨fun h => by simp at h, fun _ => ?_, hsh, hcl⟩
      have : s.rxLen.toNat ≠ 0 := fun h => h0 (BitVec.eq_of_toNat_eq (by simpa using h))
      simpa using Nat.pos_of_ne_zero this
  · exact ⟨fun h => by simp at h, fun h => by simp at h, hsh, hcl⟩
  · refine ⟨fun h => by simp [hs] at h, fun _ => ?_, hsh, hcl⟩
    have h1 := hp hs
    simp only [BitVec.toNat_add, BitVec.toNat_ofNat]; omega
  · exact ⟨fun h => by simp [rxReadFcs] at h, fun h => by simp [rxReadFcs] at h, hsh, hcl⟩

/-! ## Sequences of bytes -/

@[simp] theorem feedFrom_nil (src : Src) (s : State) : feedFrom src [] s = .next s := rfl

theorem feedFrom_cons (src : Src) (b : Byte) (bs : Bytes) (s : State) :
    feedFrom src (b :: bs) s = andThen (rxFrom src b s) (feedFrom src bs) := rfl

/-- Bytes offered in two parts. -/
theorem feedFrom_append (src : Src) (a c : Bytes) (s : State) :
    feedFrom src (a ++ c) s = andThen (feedFrom src a s) (feedFrom src c) := by
  induction a generalizing s with
  | nil => rfl
  | cons b a ih =>
    simp only [List.cons_append, feedFrom_cons, andThen_assoc]
    congr 1; funext u; exact ih u

/-- The first byte of a delivered sequence. -/
theorem feedFrom_cons_delivered {src : Src} {s : State} (h : delivered src s = true) (b : Byte) (bs : Bytes) :
    feedFrom src (b :: bs) s = andThen (framerStep b s) (feedFrom src bs) := by
  rw [feedFrom_cons, rxFrom_delivered h]

/-- Delivery goes on through a delivered sequence. -/
theorem delivered_of_frame {src : Src} {s t : State} (h : FramerFrame s t) : delivered src t = delivered src s :=
  delivered_congr src h.closed h.config.hasTransport

/-- An offered byte that has a next state: delivered, or dropped without effect. -/
theorem rxFrom_cases {src : Src} {b : Byte} {s t : State} (h : rxFrom src b s = .next t) :
    (delivered src s = true ∧ framerStep b s = .next t) ∨
      (src = .transport ∧ s.cfgHasTransport = true ∧ s.closed = true ∧ t = s) := by
  by_cases hd : delivered src s = true
  · rw [rxFrom_delivered hd] at h; exact .inl ⟨hd, h⟩
  · refine .inr ?_
    cases src
    · by_cases hT : s.cfgHasTransport = true
      · simp [rxFrom, delivery, hd, hT] at h
        simp [delivered, hT] at hd
        exact ⟨rfl, hT, hd, h.symm⟩
      · simp [rxFrom, delivery, hd, hT] at h
    · simp [rxFrom, delivery, hd] at h

/-- A sequence of offered bytes leaves the transmit side, the configuration and the environment alone and keeps the framer's
invariant. -/
theorem feedFrom_frame {src : Src} {bs : Bytes} {s t : State} (h : feedFrom src bs s = .next t) : FramerFrame s t := by
  induction bs generalizing s with
  | nil => simp only [feedFrom_nil, Host.Outcome.next.injEq] at h; subst h; exact FramerFrame.refl s
  | cons b bs ih =>
    obtain ⟨u, hu, ht⟩ := andThen_eq_next h
    rcases rxFrom_cases hu with ⟨-, hf⟩ | ⟨-, -, -, rfl⟩
    · exact (framerStep_frame hf).trans (ih ht)
    · exact ih ht

theorem feedFrom_keeps_ok {src : Src} {bs : Bytes} {s t : State} (hok : FramerOk s)
    (h : feedFrom src bs s = .next t) : FramerOk t := by
  induction bs generalizing s with
  | nil => simp only [feedFrom_nil, Host.Outcome.next.injEq] at h; subst h; exact hok
  | cons b bs ih =>
    obtain ⟨u, hu, ht⟩ := andThen_eq_next h
    rcases rxFrom_cases hu with ⟨-, hf⟩ | ⟨-, -, -, rfl⟩
    · exact ih (framerStep_keeps_ok hok hf) ht
    · exact ih hok ht

/-- A delivered sequence has a next state. -/
theorem feedFrom_completes {src : Src} (bs : Bytes) {s : State} (hok : FramerOk s) (hd : delivered src s = true) :
    ∃ t, feedFrom src bs s = .next t := by
  induction bs generalizing s with
  | nil => exact ⟨s, rfl⟩
  | cons b bs ih =>
    obtain ⟨u, hu⟩ := framerStep_completes b hok.payloadIndex
    rw [feedFrom_cons_delivered hd, hu]
    exact ih (framerStep_keeps_ok hok hu) (by rw [delivered_of_frame (framerStep_frame hu), hd])

end Sys2Proof.Machine
end

