-- ==== Sys2Proof/Laws/Txc.lean ====
section
/-! SUPPORT. Everything the Transmit Controller's meanings can do, one inversion lemma each, and what they leave alone. -/

namespace Sys2Proof.Machine

/-- What an event of the Transmit Controller leaves alone. -/
structure TxcFrame (s t : State) : Prop where
  framer : SameFramer s t
  config : SameConfig s t
  inbox : t.inbox = s.inbox
  reportsRead : t.reportsRead = s.reportsRead

theorem TxcFrame.refl (s : State) : TxcFrame s s := by
  constructor <;> (try constructor) <;> rfl

/-- The end of a send by acknowledgment: the captured error, or success. -/
theorem finish_cases {s t : State} (h : finish s = .next t) :
    (s.txErrValid = true ∧ t = raiseFailure .transportError s) ∨
    (s.txErrValid = false ∧ s.txPktlen.toNat ≤ 65541 ∧
      t = emit [.flushed s.txType s.txSubsys s.txCmd, .done (.ok (s.txbuf.readRange 0 s.txPktlen.toNat))]
            (release s)) := by
  unfold finish succeed at h
  split_ifs at h with h1 h2
  · simp only [Host.Outcome.next.injEq] at h; exact .inl ⟨h1, h.symm⟩
  · simp only [Host.Outcome.next.injEq] at h
    exact .inr ⟨by simpa using h1, h2, h.symm⟩

/-- Everything SEND can answer with a next state. -/
theorem execSend_cases {d : SendDesc} {s t : State} (h : execSend d s = .next t) :
    (s.txState ≠ .idle ∧ t = hold d s) ∨
    (s.txState = .idle ∧ admitted d s = true ∧ argsOk d = false ∧ t = raiseFailure .invalidArgument s) ∨
    (s.txState = .idle ∧ admitted d s = true ∧ argsOk d = true ∧ 7 < d.type.toNat ∧
      t = raiseFailure .unresolvedCommand s) ∨
    (s.txState = .idle ∧ admitted d s = true ∧ argsOk d = true ∧ d.type.toNat ≤ 7 ∧ s.cfgHasTransport = true ∧
      t = sendWrite d (BitVec.ofNat 3 d.type.toNat) s) ∨
    (s.txState = .idle ∧ admitted d s = true ∧ argsOk d = true ∧ d.type.toNat ≤ 7 ∧ s.cfgHasTransport = false ∧
      t = sendEncodeOnly d (BitVec.ofNat 3 d.type.toNat) s) := by
  unfold execSend at h
  by_cases h1 : s.txState = .idle
  · by_cases h2 : admitted d s = true
    · by_cases h3 : argsOk d = true
      · by_cases h4 : d.type.toNat ≤ 7
        · by_cases h5 : s.cfgHasTransport = true
          · simp [h1, h2, h3, h4, h5, resolveType] at h
            exact .inr (.inr (.inr (.inl ⟨h1, h2, h3, h4, h5, by simpa using h.symm⟩)))
          · simp [h1, h2, h3, h4, h5, resolveType] at h
            exact .inr (.inr (.inr (.inr ⟨h1, h2, h3, h4, by simpa using h5, by simpa using h.symm⟩)))
        · simp [h1, h2, h3, h4, resolveType] at h
          exact .inr (.inr (.inl ⟨h1, h2, h3, by omega, h.symm⟩))
      · simp [h1, h2, h3] at h
        exact .inr (.inl ⟨h1, h2, by simpa using h3, h.symm⟩)
    · simp [h1, h2] at h
  · simp [h1] at h
    exact .inl ⟨h1, h.symm⟩

/-- Everything WRACK can answer with a next state. -/
theorem execWrack_cases {s t : State} (h : execWrack s = .next t) :
    (s.txState ≠ .waitWrack ∧ t = s) ∨ (s.txState = .waitWrack ∧ s.txBp = true ∧ t = enterDrainWait s) ∨
    (s.txState = .waitWrack ∧ s.txBp = false ∧ finish s = .next t) := by
  unfold execWrack at h
  split at h
  · next hs =>
    split_ifs at h with hb
    · simp only [Host.Outcome.next.injEq] at h; exact .inr (.inl ⟨hs, hb, h.symm⟩)
    · exact .inr (.inr ⟨hs, by simpa using hb, h⟩)
  · next hs => simp only [Host.Outcome.next.injEq] at h; exact .inl ⟨by simp [hs], h.symm⟩
  · next hs => simp only [Host.Outcome.next.injEq] at h; exact .inl ⟨by simp [hs], h.symm⟩

/-- Everything DRAIN can answer with a next state. -/
theorem execDrain_cases {s t : State} (h : execDrain s = .next t) :
    (s.txState ≠ .waitDrain ∧ t = s) ∨ (s.txState = .waitDrain ∧ finish s = .next t) := by
  unfold execDrain at h
  split at h
  · next hs => exact .inr ⟨hs, h⟩
  · next hs => simp only [Host.Outcome.next.injEq] at h; exact .inl ⟨by simp [hs], h.symm⟩
  · next hs => simp only [Host.Outcome.next.injEq] at h; exact .inl ⟨by simp [hs], h.symm⟩

/-- Everything TERR can do. -/
theorem execTerr_cases {e : Byte} {s t : State} (h : execTerr e s = .next t) :
    (s.txObs = false ∧ t = s) ∨ (s.txObs = true ∧ t = captureError e s) := by
  unfold execTerr at h
  split_ifs at h with ho
  · simp only [Host.Outcome.next.injEq] at h; exact .inr ⟨ho, h.symm⟩
  · simp only [Host.Outcome.next.injEq] at h; exact .inl ⟨by simpa using ho, h.symm⟩

/-- Everything TICK can do. -/
theorem execTick_cases {s t : State} (h : execTick s = .next t) :
    (s.txState = .idle ∧ t = s) ∨
    (s.txState ≠ .idle ∧ 2 ≤ s.txTimer.toNat ∧ t = { s with txTimer := s.txTimer - 1#11 }) ∨
    (s.txState ≠ .idle ∧ s.txTimer.toNat < 2 ∧ t = raiseFailure .timeout s) := by
  unfold execTick at h
  split at h
  · next hs => simp only [Host.Outcome.next.injEq] at h; exact .inl ⟨hs, h.symm⟩
  all_goals
    next hs =>
    split_ifs at h with ht
    · simp only [Host.Outcome.next.injEq] at h; exact .inr (.inl ⟨by simp [hs], ht, h.symm⟩)
    · simp only [Host.Outcome.next.injEq] at h; exact .inr (.inr ⟨by simp [hs], by omega, h.symm⟩)

/-- Everything CLOSE can answer with a next state. -/
theorem execClose_cases {s t : State} (h : execClose s = .next t) :
    s.cfgHasTransport = true ∧ s.closed = false ∧ t = detach s := by
  unfold execClose at h
  split_ifs at h with h1 h2
  simp only [Host.Outcome.next.injEq] at h
  exact ⟨by simpa using h1, by simpa using h2, h.symm⟩

/-! ## Frames -/

theorem raiseFailure_frame (k : Failure) (s : State) : TxcFrame s (raiseFailure k s) := by
  constructor <;> (try constructor) <;> simp

theorem sendWrite_frame (d : SendDesc) (c : BitVec 3) (s : State) : TxcFrame s (sendWrite d c s) := by
  constructor <;> (try constructor) <;> simp [sendWrite]

theorem finish_frame {s t : State} (h : finish s = .next t) : TxcFrame s t := by
  rcases finish_cases h with ⟨-, rfl⟩ | ⟨-, -, rfl⟩
  · exact raiseFailure_frame _ s
  · constructor <;> (try constructor) <;> rfl

theorem execSend_frame {d : SendDesc} {s t : State} (h : execSend d s = .next t) : TxcFrame s t := by
  rcases execSend_cases h with ⟨-, rfl⟩ | ⟨-, -, -, rfl⟩ | ⟨-, -, -, -, rfl⟩ | ⟨-, -, -, -, -, rfl⟩ |
    ⟨-, -, -, -, -, rfl⟩
  · constructor <;> (try constructor) <;> rfl
  · exact raiseFailure_frame _ s
  · exact raiseFailure_frame _ s
  · exact sendWrite_frame _ _ s
  · constructor <;> (try constructor) <;> rfl

theorem execWrack_frame {s t : State} (h : execWrack s = .next t) : TxcFrame s t := by
  rcases execWrack_cases h with ⟨-, rfl⟩ | ⟨-, -, rfl⟩ | ⟨-, -, hf⟩
  · exact TxcFrame.refl _
  · constructor <;> (try constructor) <;> rfl
  · exact finish_frame hf

theorem execDrain_frame {s t : State} (h : execDrain s = .next t) : TxcFrame s t := by
  rcases execDrain_cases h with ⟨-, rfl⟩ | ⟨-, hf⟩
  · exact TxcFrame.refl _
  · exact finish_frame hf

theorem execTerr_frame {e : Byte} {s t : State} (h : execTerr e s = .next t) : TxcFrame s t := by
  rcases execTerr_cases h with ⟨-, rfl⟩ | ⟨-, rfl⟩
  · exact TxcFrame.refl _
  · constructor <;> (try constructor) <;> rfl

theorem execTick_frame {s t : State} (h : execTick s = .next t) : TxcFrame s t := by
  rcases execTick_cases h with ⟨-, rfl⟩ | ⟨-, -, rfl⟩ | ⟨-, -, rfl⟩
  · exact TxcFrame.refl _
  · constructor <;> (try constructor) <;> rfl
  · exact raiseFailure_frame _ s

/-- Everything a status row can do: the host reads a report or not, and nothing else changes. -/
theorem statusRow_cases {i : Instr} {s t : State}
    (hi : i = .doneOk ∨ i = .doneInvalidArgument ∨ i = .doneUnresolvedCommand ∨ i = .doneTimeout ∨
      i = .doneTransportError) (h : exec i s = .next t) : ∃ ds, t = { s with reportsRead := ds } := by
  rcases hi with rfl | rfl | rfl | rfl | rfl
  all_goals
    simp only [exec, execDoneOk, execDoneInvalidArgument, execDoneUnresolvedCommand, execDoneTimeout,
      execDoneTransportError, Host.Outcome.next.injEq] at h
    exact ⟨t.reportsRead, by rw [← h]; exact takeReport_eq _ _⟩

end Sys2Proof.Machine
end

