-- ==== Sys2Proof/Laws/Step.lean ====
section
/-! SUPPORT. What a step can do: the cases of `nextWork`, and each instruction as an event of the framer, of the transmit
controller, CLOSE, or a status report. -/

namespace Sys2Proof.Machine

/-! ## Which word is taken -/

/-- A held SEND is taken in an idle controller. -/
theorem heldOr_ready {s : State} {d : SendDesc} {ds : List SendDesc} (hi : s.txState = .idle) (hh : s.held = d :: ds)
    (other : Work) : heldOr s other = .heldSend d { s with held := ds } := by
  simp [heldOr, hi, hh]

/-- With no SEND held, or a busy controller, the other work is done. -/
theorem heldOr_other {s : State} (h : s.held = [] ∨ s.txState ≠ .idle) (other : Work) : heldOr s other = other := by
  unfold heldOr
  split
  · next hd => rcases h with h | h <;> simp_all
  · rfl

/-- `takeFirst` takes one of the words and leaves the others. -/
theorem takeFirst_perm (w : PortWord) (ws : List PortWord) :
    ((takeFirst w ws).1 :: (takeFirst w ws).2).Perm (w :: ws) := by
  induction ws generalizing w with
  | nil => exact List.Perm.refl _
  | cons v vs ih =>
    unfold takeFirst
    split_ifs
    · exact List.Perm.refl _
    · exact (List.Perm.swap _ _ _).trans (List.Perm.cons _ (ih v))

/-- `takeFirst` takes a word that none of the others goes before. -/
theorem takeFirst_le (w : PortWord) (ws : List PortWord) :
    ∀ u ∈ (takeFirst w ws).2, priority (takeFirst w ws).1 ≤ priority u := by
  induction ws generalizing w with
  | nil => simp [takeFirst]
  | cons v vs ih =>
    intro u hu
    unfold takeFirst at hu ⊢
    split_ifs at hu ⊢ with h
    · rcases List.mem_cons.1 ((takeFirst_perm v vs).symm.subset hu) with rfl | h2
      · exact h
      · exact le_trans h (ih v u h2)
    · rcases List.mem_cons.1 hu with rfl | h2
      · exact Nat.le_of_lt (Nat.lt_of_not_le h)
      · exact ih v u h2

/-! ## What a step has done -/

/-- Everything a step that answers a next state has done: nothing but bookkeeping of the offers, a construction, or one
instruction's meaning in a state that differs only in `inbox` and `held`. -/
theorem step_cases {s t : State} (h : step s = .next t) :
    (∃ ib hd, t = { s with inbox := ib, held := hd }) ∨
    (∃ lb ht ib, construct lb ht { s with inbox := ib } = .next t) ∨
    (∃ i ib hd, exec i { s with inbox := ib, held := hd } = .next t) := by
  have hheld : ∀ other : Work, runWork s (heldOr s other) = .next t →
      (∃ i ib hd, exec i { s with inbox := ib, held := hd } = .next t) ∨ runWork s other = .next t := by
    intro other ho
    unfold heldOr at ho
    split at ho
    · next d ds _ =>
      split_ifs at ho with hi
      · exact .inl ⟨.send d, s.inbox, ds, ho⟩
      · exact .inr ho
    · exact .inr ho
  have hword : ∀ (w : PortWord) (ib : List Slot), runWork s (.word w { s with inbox := ib }) = .next t →
      ∃ i ib hd, exec i { s with inbox := ib, held := hd } = .next t := by
    intro w ib hw
    simp only [runWork] at hw
    split at hw
    · next i _ => exact ⟨i, ib, s.held, hw⟩
    · simp at hw
  unfold step nextWork at h
  split at h
  · rcases hheld _ h with h | h
    · exact .inr (.inr h)
    · simp only [runWork, Host.Outcome.next.injEq] at h; exact .inl ⟨s.inbox, s.held, h.symm⟩
  · next lb ht rest _ => exact .inr (.inl ⟨lb, ht, rest, h⟩)
  · next rest _ =>
    rcases hheld _ h with h | h
    · exact .inr (.inr h)
    · simp only [runWork, Host.Outcome.next.injEq] at h; exact .inl ⟨rest, s.held, h.symm⟩
  · next w ws rest _ =>
    dsimp only at h
    split_ifs at h with hp
    · rcases hheld _ h with h | h
      · exact .inr (.inr h)
      · exact .inr (.inr (hword _ _ h))
    · exact .inr (.inr (hword _ _ h))

/-- Every instruction's meaning is one of: bytes offered to the framer, a RECEIVE of no byte sequence, an event of the
transmit controller, CLOSE, or a status report. -/
theorem exec_shape (i : Instr) (s : State) :
    (∃ src bs, exec i s = feedFrom src bs s) ∨ (∃ a, i = .receive a) ∨ isTxcEvent i = true ∨ i = .close ∨
    (i = .doneOk ∨ i = .doneInvalidArgument ∨ i = .doneUnresolvedCommand ∨ i = .doneTimeout ∨
      i = .doneTransportError) := by
  cases i <;> simp [isTxcEvent]
  case rxbyte src b =>
    refine ⟨src, [b], ?_⟩
    simp only [exec, execRxbyte, feedFrom_cons]
    cases rxFrom src b s <;> rfl
  all_goals exact ⟨_, _, rfl⟩

/-! ## Scripts -/

@[simp] theorem runEvents_nil (s : State) : runEvents [] s = .next s := rfl

theorem runEvents_cons (i : Instr) (is : List Instr) (s : State) :
    runEvents (i :: is) s = andThen (exec i s) (runEvents is) := rfl

/-- A script in two parts. -/
theorem runEvents_append (is js : List Instr) (s : State) :
    runEvents (is ++ js) s = andThen (runEvents is s) (runEvents js) := by
  induction is generalizing s with
  | nil => rfl
  | cons i is ih =>
    simp only [List.cons_append, runEvents_cons, andThen_assoc]
    congr 1; funext u; exact ih u

/-- One RXBYTE per byte is the sequence of the bytes. -/
theorem runEvents_rxbytes (src : Src) (bs : Bytes) (s : State) :
    runEvents (bs.map (Instr.rxbyte src)) s = feedFrom src bs s := by
  induction bs generalizing s with
  | nil => rfl
  | cons b bs ih =>
    rw [List.map_cons, runEvents_cons, feedFrom_cons]
    show andThen (rxFrom src b s) _ = _
    congr 1; funext u; exact ih u

end Sys2Proof.Machine
end

