-- ==== Sys2Proof/Laws/Invariant.lean ====
section
/-! SUPPORT. The shape of an invariant's proof, once: what `step`, the framer's instructions and the controller's instructions
keep, given that the single writes keep it. -/

namespace Sys2Proof.Machine

/-- A construction leaves the reset state, with a configuration and the surroundings it had. -/
theorem construct_cases {lb : Option Nat} {ht : Bool} {s t : State} (h : construct lb ht s = .next t) :
    ∃ c, t = { State.reset with
      cfgLenBytes := c, cfgHasTransport := ht,
      inbox := s.inbox, held := s.held, answers := s.answers, draws := s.draws, outputs := s.outputs,
      reportsRead := s.reportsRead } := by
  unfold construct at h
  split at h
  · simp only [Host.Outcome.next.injEq] at h; exact ⟨_, h.symm⟩
  · simp at h

/-- A step keeps what does not read the offers, holds after a construction, and is kept by every instruction. -/
theorem step_keeps {P : State → Prop} (hoffers : ∀ s ib hd, P s → P { s with inbox := ib, held := hd })
    (hconstruct : ∀ lb ht s t, construct lb ht s = .next t → P t)
    (hexec : ∀ i s t, P s → exec i s = .next t → P t) {s t : State} (hs : P s) (h : step s = .next t) : P t := by
  rcases step_cases h with ⟨ib, hd, rfl⟩ | ⟨lb, ht, ib, h⟩ | ⟨i, ib, hd, h⟩
  · exact hoffers _ _ _ hs
  · exact hconstruct _ _ _ _ h
  · exact hexec _ _ _ (hoffers _ _ _ hs) h

/-- A sequence of bytes keeps what one delivered byte keeps. -/
theorem feedFrom_keeps {P : State → Prop} (hbyte : ∀ b s t, P s → framerStep b s = .next t → P t) {src : Src} {bs : Bytes}
    {s t : State} (hs : P s) (h : feedFrom src bs s = .next t) : P t := by
  induction bs generalizing s with
  | nil => simp only [feedFrom_nil, Host.Outcome.next.injEq] at h; exact h ▸ hs
  | cons b bs ih =>
    obtain ⟨u, hu, ht⟩ := andThen_eq_next h
    rcases rxFrom_cases hu with ⟨-, hf⟩ | ⟨-, -, -, rfl⟩
    · exact ih (hbyte _ _ _ hs hf) ht
    · exact ih hs ht

/-- An instruction keeps what reads only the framer's registers and the configuration, if a delivered byte and CLOSE do. -/
theorem exec_keeps_of_framer {P : State → Prop} (hbyte : ∀ b s t, P s → framerStep b s = .next t → P t)
    (hframe : ∀ s t, SameFramer s t → SameConfig s t → P s → P t)
    (hclose : ∀ s, s.cfgHasTransport = true → P s → P (detach s)) (i : Instr) (s t : State) (hs : P s)
    (h : exec i s = .next t) : P t := by
  rcases exec_shape i s with ⟨src, bs, e⟩ | ⟨a, rfl⟩ | hx | rfl | hd
  · rw [e] at h; exact feedFrom_keeps hbyte hs h
  · simp only [exec, execReceive] at h
    split_ifs at h
    · simp only [Host.Outcome.next.injEq] at h
      subst h
      exact hframe _ _ (raiseFailure_frame _ s).framer (raiseFailure_frame _ s).config hs
    · exact feedFrom_keeps hbyte hs h
  · have hfr : TxcFrame s t := by
      cases i <;> simp only [isTxcEvent, Bool.false_eq_true] at hx
      · exact execSend_frame h
      · exact execWrack_frame h
      · exact execDrain_frame h
      · exact execTerr_frame h
      · exact execTick_frame h
    exact hframe _ _ hfr.framer hfr.config hs
  · obtain ⟨h1, -, rfl⟩ := execClose_cases h
    exact hclose _ h1 hs
  · obtain ⟨ds, rfl⟩ := statusRow_cases hd h
    exact hframe _ _ (by constructor <;> rfl) (by constructor <;> rfl) hs

/-- An instruction keeps what reads only the controller's registers and the configuration, if each single write of the
controller does. -/
theorem exec_keeps_of_txc {P : State → Prop} (hframe : ∀ s t, SameTxc s t → SameConfig s t → P s → P t)
    (hemit : ∀ os s, P s → P (emit os s)) (hrelease : ∀ s, P s → P (release s)) (hhold : ∀ d s, P s → P (hold d s))
    (hwrite : ∀ d s, P s → s.txState = .idle → admitted d s = true → s.cfgHasTransport = true →
      P (sendWrite d (BitVec.ofNat 3 d.type.toNat) s))
    (hdrain : ∀ s, P s → s.txState = .waitWrack → s.txBp = true → P (enterDrainWait s))
    (hcapture : ∀ e s, P s → s.txObs = true → P (captureError e s))
    (htick : ∀ s, P s → s.txState ≠ .idle → 2 ≤ s.txTimer.toNat → P { s with txTimer := s.txTimer - 1#11 })
    (i : Instr) (s t : State) (hs : P s) (h : exec i s = .next t) : P t := by
  have hraise : ∀ k s, P s → P (raiseFailure k s) := by
    intro k s h
    cases k <;> simp only [raiseFailure] <;> first | exact hemit _ _ h | exact hemit _ _ (hrelease _ h)
  have hfin : ∀ s t, P s → finish s = .next t → P t := by
    intro s t hs h
    rcases finish_cases h with ⟨-, rfl⟩ | ⟨-, -, rfl⟩
    · exact hraise _ _ hs
    · exact hemit _ _ (hrelease _ hs)
  rcases exec_shape i s with ⟨src, bs, e⟩ | ⟨a, rfl⟩ | hx | rfl | hd
  · rw [e] at h; exact hframe _ _ (feedFrom_frame h).txc (feedFrom_frame h).config hs
  · simp only [exec, execReceive] at h
    split_ifs at h
    · simp only [Host.Outcome.next.injEq] at h; subst h; exact hraise _ _ hs
    · exact hframe _ _ (feedFrom_frame h).txc (feedFrom_frame h).config hs
  · cases i <;> simp only [isTxcEvent, Bool.false_eq_true] at hx
    · rcases execSend_cases h with ⟨-, rfl⟩ | ⟨-, -, -, rfl⟩ | ⟨-, -, -, -, rfl⟩ | ⟨h1, h2, -, -, h3, rfl⟩ |
        ⟨-, -, -, -, -, rfl⟩
      · exact hhold _ _ hs
      · exact hraise _ _ hs
      · exact hraise _ _ hs
      · exact hwrite _ _ hs h1 h2 h3
      · exact hemit _ _ hs
    · rcases execWrack_cases h with ⟨-, rfl⟩ | ⟨h1, h2, rfl⟩ | ⟨-, -, hf⟩
      · exact hs
      · exact hdrain _ hs h1 h2
      · exact hfin _ _ hs hf
    · rcases execDrain_cases h with ⟨-, rfl⟩ | ⟨-, hf⟩
      · exact hs
      · exact hfin _ _ hs hf
    · rcases execTerr_cases h with ⟨-, rfl⟩ | ⟨ho, rfl⟩
      · exact hs
      · exact hcapture _ _ hs ho
    · rcases execTick_cases h with ⟨-, rfl⟩ | ⟨h1, h2, rfl⟩ | ⟨-, -, rfl⟩
      · exact hs
      · exact htick _ hs h1 h2
      · exact hraise _ _ hs
  · obtain ⟨-, -, rfl⟩ := execClose_cases h
    exact hframe _ _ (by constructor <;> rfl) (by constructor <;> rfl) hs
  · obtain ⟨ds, rfl⟩ := statusRow_cases hd h
    exact hframe _ _ (by constructor <;> rfl) (by constructor <;> rfl) hs

end Sys2Proof.Machine
end

