-- ==== Sys2Proof/Laws/PerInstr.lean ====
section
/-! SUPPORT. A fact about every instruction as syntax: the code space and the number of bytes of its encoding (30_encoding
R91, R92, R94, R101 to R106, R110), one lemma per constructor. -/

namespace Sys2Proof

/-- The code space an instruction's word belongs to. -/
def portOf : Instr → Port
  | .rxbyte _ _ | .receive _ | .send _ | .wrack | .drain | .terr _ | .tick | .close => .event
  | .typePoll _ | .typeSreq _ | .typeAreq _ | .typeSrsp _ | .typeRes0 _ | .typeRes1 _ | .typeRes2 _ | .typeRes3 _
  | .frameHdrL1 _ _ _ _ | .frameHdrL2 _ _ _ _ => .link
  | .doneOk | .doneInvalidArgument | .doneUnresolvedCommand | .doneTimeout | .doneTransportError => .status

/-- The number of bytes of an instruction's word. -/
def wordLength : Instr → Nat
  | .rxbyte _ _ => 3
  | .receive a => 2 + (argBytes a).length
  | .send d => 7 + (argBytes d.payload).length
  | .terr _ => 2
  | .frameHdrL1 _ _ _ _ => 4
  | .frameHdrL2 _ _ _ _ => 5
  | .wrack | .drain | .tick | .close
  | .typePoll _ | .typeSreq _ | .typeAreq _ | .typeSrsp _ | .typeRes0 _ | .typeRes1 _ | .typeRes2 _ | .typeRes3 _
  | .doneOk | .doneInvalidArgument | .doneUnresolvedCommand | .doneTimeout | .doneTransportError => 1

end Sys2Proof

namespace Sys2Proof.Laws.EncodedShape

/-- The encoding of an instruction stands in its code space and has its number of bytes. -/
def Statement (i : Instr) : Prop := (encode i).port = portOf i ∧ (encode i).bytes.length = wordLength i

theorem rxbyte (src : Src) (b : Byte) : Statement (.rxbyte src b) := ⟨rfl, rfl⟩

theorem receive (a : ByteArg) : Statement (.receive a) := by
  refine ⟨rfl, ?_⟩
  simp [encode, eventWord, wordLength]; omega

theorem send (d : SendDesc) : Statement (.send d) := by
  refine ⟨rfl, ?_⟩
  simp [encode, eventWord, wordLength]; omega

theorem wrack : Statement .wrack := ⟨rfl, rfl⟩

theorem drain : Statement .drain := ⟨rfl, rfl⟩

theorem terr (e : Byte) : Statement (.terr e) := ⟨rfl, rfl⟩

theorem tick : Statement .tick := ⟨rfl, rfl⟩

theorem close : Statement .close := ⟨rfl, rfl⟩

theorem typePoll (s : BitVec 5) : Statement (.typePoll s) := ⟨rfl, rfl⟩

theorem typeSreq (s : BitVec 5) : Statement (.typeSreq s) := ⟨rfl, rfl⟩

theorem typeAreq (s : BitVec 5) : Statement (.typeAreq s) := ⟨rfl, rfl⟩

theorem typeSrsp (s : BitVec 5) : Statement (.typeSrsp s) := ⟨rfl, rfl⟩

theorem typeRes0 (s : BitVec 5) : Statement (.typeRes0 s) := ⟨rfl, rfl⟩

theorem typeRes1 (s : BitVec 5) : Statement (.typeRes1 s) := ⟨rfl, rfl⟩

theorem typeRes2 (s : BitVec 5) : Statement (.typeRes2 s) := ⟨rfl, rfl⟩

theorem typeRes3 (s : BitVec 5) : Statement (.typeRes3 s) := ⟨rfl, rfl⟩

theorem frameHdrL1 (n : BitVec 8) (t : BitVec 3) (s : BitVec 5) (c : Byte) : Statement (.frameHdrL1 n t s c) := ⟨rfl, rfl⟩

theorem frameHdrL2 (n : BitVec 16) (t : BitVec 3) (s : BitVec 5) (c : Byte) : Statement (.frameHdrL2 n t s c) := ⟨rfl, rfl⟩

theorem doneOk : Statement .doneOk := ⟨rfl, rfl⟩

theorem doneInvalidArgument : Statement .doneInvalidArgument := ⟨rfl, rfl⟩

theorem doneUnresolvedCommand : Statement .doneUnresolvedCommand := ⟨rfl, rfl⟩

theorem doneTimeout : Statement .doneTimeout := ⟨rfl, rfl⟩

theorem doneTransportError : Statement .doneTransportError := ⟨rfl, rfl⟩

end Sys2Proof.Laws.EncodedShape
end

