-- ==== Sys2Proof/Tests/Slice0.lean ====
section
/-! SUPPORT. The model's own tests. Expected values are those of the tables of 30_encoding and of the vectors of
95_test_vectors (named by their ids), or are worked out from a rule by hand. Then one witness for each obligation that has
hypotheses: a concrete state and operands that meet all of them together. -/

namespace Sys2Proof.Tests

open Sys2Proof.Machine

/-! ## Reading an outcome -/

/-- A field of the next state; `none` at a fault or a refusal. -/
def after {α : Type} (o : Out) (f : State → α) : Option α :=
  match o with
  | .next s => some (f s)
  | .fault _ => none
  | .refused _ => none

/-- The refusal an outcome ends in. -/
def refusal (o : Out) : Option Refusal :=
  match o with
  | .next _ => none
  | .fault _ => none
  | .refused r => some r

/-- The fault an outcome ends in. -/
def fault (o : Out) : Option Fault :=
  match o with
  | .next _ => none
  | .fault r => some r
  | .refused _ => none

/-! ## Small states -/

/-- `cfg lenBytes=1 transport=on`. -/
def linked1 : State := { State.reset with cfgLenBytes := 0#1, cfgHasTransport := true }

/-- `cfg lenBytes=2 transport=on`. -/
def linked2 : State := { State.reset with cfgHasTransport := true }

/-- `cfg lenBytes=1 transport=off`. -/
def alone1 : State := { State.reset with cfgLenBytes := 0#1 }

/-- `linked1` after CLOSE. -/
def closed1 : State := { linked1 with closed := true }

/-- `linked1` in READ_PAYLOAD with `i` of `n` bytes stored. -/
def inPayload (i n : BitVec 16) : State := { linked1 with rxState := .readPayload, rxIdx := i, rxLen := n }

/-- `linked1` in READ_FCS of the frame of vector S4. -/
def inFcs : State := { linked1 with rxState := .readFcs, rxType := 1#3, rxSubsys := 6#5, rxAcc := 0x26#8 }

/-- After vector X7: `send('SREQ', 6, 0, []) => accepted=1`. -/
def waiting : State := { linked1 with
  txState := .waitWrack, txTimer := 1150#11, txObs := true, txType := 1#3, txSubsys := 0x06#8,
  txPktlen := 5#17, txbuf := [(0, 0xFE#8), (2, 0x26#8), (4, 0x26#8)] }

/-- After vector X12: the same send with `accepted=0`, and its WRACK. -/
def draining : State := { waiting with txState := .waitDrain, txTimer := 1100#11, txBp := true }

/-- The packet of vector S1. -/
def packetS1 : Bytes := [0xFE#8, 0x00#8, 0x26#8, 0x00#8, 0x26#8]

/-- `send('SREQ', 6, 0, [])`. -/
def sendS1 : SendDesc :=
  { typeOk := true, type := 0x01#8, subsysOk := true, subsys := 0x06#8, cmdOk := true, cmd := 0x00#8, payload := .bytes [] }

/-- A SEND of `n` zero bytes. -/
def sendZeros (n : Nat) : SendDesc := { sendS1 with payload := .bytes (List.replicate n 0x00#8) }

/-- A send in flight, after two reports and a notification: `d` stands on the notification port. -/
def reported (d : Done) : State := { waiting with outputs := [.done .invalidArgument, .done d, .flushed 1#3 6#8 0#8] }

/-! ## Well-formedness: the one check has an ill-formed term that it refuses -/

theorem wellFormed_sendZeros (n : Nat) : WellFormed (.send (sendZeros n)) = decide (n < 65536) := by
  simp [WellFormed, sendZeros, ByteArg.fits16]

theorem test_wellFormed_payload_too_long : WellFormed (.send (sendZeros 65536)) = false :=
  (wellFormed_sendZeros 65536).trans (by decide)

theorem test_wellFormed_payload_longest : WellFormed (.send (sendZeros 65535)) = true :=
  (wellFormed_sendZeros 65535).trans (by decide)

/-! ## Decoding: words written out from 30_encoding R101 to R106, R91, R92, R94, R95, R110 -/

theorem test_decode_rxbyte : decode { port := .event, bytes := [0x00#8, 0x00#8, 0xFE#8] } = .ok (.rxbyte .transport 0xFE#8) := rfl
theorem test_decode_receive : decode { port := .event, bytes := [0x01#8, 0x00#8] } = .ok (.receive .absent) := rfl
theorem test_decode_receive_notBytes : decode { port := .event, bytes := [0x01#8, 0x02#8] } = .ok (.receive .notBytes) := rfl

/-- Vector P1, line 1: all three arguments good, `pl_kind = 1`, so the qualifiers are 0b00001111. -/
theorem test_decode_send :
    decode { port := .event, bytes := [0x02#8, 0x0F#8, 0x01#8, 0x06#8, 0x00#8, 0x03#8, 0x00#8, 0x00#8, 0x01#8, 0x02#8] } =
      .ok (.send { sendS1 with payload := .bytes [0x00#8, 0x01#8, 0x02#8] }) := rfl

theorem test_decode_wrack : decode { port := .event, bytes := [0x03#8] } = .ok .wrack := rfl
theorem test_decode_drain : decode { port := .event, bytes := [0x04#8] } = .ok .drain := rfl
theorem test_decode_terr : decode { port := .event, bytes := [0x05#8, 0x2A#8] } = .ok (.terr 0x2A#8) := rfl
theorem test_decode_tick : decode { port := .event, bytes := [0x06#8] } = .ok .tick := rfl
theorem test_decode_close : decode { port := .event, bytes := [0x07#8] } = .ok .close := rfl
theorem test_decode_typePoll : decode { port := .link, bytes := [0x1F#8] } = .ok (.typePoll 31#5) := rfl
theorem test_decode_typeSreq : decode { port := .link, bytes := [0x26#8] } = .ok (.typeSreq 6#5) := rfl
theorem test_decode_typeAreq : decode { port := .link, bytes := [0x45#8] } = .ok (.typeAreq 5#5) := rfl
theorem test_decode_typeSrsp : decode { port := .link, bytes := [0x66#8] } = .ok (.typeSrsp 6#5) := rfl
theorem test_decode_typeRes0 : decode { port := .link, bytes := [0x80#8] } = .ok (.typeRes0 0#5) := rfl
theorem test_decode_typeRes1 : decode { port := .link, bytes := [0xA1#8] } = .ok (.typeRes1 1#5) := rfl
theorem test_decode_typeRes2 : decode { port := .link, bytes := [0xDF#8] } = .ok (.typeRes2 31#5) := rfl
theorem test_decode_typeRes3 : decode { port := .link, bytes := [0xFE#8] } = .ok (.typeRes3 30#5) := rfl
theorem test_decode_frameHdrL1 :
    decode { port := .link, bytes := [0xFE#8, 0x01#8, 0x45#8, 0xC1#8] } = .ok (.frameHdrL1 1#8 2#3 5#5 0xC1#8) := rfl
theorem test_decode_frameHdrL2 :
    decode { port := .link, bytes := [0xFE#8, 0x2C#8, 0x01#8, 0x44#8, 0x80#8] } = .ok (.frameHdrL2 300#16 2#3 4#5 0x80#8) := rfl
theorem test_decode_doneOk : decode { port := .status, bytes := [0x00#8] } = .ok .doneOk := rfl
theorem test_decode_doneInvalidArgument : decode { port := .status, bytes := [0x01#8] } = .ok .doneInvalidArgument := rfl
theorem test_decode_doneUnresolvedCommand : decode { port := .status, bytes := [0x02#8] } = .ok .doneUnresolvedCommand := rfl
theorem test_decode_doneTimeout : decode { port := .status, bytes := [0x03#8] } = .ok .doneTimeout := rfl
theorem test_decode_doneTransportError : decode { port := .status, bytes := [0x04#8] } = .ok .doneTransportError := rfl

theorem test_decode_refuses_no_sof : decode { port := .link, bytes := [0x00#8, 0x01#8, 0x45#8, 0xC1#8] } = .error .noFrameHeader := rfl
theorem test_decode_refuses_missing_operand : decode { port := .event, bytes := [0x00#8, 0x01#8] } = .error .malformedWord := rfl

/-! ## The bare words of the opcode table -/

theorem test_table_event : decodeTableWord 8 0x6 = some .tick := by decide
theorem test_table_send : decodeTableWord 8 0x2 = some (.send
    { typeOk := false, type := 0#8, subsysOk := false, subsys := 0#8, cmdOk := false, cmd := 0#8, payload := .absent }) := by
  decide
theorem test_table_cmd0 : decodeTableWord 8 0xE0 = some (.typeRes3 0#5) := by decide
theorem test_table_hdrL1 : decodeTableWord 32 0xFE032600 = some (.frameHdrL1 3#8 1#3 6#5 0x00#8) := by decide
theorem test_table_hdrL2 : decodeTableWord 40 0xFE2C014480 = some (.frameHdrL2 300#16 2#3 4#5 0x80#8) := by decide
theorem test_table_status : decodeTableWord 3 0x4 = some .doneTransportError := by decide
theorem test_table_reserved : decodeTableWord 4 0x8 = none := by decide

/-- The placed word runs as the first instruction after reset. -/
theorem test_withFetchWord :
    after (step (State.reset.withFetchWord 40 0xFE2C014480)) (fun s => (s.rxState, s.rxLen, s.rxCmd)) =
      some (.readPayload, 300#16, 0x80#8) := by decide

/-! ## The codec: vectors K3, K8, C5v, C8v, S2, E2, E5, T8, T11 -/

theorem test_checksum_K3 : checksum [0x12#8, 0x34#8] [0x56#8] = 0x70#8 := by decide
theorem test_checksum_K8 : checksum [0x03#8, 0x26#8, 0x00#8] [0x00#8, 0x01#8, 0x02#8] = 0x26#8 := by decide
theorem test_packCmd0_C5v : packCmd0 2#3 0x45#8 = 0x45#8 := by decide
theorem test_packCmd0_C8v : packCmd0 4#3 32#8 = 0x80#8 := by decide
theorem test_encode_S2 : encodeFrame 0#1 1#3 6#8 0#8 [0x00#8, 0x01#8, 0x02#8] =
    [0xFE#8, 0x03#8, 0x26#8, 0x00#8, 0x00#8, 0x01#8, 0x02#8, 0x26#8] := by decide
theorem test_encode_E2 : encodeFrame 0#1 7#3 31#8 255#8 [0xFF#8] = [0xFE#8, 0x01#8, 0xFF#8, 0xFF#8, 0xFF#8, 0xFE#8] := by decide
theorem test_encode_E6 : encodeFrame 1#1 2#3 0x45#8 0xC1#8 [0xFE#8, 0xFE#8, 0x10#8] =
    [0xFE#8, 0x03#8, 0x00#8, 0x45#8, 0xC1#8, 0xFE#8, 0xFE#8, 0x10#8, 0x97#8] := by decide
theorem test_encode_E11 : encodeChecked 0#1 (.num 9) none (some 0#8) (.bytes []) = some (.error .invalidArgument) := by decide
theorem test_resolveType_T8 : resolveType (.name "RES3") = .ok 7#3 ∧ resolveType (.num 7) = .ok 7#3 := ⟨rfl, rfl⟩
theorem test_resolveType_T11 : resolveType (.name "sreq") = .error .invalidType ∧ resolveType (.name "1") = .error .invalidType :=
  ⟨rfl, rfl⟩

/-! ## One step of each instruction -/

/-- F10: the high LENGTH byte, `0x012C`. -/
theorem test_rxbyte_length_high :
    after (exec (.rxbyte .transport 0x01#8) { linked2 with rxState := .readLength, rxIdx := 1#16, rxLen := 0x002C#16 })
      (fun s => (s.rxState, s.rxIdx, s.rxLen)) = some (.readCmd0, 0#16, 0x012C#16) := by decide

/-- F2: a wrong FCS is no error. -/
theorem test_rxbyte_fcs_mismatch : after (exec (.rxbyte .host 0x27#8) inFcs) State.outputs = some [.data
    { sof := 254#8, len := 0#16, type := 1#3, subsys := 6#5, cmd := 0#8, payload := [], fcs := 39#8, csum := 38#8 }] := by decide

/-- F4: the round trip of S2. -/
theorem test_receive_F4 :
    after (exec (.receive (.bytes [0xFE#8, 0x03#8, 0x26#8, 0x00#8, 0x00#8, 0x01#8, 0x02#8, 0x26#8])) linked1) State.outputs =
      some [.data { sof := 254#8, len := 3#16, type := 1#3, subsys := 6#5, cmd := 0#8,
                    payload := [0x00#8, 0x01#8, 0x02#8], fcs := 38#8, csum := 38#8 }] := by decide

/-- F11: an L1 frame read with two LENGTH bytes. -/
theorem test_receive_F11 :
    after (exec (.receive (.bytes packetS1)) linked2) (fun s => (s.rxState, s.rxIdx, s.rxLen, s.rxCmd)) =
      some (.readPayload, 0#16, 9728#16, 38#8) := by decide

/-- X2: FLUSHED carries `subsys` unmasked, the wire carries its five low bits. -/
theorem test_send_X2 : after (exec (.send { sendS1 with type := 2#8, subsys := 0x45#8, cmd := 0xC1#8, payload := .bytes [0xAA#8] })
      alone1) State.outputs =
    some [.flushed 2#3 0x45#8 0xC1#8, .done (.ok [0xFE#8, 0x01#8, 0x45#8, 0xC1#8, 0xAA#8, 0x2F#8])] := by decide

/-- X7, and backpressure: `accepted=0` sets `tx_bp`. -/
theorem test_send_backpressure :
    after (exec (.send sendS1) { linked1 with answers := [false] })
      (fun s => (s.txState, s.txTimer, s.txBp, s.txObs, s.outputs)) =
      some (.waitWrack, 1150#11, true, true, [.txWrite packetS1]) := by decide

/-- X8. -/
theorem test_wrack_X8 : after (exec .wrack waiting) (fun s => (s.txState, s.txTimer, s.txObs, s.outputs)) =
    some (.idle, 1150#11, false, [.flushed 1#3 6#8 0#8, .done (.ok packetS1)]) := by decide

/-- X12. -/
theorem test_wrack_X12 : after (exec .wrack { waiting with txBp := true, txTimer := 7#11 })
    (fun s => (s.txState, s.txTimer, s.txObs, s.outputs)) = some (.waitDrain, 1100#11, true, []) := by decide

/-- X13. -/
theorem test_drain_X13 : after (exec .drain draining) (fun s => (s.txState, s.txBp, s.outputs)) =
    some (.idle, true, [.flushed 1#3 6#8 0#8, .done (.ok packetS1)]) := by decide

/-- X15: an early DRAIN is lost. -/
theorem test_drain_early : after (exec .drain waiting) (fun s => s) = some waiting := by decide

/-- X17. -/
theorem test_terr_captured : after (exec (.terr 0x2A#8) waiting) (fun s => (s.txState, s.txTimer, s.txErrValid, s.txErr)) =
    some (.waitWrack, 1150#11, true, 0x2A#8) := by decide

/-- X11: no observer. -/
theorem test_terr_ignored : after (exec (.terr 0x22#8) linked1) (fun s => s) = some linked1 := by decide

theorem test_tick_counts : after (exec .tick waiting) State.txTimer = some 1149#11 := by decide

/-- X19: the timeout wins over a captured error. -/
theorem test_tick_timeout : after (exec .tick { waiting with txTimer := 1#11, txErrValid := true, txErr := 0x2A#8 })
    (fun s => (s.txState, s.txTimer, s.txObs, s.txErrValid, s.outputs)) = some (.idle, 1#11, false, true, [.done .timeout]) := by
  decide

/-- X26: a frame in progress stays. -/
theorem test_close_X26 : after (exec .close (inPayload 1#16 3#16)) (fun s => (s.closed, s.rxState, s.rxIdx)) =
    some (true, .readPayload, 1#16) := by decide

/-- X24 and X25. -/
theorem test_close_refused : refusal (exec .close closed1) = some .closeTwice ∧
    refusal (exec .close alone1) = some .closeWithoutTransport := by decide

/-- A CMD0 byte of each type in READ_CMD0 (R95, R155). -/
theorem test_type_rows :
    [Instr.typePoll 0#5, .typeSreq 1#5, .typeAreq 2#5, .typeSrsp 3#5, .typeRes0 4#5, .typeRes1 5#5, .typeRes2 30#5, .typeRes3 31#5].map
      (fun i => after (exec i { linked1 with rxState := .readCmd0 }) (fun s => (s.rxType, s.rxSubsys))) =
    [some (0#3, 0#5), some (1#3, 1#5), some (2#3, 2#5), some (3#3, 3#5), some (4#3, 4#5), some (5#3, 5#5), some (6#3, 30#5),
     some (7#3, 31#5)] := by decide

/-- The byte 0xFE is a SOF in SEEK_SOF, whatever row it was (R158). -/
theorem test_type_row_as_sof : after (exec (.typeRes3 30#5) linked1) State.rxState = some .readLength := by decide

/-- E1 and E3: the header of an empty frame, and of one with a payload. -/
theorem test_hdrL1 : after (exec (.frameHdrL1 0#8 0#3 0#5 0#8) linked1) State.rxState = some .readFcs ∧
    after (exec (.frameHdrL1 1#8 2#3 5#5 0xC1#8) linked1) (fun s => (s.rxState, s.rxLen, s.rxType, s.rxSubsys, s.rxCmd)) =
      some (.readPayload, 1#16, 2#3, 5#5, 0xC1#8) := by decide

/-- An empty L2 frame's header read with one LENGTH byte: CMDID is the FCS of a record (R270). -/
theorem test_hdrL2_as_L1 : after (exec (.frameHdrL2 0x2600#16 2#3 4#5 0x27#8) linked1) State.outputs =
    some [.data { sof := 254#8, len := 0#16, type := 1#3, subsys := 6#5, cmd := 0x44#8, payload := [], fcs := 0x27#8,
                  csum := 0x62#8 }] := by decide

/-- E8. -/
theorem test_hdrL2 : after (exec (.frameHdrL2 300#16 2#3 4#5 0x80#8) linked2)
    (fun s => (s.rxState, s.rxLen, s.rxType, s.rxSubsys, s.rxCmd)) = some (.readPayload, 300#16, 2#3, 4#5, 0x80#8) := by decide

/-- The last report is read by the row of its status, and only by it (R110); a send in flight goes on. -/
theorem test_doneOk : after (exec .doneOk (reported (.ok packetS1))) (fun s => (s.txState, s.reportsRead)) =
    some (.waitWrack, [.ok packetS1]) := by decide
theorem test_doneInvalidArgument :
    after (exec .doneInvalidArgument (reported .invalidArgument)) State.reportsRead = some [.invalidArgument] := by decide
theorem test_doneUnresolvedCommand :
    after (exec .doneUnresolvedCommand (reported .unresolvedCommand)) State.reportsRead = some [.unresolvedCommand] := by decide
theorem test_doneTimeout : after (exec .doneTimeout (reported .timeout)) (fun s => (s.txState, s.txTimer, s.reportsRead)) =
    some (.waitWrack, 1150#11, [.timeout]) := by decide
theorem test_doneTransportError :
    after (exec .doneTransportError (reported (.transportError 0x2A#8))) State.reportsRead =
      some [.transportError 0x2A#8] := by decide
theorem test_done_other_status : exec .doneTimeout (reported (.transportError 0x2A#8)) =
    .next (reported (.transportError 0x2A#8)) := rfl

/-! ## The step -/

/-- X21: of a SEND and a WRACK of one instant the WRACK goes first, and the SEND is taken in the next step. -/
theorem test_step_wrack_before_send :
    after (step { waiting with inbox := [.instant [encode (.send sendS1), encode .wrack]] }) (fun s => (s.txState, s.inbox)) =
      some (.idle, [.instant [encode (.send sendS1)]]) := by decide

/-- A second SEND is held. -/
theorem test_step_holds_send :
    after (step { waiting with inbox := [.instant [encode (.send sendS1)]] }) (fun s => (s.txState, s.held)) =
      some (.waitWrack, [sendS1]) := by decide

theorem test_step_construct : after (step { closed1 with inbox := [.construct none true] }) (fun s => (s.closed, s.cfgLenBytes)) =
    some (false, 1#1) := by decide

theorem test_step_reserved_code :
    refusal (step { linked1 with inbox := [.instant [{ port := .event, bytes := [0x08#8] }]] }) =
      some (.undecodable .reservedEventCode) := by decide

/-- Memory of reset is in canonical form, and so is what an operation makes of it. -/
theorem test_reset_memory : State.reset.rxbuf.wf Config.rxbufSize = true ∧ State.reset.txbuf.wf Config.txbufSize = true := by decide

/-- Writing the value of an unlisted byte removes the entry. -/
theorem test_memory_canonical : (Memory.write [(1, 0x05#8), (3, 0x07#8)] 3 0x00#8) = [(1, 0x05#8)] ∧
    (Memory.write [(1, 0x05#8), (3, 0x07#8)] 2 0x06#8) = [(1, 0x05#8), (2, 0x06#8), (3, 0x07#8)] := by decide

/-- The two faults stand only where no invariant state is. -/
theorem test_faults : fault (exec (.rxbyte .host 0x00#8) { (inPayload 65535#16 0#16) with rxLen := 0#16 }) = some .rxbufIndex ∧
    fault (exec .wrack { waiting with txPktlen := 65542#17 }) = some .txbufLength := by decide

/-! ## Witnesses: what an obligation assumes can be met, for each of its clauses -/

/-- The invariants hold where the witnesses below need them. -/
theorem framerOk_linked1 : FramerOk linked1 := by constructor <;> decide
theorem framerOk_linked2 : FramerOk linked2 := by constructor <;> decide
theorem framerOk_inPayload : FramerOk (inPayload 0#16 3#16) := by constructor <;> decide
theorem framerOk_inFcs : FramerOk inFcs := by constructor <;> decide
theorem txcOk_waiting : TxcOk waiting := by constructor <;> decide
theorem txcOk_draining : TxcOk draining := by constructor <;> decide
theorem memoryOk_waiting : MemoryOk waiting := by constructor <;> decide
theorem packetOk_waiting : PacketOk waiting := fun _ => ⟨[], by decide, by decide⟩
theorem accumulatorOk_inFcs : AccumulatorOk inFcs := by unfold AccumulatorOk; decide

theorem witness_DecodeOfEncodeIsTheInstruction : WellFormed (.send (sendZeros 65535)) = true ∧ WellFormed .wrack = true :=
  ⟨test_wellFormed_payload_longest, rfl⟩

theorem witness_ReservedCodesAreRefused :
    (8 ≤ (0x08#8).toNat ∧ (0x08#8).toNat < 16) ∧ (8 ≤ (0x0F#8).toNat ∧ (0x0F#8).toNat < 16) ∧
    (((0x18#8).extractLsb' 5 3 = 0#3 ∧ (0x18#8).extractLsb' 3 2 = 3#2) ∧
      ((0x1F#8).extractLsb' 5 3 = 0#3 ∧ (0x1F#8).extractLsb' 3 2 = 3#2)) ∧
    (5 ≤ (0x05#8).toNat ∧ (0x05#8).toNat < 8) ∧ (5 ≤ (0x07#8).toNat ∧ (0x07#8).toNat < 8) ∧
    (let s := { linked1 with inbox := [.instant [statusWord 7#8]] }
     s.inbox = .instant [statusWord 7#8] :: [] ∧ s.held = [] ∧ decode (statusWord 7#8) = .error .reservedStatus) :=
  ⟨by decide, by decide, by decide, by decide, by decide, rfl, rfl, rfl⟩

theorem witness_ConstructionDiscardsTheInstance :
    (let s := { waiting with inbox := [.construct (some 1) true] }; s.inbox = .construct (some 1) true :: []) ∧
    (let s := { waiting with inbox := [.construct none false] }; s.inbox = .construct none false :: [] ∧
      ((none : Option Nat) = none ∨ (none : Option Nat) = some 2)) ∧
    (let s := { waiting with inbox := [.construct (some 0) true] }; s.inbox = .construct (some 0) true :: [] ∧
      some 0 ≠ none ∧ some 0 ≠ some 1 ∧ some 0 ≠ some 2) ∧
    (some 3 ≠ none ∧ some 3 ≠ some 1 ∧ some 3 ≠ some 2) := by decide

theorem witness_StepRunsTheDecodedInstruction :
    (let s := { waiting with inbox := [.instant [encode (.send sendS1)]], held := [sendS1] }
     s.inbox = .instant [encode (.send sendS1)] :: [] ∧ s.txState ≠ .idle) ∧ decode (encode (.send sendS1)) = .ok (.send sendS1) ∧
    (let s := { linked1 with inbox := [.instant [encode .tick]], held := [sendS1] }
     s.inbox = .instant [encode .tick] :: [] ∧ priority (encode .tick) ≠ sendPriority) ∧ decode (encode .tick) = .ok .tick ∧
    (let s := { linked1 with inbox := [.instant [encode (.send sendS1)]] }
     s.inbox = .instant [encode (.send sendS1)] :: [] ∧ s.held = []) ∧
    decodeTableWord 32 0xFE032600 = some (.frameHdrL1 3#8 1#3 6#5 0x00#8) :=
  ⟨by decide, rfl, by decide, rfl, by decide, by decide⟩

theorem witness_CoincidentEventsAreTakenInOrder :
    (let s := { waiting with inbox := [.instant [encode (.send sendS1), encode .wrack]], held := [sendS1] }
     s.inbox = .instant (encode (.send sendS1) :: [encode .wrack]) :: []) ∧
    priority (encode .wrack) ≠ sendPriority ∧ decode (encode .wrack) = .ok .wrack ∧
    (let s := { linked1 with inbox := [.instant [statusWord 7#8]] }
     s.inbox = .instant (statusWord 7#8 :: []) :: [] ∧ s.held = []) ∧ decode (statusWord 7#8) = .error .reservedStatus :=
  ⟨by decide, by decide, rfl, by decide, rfl⟩

theorem witness_BusySendStaysOfferedUntilIdle :
    waiting.txState ≠ .idle ∧
    (let s := { linked1 with held := [sendS1] }; s.txState = .idle ∧ s.held = sendS1 :: [] ∧ s.inbox = []) ∧
    (let s := { linked1 with held := [sendS1], inbox := [.instant [encode (.send sendS1)]] }
     s.txState = .idle ∧ s.held = sendS1 :: [] ∧ s.inbox = .instant [encode (.send sendS1)] :: [] ∧
       ∀ w ∈ [encode (.send sendS1)], priority w = sendPriority) := by decide

theorem witness_UndeliveredByteHasNoEffect :
    (closed1.cfgHasTransport = true ∧ closed1.closed = true) ∧ alone1.cfgHasTransport = false := by decide

theorem witness_SeekSofAcceptsOnlyTheMarker :
    (delivered .transport linked1 = true ∧ linked1.rxState = .seekSof) ∧
    (delivered .host alone1 = true ∧ alone1.rxState = .seekSof) := by decide

theorem witness_ReadLengthIsLittleEndian :
    (let s := { linked1 with rxState := .readLength }; delivered .transport s = true ∧ s.rxState = .readLength ∧
      s.rxIdx.toNat + 1 = s.cfgLenBytes.toNat + 1) ∧
    (let s := { linked2 with rxState := .readLength }; delivered .host s = true ∧ s.rxState = .readLength ∧
      s.rxIdx.toNat + 1 ≠ s.cfgLenBytes.toNat + 1) ∧
    (let s := { linked2 with rxState := .readLength, rxIdx := 1#16 }; delivered .host s = true ∧ s.rxState = .readLength ∧
      s.rxIdx ≠ 0#16 ∧ s.rxIdx.toNat + 1 = s.cfgLenBytes.toNat + 1) := by decide

theorem witness_ReadCmd0SplitsTheByte :
    let s := { linked1 with rxState := .readCmd0 }; delivered .transport s = true ∧ s.rxState = .readCmd0 := by decide

theorem witness_ReadCmdidOpensThePayload :
    (let s := { linked1 with rxState := .readCmdid }; delivered .transport s = true ∧ s.rxState = .readCmdid ∧ s.rxLen = 0#16) ∧
    (let s := { linked1 with rxState := .readCmdid, rxLen := 1#16 }
     delivered .transport s = true ∧ s.rxState = .readCmdid ∧ s.rxLen ≠ 0#16) := by decide

theorem witness_ReadPayloadStoresOneByte :
    (let s := inPayload 0#16 3#16; delivered .transport s = true ∧ s.rxState = .readPayload ∧ s.rxIdx.toNat < s.rxLen.toNat ∧
      s.rxbuf.wf Config.rxbufSize = true ∧ s.rxIdx.toNat + 1 ≠ s.rxLen.toNat) ∧
    (let s := { inPayload 65534#16 65535#16 with cfgLenBytes := 1#1 }
     delivered .host s = true ∧ s.rxState = .readPayload ∧ s.rxIdx.toNat < s.rxLen.toNat ∧
      s.rxbuf.wf Config.rxbufSize = true ∧ s.rxIdx.toNat + 1 = s.rxLen.toNat) := by decide

theorem witness_ReadFcsEmitsTheRecord : delivered .transport inFcs = true ∧ inFcs.rxState = .readFcs := by decide

theorem witness_FramePositionCountsDeliveredBytes :
    (FramerOk linked1 ∧ delivered .transport linked1 = true ∧ linked1.rxState = .seekSof ∧
      exec (.rxbyte .transport 0x11#8) linked1 = .next linked1 ∧ 0x11#8 ≠ 0xFE#8 ∧
      (after (exec (.rxbyte .transport 0xFE#8) linked1) State.framePos).isSome = true) ∧
    (FramerOk inFcs ∧ delivered .transport inFcs = true ∧ inFcs.rxState = .readFcs ∧
      (after (exec (.rxbyte .transport 0x26#8) inFcs) State.framePos).isSome = true) ∧
    (FramerOk (inPayload 0#16 3#16) ∧ delivered .transport (inPayload 0#16 3#16) = true ∧
      (inPayload 0#16 3#16).rxState ≠ .seekSof ∧ (inPayload 0#16 3#16).rxState ≠ .readFcs ∧
      (after (exec (.rxbyte .transport 0x26#8) (inPayload 0#16 3#16)) State.framePos).isSome = true) :=
  ⟨⟨framerOk_linked1, by decide, rfl, rfl, by decide, by decide⟩, ⟨framerOk_inFcs, by decide, rfl, by decide⟩,
   ⟨framerOk_inPayload, by decide, by decide, by decide, by decide⟩⟩

theorem witness_ReceiveChecksItsArgument : (ByteArg.absent ≠ .notBytes ∧ closed1.closed = true) ∧ linked1.closed = false := by
  decide

theorem witness_ReceiveCompletesForEveryChunk : FramerOk (inPayload 0#16 3#16) ∧ (inPayload 0#16 3#16).closed = false :=
  ⟨framerOk_inPayload, rfl⟩

theorem witness_ReceiveIsItsBytesInOrder :
    linked1.closed = false ∧ linked1.cfgHasTransport = true ∧ linked1.rxState = .seekSof ∧
    linked1.rxbuf.wf Config.rxbufSize = true ∧ ([] : Bytes).length ≤ maxLen linked1.cfgLenBytes ∧
    [[0xFE#8], [0x00#8, 0x26#8], [0x00#8, 0x26#8]].flatten = encodeFrame linked1.cfgLenBytes 1#3 6#8 0#8 [] := by decide

theorem witness_EveryCompleteFrameIsEmittedOnce :
    (delivered .transport linked1 = true ∧ linked1.rxState = .seekSof ∧ linked1.rxbuf.wf Config.rxbufSize = true ∧
      ([] : Bytes).length ≤ maxLen linked1.cfgLenBytes) ∧
    (List.replicate 255 0xFE#8).length ≤ maxLen linked1.cfgLenBytes :=
  ⟨by decide, by rw [List.length_replicate]; decide⟩

theorem witness_EncodedFrameDecodesToItsArguments :
    delivered .host alone1 = true ∧ alone1.rxState = .seekSof ∧ alone1.rxbuf.wf Config.rxbufSize = true ∧
    resolveType (.name "SREQ") = .ok 1#3 ∧ resolveType (.num 7) = .ok 7#3 ∧
    [0x00#8, 0x01#8, 0x02#8].length ≤ maxLen alone1.cfgLenBytes :=
  ⟨by decide, by decide, by decide, rfl, rfl, by decide⟩

theorem witness_GarbageBeforeAFrameIsDiscarded :
    delivered .transport linked2 = true ∧ linked2.rxState = .seekSof ∧ linked2.rxbuf.wf Config.rxbufSize = true ∧
    [0xFE#8, 0xFE#8, 0x10#8].length ≤ maxLen linked2.cfgLenBytes ∧ 0xFE#8 ∉ [0x00#8, 0x11#8, 0xFF#8] := by decide

theorem witness_LengthHoldsTheFramerInThePayload :
    FramerOk (inPayload 0#16 3#16) ∧ delivered .transport (inPayload 0#16 3#16) = true ∧
    (inPayload 0#16 3#16).rxState = .readPayload ∧
    (inPayload 0#16 3#16).rxIdx.toNat + [0xFE#8, 0xFE#8].length < (inPayload 0#16 3#16).rxLen.toNat ∧
    (inPayload 0#16 3#16).rxIdx.toNat + [0xFE#8, 0xFE#8, 0xFE#8].length = (inPayload 0#16 3#16).rxLen.toNat :=
  ⟨framerOk_inPayload, by decide, by decide, by decide, by decide⟩

theorem witness_LengthFieldReadsBack :
    (let s := { linked1 with rxState := .readLength }
     delivered .transport s = true ∧ s.rxState = .readLength ∧ s.rxIdx = 0#16 ∧ (255#16).toNat ≤ maxLen s.cfgLenBytes) ∧
    (let s := { linked2 with rxState := .readLength }
     delivered .transport s = true ∧ s.rxState = .readLength ∧ s.rxIdx = 0#16 ∧ (65535#16).toNat ≤ maxLen s.cfgLenBytes) := by
  decide

theorem witness_TypeRowsGiveTypeAndSubsystem :
    (let s := { linked1 with rxState := .readCmd0 }; linkOpen s = true ∧ s.rxState = .readCmd0) ∧
    (let s := { alone1 with rxState := .readCmd0 }; linkOpen s = true ∧ s.rxState = .readCmd0) ∧
    (Instr.typeRes3 31#5, 7#3) ∈
      [(Instr.typePoll 31#5, 0#3), (.typeSreq 31#5, 1#3), (.typeAreq 31#5, 2#3), (.typeSrsp 31#5, 3#3),
       (.typeRes0 31#5, 4#3), (.typeRes1 31#5, 5#3), (.typeRes2 31#5, 6#3), (.typeRes3 31#5, 7#3)] := by decide

theorem witness_HeaderL1IsReadByFormat :
    (linkOpen linked1 = true ∧ linked1.rxState = .seekSof ∧ linked1.cfgLenBytes = 0#1) ∧
    (linkOpen linked2 = true ∧ linked2.rxState = .seekSof ∧ linked2.cfgLenBytes = 1#1) ∧
    (linkOpen (inPayload 0#16 3#16) = true ∧ FramerOk (inPayload 0#16 3#16)) ∧
    (closed1.cfgHasTransport = true ∧ closed1.closed = true) :=
  ⟨by decide, by decide, ⟨by decide, framerOk_inPayload⟩, by decide⟩

theorem witness_HeaderL2IsReadByFormat :
    (linkOpen linked2 = true ∧ linked2.rxState = .seekSof ∧ linked2.cfgLenBytes = 1#1) ∧
    (linkOpen linked1 = true ∧ linked1.rxState = .seekSof ∧ linked1.cfgLenBytes = 0#1 ∧ loByte 0xFF00#16 = 0#8) ∧
    (linked1.rxbuf.wf Config.rxbufSize = true ∧ loByte 0x0001#16 = 1#8 ∧ loByte 0x01FF#16 ≠ 0#8) ∧
    (linkOpen linked1 = true ∧ FramerOk linked1) ∧ (closed1.cfgHasTransport = true ∧ closed1.closed = true) :=
  ⟨by decide, by decide, by decide, ⟨by decide, framerOk_linked1⟩, by decide⟩

theorem witness_ChecksumLaws : [0x12#8, 0x34#8].Perm [0x34#8, 0x12#8] ∧ [0x56#8].Perm [0x56#8] := by decide

theorem witness_TypeNamesAndCodesAgree : 7 < 8 ∧ ∀ c : BitVec 3, "sreq" ≠ typeName c := by decide

theorem witness_EncodedFrameLayout :
    (List.replicate 255 0x00#8).length ≤ maxLen 0#1 ∧ 254 < (List.replicate 255 0x00#8).length ∧
    (List.replicate 256 0x00#8).length ≤ maxLen 1#1 := by
  simp only [List.length_replicate]; decide

theorem witness_EncodeFailsInOrder :
    ((TypeArg.num 9 = .bad ∨ (none : Option Byte) = none ∨ some 0#8 = none ∨ ByteArg.absent = .notBytes)) ∧
    (TypeArg.num 9 ≠ .bad ∧ some 6#8 ≠ none ∧ some 0#8 ≠ none ∧ ByteArg.absent ≠ .notBytes ∧
      ∀ c, resolveType (.num 9) ≠ .ok c) ∧
    (resolveType (.num 7) = .ok 7#3 ∧ ByteArg.bytes [0xFF#8] ≠ .notBytes ∧
      (argBytes (.bytes [0xFF#8])).length ≤ maxLen 0#1) :=
  ⟨.inr (.inl rfl), ⟨by decide, by decide, by decide, by decide, fun c h => by cases h⟩, rfl, by decide, by decide⟩

theorem witness_ToolchainResolvesNames : ∀ c : BitVec 3, "FOO" ≠ typeName c := by decide

theorem witness_SendChecksInOrder :
    linked1.txState = .idle ∧ maxLen linked1.cfgLenBytes < (List.replicate 256 0x00#8).length ∧
    (let d := { sendS1 with type := 9#8, subsysOk := false }
     (argBytes d.payload).length ≤ maxLen linked1.cfgLenBytes ∧
      (d.typeOk = false ∨ d.subsysOk = false ∨ d.cmdOk = false ∨ d.payload = .notBytes)) ∧
    (let d := { sendS1 with type := 8#8 }
     (argBytes d.payload).length ≤ maxLen linked1.cfgLenBytes ∧ d.typeOk = true ∧ d.subsysOk = true ∧ d.cmdOk = true ∧
      d.payload ≠ .notBytes ∧ 7 < d.type.toNat) :=
  ⟨rfl, by rw [List.length_replicate]; decide, by decide, by decide⟩

theorem witness_SendEncodesWithoutTransport :
    alone1.txState = .idle ∧ alone1.txObs = false ∧ alone1.cfgHasTransport = false ∧
    (let d := { sendS1 with type := 7#8, payload := .absent }
     d.typeOk = true ∧ d.subsysOk = true ∧ d.cmdOk = true ∧ d.payload ≠ .notBytes ∧
      (argBytes d.payload).length ≤ maxLen alone1.cfgLenBytes ∧ d.type.toNat = (7#3).toNat) := by decide

theorem witness_SendWritesAndWaits :
    (let s := { linked1 with answers := [false] }
     s.txState = .idle ∧ s.cfgHasTransport = true ∧ s.txbuf.wf Config.txbufSize = true ∧ s.answers = false :: []) ∧
    (linked1.txState = .idle ∧ linked1.cfgHasTransport = true ∧ linked1.txbuf.wf Config.txbufSize = true ∧
      linked1.answers = []) ∧
    (sendS1.typeOk = true ∧ sendS1.subsysOk = true ∧ sendS1.cmdOk = true ∧ sendS1.payload ≠ .notBytes ∧
      (argBytes sendS1.payload).length ≤ maxLen linked1.cfgLenBytes ∧ sendS1.type.toNat = (1#3).toNat) := by decide

theorem witness_WrackEndsOrDefersTheSend :
    (let s := { waiting with txBp := true }; s.txState = .waitWrack ∧ s.txBp = true) ∧
    (let s := { waiting with txErrValid := true }; s.txState = .waitWrack ∧ s.txBp = false ∧ s.txErrValid = true) ∧
    (let s := { waiting with txPktlen := 65541#17 }
     s.txState = .waitWrack ∧ s.txBp = false ∧ s.txErrValid = false ∧ s.txPktlen.toNat ≤ 65541) ∧
    (linked1.txState ≠ .waitWrack ∧ draining.txState ≠ .waitWrack) := by decide

theorem witness_DrainEndsTheSend :
    (let s := { draining with txErrValid := true }; s.txState = .waitDrain ∧ s.txErrValid = true) ∧
    (let s := { draining with txPktlen := 65541#17 }
     s.txState = .waitDrain ∧ s.txErrValid = false ∧ s.txPktlen.toNat ≤ 65541) ∧
    (linked1.txState ≠ .waitDrain ∧ waiting.txState ≠ .waitDrain) := by decide

theorem witness_TerrIsCapturedInTheWindow :
    (waiting.txObs = true ∧ waiting.txErrValid = false) ∧
    (let s := { waiting with txErrValid := true }; s.txObs = true ∧ s.txErrValid = true) ∧ linked1.txObs = false := by decide

theorem witness_TickCountsDownToTimeout :
    linked1.txState = .idle ∧
    (let s := { waiting with txTimer := 2#11 }; s.txState ≠ .idle ∧ 2 ≤ s.txTimer.toNat) ∧
    (let s := { draining with txTimer := 1#11 }; s.txState ≠ .idle ∧ s.txTimer = 1#11) := by decide

theorem witness_WaitTimesOutOnItsLastTick :
    (waiting.txState ≠ .idle ∧ 1 ≤ waiting.txTimer.toNat) ∧
    (let s := { draining with txTimer := 1#11 }; s.txState ≠ .idle ∧ 1 ≤ s.txTimer.toNat) := by decide

/-- A drain wait with one unit left, and the script of the one TICK that ends it. -/
theorem witness_EverySendEndsWithinItsBound :
    (∃ t : State, TxcOk { draining with txTimer := 1#11 } ∧ ({ draining with txTimer := 1#11 } : State).txState ≠ .idle ∧
      ticksLeft { draining with txTimer := 1#11 } ≤ tickCount [.tick] ∧
      runEvents [.tick] { draining with txTimer := 1#11 } = .next t) ∧ TxcOk waiting :=
  ⟨⟨_, by constructor <;> decide, by decide, by decide, rfl⟩, txcOk_waiting⟩

theorem witness_CloseDetachesTheFramerOnly :
    (linked1.cfgHasTransport = true ∧ linked1.closed = false) ∧ alone1.cfgHasTransport = false ∧
    (closed1.cfgHasTransport = true ∧ closed1.closed = true) := by decide

theorem witness_ControllerStateMovesAsStated :
    ∃ t : State, exec .wrack { waiting with txBp := true } = .next t ∧ t.txState ≠ ({ waiting with txBp := true } : State).txState :=
  ⟨_, rfl, by decide⟩

theorem witness_EachSendEndsWithOneDone :
    (∃ t : State, isTxcEvent .drain = true ∧ waiting.txState ≠ .idle ∧ exec .drain waiting = .next t ∧ t.txState ≠ .idle) ∧
    (∃ t : State, isTxcEvent .wrack = true ∧ waiting.txState ≠ .idle ∧ exec .wrack waiting = .next t ∧ t.txState = .idle) :=
  ⟨⟨_, rfl, by decide, rfl, by decide⟩, ⟨_, rfl, by decide, rfl, by decide⟩⟩

theorem witness_StatusRowsReadTheReport :
    ((Instr.doneTransportError, 4#3) ∈ [(Instr.doneOk, 0#3), (.doneInvalidArgument, 1#3), (.doneUnresolvedCommand, 2#3),
      (.doneTimeout, 3#3), (.doneTransportError, 4#3)]) ∧
    ((reported .timeout).outputs = [.done .invalidArgument] ++ [.done .timeout] ++ [.flushed 1#3 6#8 0#8] ∧
      ∀ o ∈ [Output.flushed 1#3 6#8 0#8], o.isDone = false) ∧
    (∀ o ∈ waiting.outputs, o.isDone = false) := by decide

theorem witness_FramerIgnoresTheTransmitSide :
    ∃ t : State, isFramerEvent (.receive (.bytes packetS1)) = true ∧ SameFramer linked1 waiting ∧ SameConfig linked1 waiting ∧
      exec (.receive (.bytes packetS1)) linked1 = .next t :=
  ⟨_, rfl, by constructor <;> rfl, by constructor <;> rfl, rfl⟩

theorem witness_ControllerIgnoresTheReceiveSide :
    ∃ t : State, isTxcEvent .wrack = true ∧ SameTxc waiting { waiting with rxState := .readFcs, closed := true } ∧
      SameConfig waiting { waiting with rxState := .readFcs, closed := true } ∧ exec .wrack waiting = .next t :=
  ⟨_, rfl, by constructor <;> rfl, by constructor <;> rfl, rfl⟩

theorem witness_FramerAndControllerEventsCommute :
    (∃ u v : State, isFramerEvent (.receive .notBytes) = true ∧ isTxcEvent .wrack = true ∧
      exec (.receive .notBytes) waiting = .next u ∧ exec .wrack u = .next v) ∧
    (∃ w z : State, exec .wrack waiting = .next w ∧ exec (.receive .notBytes) w = .next z) ∧
    (linked1.cfgHasTransport = true ∧ linked1.closed = false ∧ linked1.rxState = .seekSof) :=
  ⟨⟨_, _, rfl, rfl, rfl, rfl⟩, ⟨_, _, rfl, rfl⟩, by decide⟩

theorem witness_FramerInvariantIsKept :
    ∃ t : State, FramerOk { inPayload 0#16 3#16 with inbox := [.instant [encode (.rxbyte .transport 0xFE#8)]] } ∧
      step { inPayload 0#16 3#16 with inbox := [.instant [encode (.rxbyte .transport 0xFE#8)]] } = .next t :=
  ⟨_, by constructor <;> decide, rfl⟩

theorem witness_ControllerInvariantIsKept :
    ∃ t : State, TxcOk { waiting with inbox := [.instant [encode .tick]] } ∧
      step { waiting with inbox := [.instant [encode .tick]] } = .next t :=
  ⟨_, by constructor <;> decide, rfl⟩

theorem witness_BuffersStayCanonical :
    ∃ t : State, MemoryOk { inPayload 0#16 3#16 with inbox := [.instant [encode (.rxbyte .transport 0xFE#8)]] } ∧
      step { inPayload 0#16 3#16 with inbox := [.instant [encode (.rxbyte .transport 0xFE#8)]] } = .next t :=
  ⟨_, by constructor <;> decide, rfl⟩

theorem witness_AccumulatorIsTheRecomputedChecksum :
    (∃ t : State, FramerOk { inFcs with inbox := [.instant [encode (.rxbyte .transport 0x26#8)]] } ∧
      MemoryOk { inFcs with inbox := [.instant [encode (.rxbyte .transport 0x26#8)]] } ∧
      AccumulatorOk { inFcs with inbox := [.instant [encode (.rxbyte .transport 0x26#8)]] } ∧
      step { inFcs with inbox := [.instant [encode (.rxbyte .transport 0x26#8)]] } = .next t) ∧
    (AccumulatorOk inFcs ∧ delivered .transport inFcs = true ∧ inFcs.rxState = .readFcs) :=
  ⟨⟨_, by constructor <;> decide, by constructor <;> decide, by unfold AccumulatorOk; decide, rfl⟩,
   accumulatorOk_inFcs, by decide, by decide⟩

theorem witness_TxbufHoldsThePacketOfTheWindow :
    ∃ t : State, MemoryOk { waiting with inbox := [.instant [encode .tick]] } ∧
      PacketOk { waiting with inbox := [.instant [encode .tick]] } ∧
      step { waiting with inbox := [.instant [encode .tick]] } = .next t :=
  ⟨_, by constructor <;> decide, fun _ => ⟨[], by decide, by decide⟩, rfl⟩

theorem witness_StepNeverFaults : FramerOk (inPayload 0#16 3#16) ∧ TxcOk (inPayload 0#16 3#16) ∧ FramerOk draining ∧ TxcOk draining :=
  ⟨framerOk_inPayload, by constructor <;> decide, by constructor <;> decide, txcOk_draining⟩

end Sys2Proof.Tests
end

/-! # Scope (00_scope R9, R10): one step runs one decoded instruction, and the two agents do not read each other. -/

namespace Sys2Proof.Machine

/-! ## The word a step takes (00_scope R9, 42_txc R181) -/

/-- The word taken is run where no held SEND goes before it. -/
theorem nextWork_word {s : State} {w : PortWord} {ws : List PortWord} {rest : List Slot}
    (hin : s.inbox = .instant (w :: ws) :: rest)
    (hfirst : priority (takeFirst w ws).1 ≠ sendPriority ∨ s.held = [] ∨ s.txState ≠ .idle) :
    nextWork s = .word (takeFirst w ws).1 { s with inbox := .instant (takeFirst w ws).2 :: rest } := by
  simp only [nextWork, hin]
  split_ifs with hsend
  · exact heldOr_other (hfirst.resolve_left (not_not_intro hsend)) _
  · rfl

theorem runWork_word_ok {w : PortWord} {i : Instr} (hdec : decode w = .ok i) (s u : State) :
    runWork s (.word w u) = exec i u := by
  simp only [runWork, hdec]

/-- A step runs the instruction of the first word of the instant, in the state without that word. -/
theorem step_word {s : State} {w : PortWord} {ws : List PortWord} {rest : List Slot} {i : Instr}
    (hin : s.inbox = .instant (w :: ws) :: rest)
    (hfirst : priority (takeFirst w ws).1 ≠ sendPriority ∨ s.held = [] ∨ s.txState ≠ .idle)
    (hdec : decode (takeFirst w ws).1 = .ok i) :
    step s = exec i { s with inbox := .instant (takeFirst w ws).2 :: rest } := by
  rw [step, nextWork_word hin hfirst, runWork_word_ok hdec]

theorem decodeTableWord_eq_some {nbits w : Nat} {i : Instr} (h : decodeTableWord nbits w = some i) :
    decode (tableWord nbits w) = .ok i := by
  unfold decodeTableWord at h
  split at h
  · next j hj => rw [hj, Option.some.inj h]
  · cases h

/-- `withFetchWord` leaves no held SEND that goes before the word it places. -/
theorem withFetchWord_first (s : State) (nbits w : Nat) :
    priority (tableWord nbits w) ≠ sendPriority ∨ (s.withFetchWord nbits w).held = [] := by
  by_cases hsend : priority (tableWord nbits w) = sendPriority
  · exact .inr (if_pos hsend)
  · exact .inl hsend

/-- Settles O6: a word offered alone is the one taken, and `withFetchWord` offers its word alone. -/
theorem stepRunsTheDecodedInstruction : Obligations.StepRunsTheDecodedInstruction := by
  refine ⟨fun s w rest i hin hdec hfirst => step_word hin hfirst hdec, fun s nbits w i htab => ?_⟩
  exact step_word (s := s.withFetchWord nbits w) rfl ((withFetchWord_first s nbits w).imp_right .inl)
    (decodeTableWord_eq_some htab)

/-! ## One agent's registers in another state's surroundings

That an agent reads nothing but its own registers and the configuration is said by putting these into any other state and
running the same event there. -/

/-- `o` with the framer's registers and the configuration of `s`. -/
def State.withFramerOf (o s : State) : State :=
  { o with
    rxState := s.rxState, rxIdx := s.rxIdx, rxLen := s.rxLen, rxType := s.rxType, rxSubsys := s.rxSubsys
    rxCmd := s.rxCmd, rxAcc := s.rxAcc, closed := s.closed, rxbuf := s.rxbuf
    cfgLenBytes := s.cfgLenBytes, cfgHasTransport := s.cfgHasTransport }

/-- `o` with the controller's registers, what the model keeps of its surroundings, and the configuration of `s`. -/
def State.withTxcOf (o s : State) : State :=
  { o with
    txState := s.txState, txTimer := s.txTimer, txBp := s.txBp, txObs := s.txObs, txErrValid := s.txErrValid
    txErr := s.txErr, txType := s.txType, txSubsys := s.txSubsys, txCmd := s.txCmd, txPktlen := s.txPktlen
    txbuf := s.txbuf, held := s.held, answers := s.answers, draws := s.draws
    cfgLenBytes := s.cfgLenBytes, cfgHasTransport := s.cfgHasTransport }

/-- States that agree on the framer's registers and the configuration differ in the surroundings only. -/
theorem withFramerOf_eq_self {s o : State} (hf : SameFramer s o) (hc : SameConfig s o) : o.withFramerOf s = o := by
  obtain ⟨h1, h2, h3, h4, h5, h6, h7, h8, h9⟩ := hf
  obtain ⟨h10, h11⟩ := hc
  simp only [State.withFramerOf, ← h1, ← h2, ← h3, ← h4, ← h5, ← h6, ← h7, ← h8, ← h9, ← h10, ← h11]

/-- States that agree on the controller's registers and the configuration differ in the surroundings only. -/
theorem withTxcOf_eq_self {s o : State} (hx : SameTxc s o) (hc : SameConfig s o) : o.withTxcOf s = o := by
  obtain ⟨h1, h2, h3, h4, h5, h6, h7, h8, h9, h10, h11, h12, h13, h14⟩ := hx
  obtain ⟨h15, h16⟩ := hc
  simp only [State.withTxcOf, ← h1, ← h2, ← h3, ← h4, ← h5, ← h6, ← h7, ← h8, ← h9, ← h10, ← h11, ← h12, ← h13,
    ← h14, ← h15, ← h16]

theorem sameFramer_withFramerOf (os : List Output) (o t : State) : SameFramer t (emit os (o.withFramerOf t)) := by
  constructor <;> rfl

theorem sameTxc_withFramerOf (os : List Output) (o t : State) : SameTxc o (emit os (o.withFramerOf t)) := by
  constructor <;> rfl

theorem sameTxc_withTxcOf (os : List Output) (o t : State) : SameTxc t (emit os (o.withTxcOf t)) := by
  constructor <;> rfl

theorem sameFramer_withTxcOf (os : List Output) (o t : State) : SameFramer o (emit os (o.withTxcOf t)) := by
  constructor <;> rfl

theorem emit_nil (s : State) : emit [] s = s := by
  simp [emit]

theorem emit_emit (os ps : List Output) (s : State) : emit ps (emit os s) = emit (os ++ ps) s := by
  simp [emit]

/-- The run of `f` from `s` to `t` appends outputs that depend on the registers `put` carries over alone, and does to these
registers the same in any other state `o`, which keeps the rest of its own. -/
def RunsAlike (put : State → State → State) (f : State → Out) (s t : State) : Prop :=
  ∃ os, t.outputs = s.outputs ++ os ∧ ∀ o, f (put o s) = .next (emit os (put o t))

/-- A run that emits nothing. -/
theorem RunsAlike.of_quiet {put : State → State → State} {f : State → Out} {s t : State}
    (hout : t.outputs = s.outputs) (h : ∀ o, f (put o s) = .next (put o t)) : RunsAlike put f s t :=
  ⟨[], by rw [hout, List.append_nil], fun o => by rw [h, emit_nil]⟩

/-- Two runs one after the other. -/
theorem RunsAlike.andThen {put : State → State → State} (hput : ∀ os o u, put (emit os o) u = emit os (put o u))
    {f g : State → Out} {s t u : State} (hf : RunsAlike put f s t) (hg : RunsAlike put g t u) :
    RunsAlike put (fun v => Machine.andThen (f v) g) s u := by
  obtain ⟨os, hos, hf⟩ := hf
  obtain ⟨ps, hps, hg⟩ := hg
  refine ⟨os ++ ps, by rw [hps, hos, List.append_assoc], fun o => ?_⟩
  calc Machine.andThen (f (put o s)) g
      = g (put (emit os o) t) := by rw [hf, andThen_next, hput]
    _ = .next (emit (os ++ ps) (put o u)) := by rw [hg, hput, emit_emit]

/-! ## The framer reads only its own registers (00_scope R10, 20_memory R75) -/

theorem rxSeekSof_withFramerOf (b : Byte) (o s : State) :
    rxSeekSof b (o.withFramerOf s) = o.withFramerOf (rxSeekSof b s) := by
  by_cases hb : b = Config.sof
  · subst hb; rfl
  · rw [rxSeekSof_discard hb, rxSeekSof_discard hb]

theorem rxReadLength_withFramerOf (b : Byte) (o s : State) :
    rxReadLength b (o.withFramerOf s) = o.withFramerOf (rxReadLength b s) := by
  simp only [rxReadLength, apply_ite o.withFramerOf]
  rfl

theorem rxReadCmdid_withFramerOf (b : Byte) (o s : State) :
    rxReadCmdid b (o.withFramerOf s) = o.withFramerOf (rxReadCmdid b s) := by
  simp only [rxReadCmdid, apply_ite o.withFramerOf]
  rfl

theorem rxReadPayload_withFramerOf {b : Byte} {s t : State} (h : rxReadPayload b s = .next t) (o : State) :
    rxReadPayload b (o.withFramerOf s) = .next (o.withFramerOf t) := by
  unfold rxReadPayload at h
  split_ifs at h with hidx hlast
  · cases h; exact (if_pos hidx).trans (if_pos hlast)
  · cases h; exact (if_pos hidx).trans (if_neg hlast)

/-- READ_FCS is the one framer state that emits: the record goes to the surroundings. -/
theorem rxReadFcs_withFramerOf (b : Byte) (o s : State) :
    rxReadFcs b (o.withFramerOf s) = emit [.data (rxRecord b s)] (o.withFramerOf (rxReadFcs b s)) := rfl

theorem framerStep_withFramerOf {b : Byte} {s t : State} (h : framerStep b s = .next t) (o : State) :
    framerStep b (o.withFramerOf s) =
      .next (emit (if s.rxState = .readFcs then [.data (rxRecord b s)] else []) (o.withFramerOf t)) := by
  have hst : (o.withFramerOf s).rxState = s.rxState := rfl
  cases hs : s.rxState <;> simp only [framerStep, hst, hs, Host.Outcome.next.injEq, reduceCtorEq, if_true, if_false,
    emit_nil] at h ⊢
  case seekSof => rw [← h, rxSeekSof_withFramerOf]
  case readLength => rw [← h, rxReadLength_withFramerOf]
  case readCmd0 => rw [← h]; rfl
  case readCmdid => rw [← h, rxReadCmdid_withFramerOf]
  case readPayload => exact rxReadPayload_withFramerOf h o
  case readFcs => rw [← h, rxReadFcs_withFramerOf]

theorem framerStep_runsAlike {b : Byte} {s t : State} (h : framerStep b s = .next t) :
    RunsAlike State.withFramerOf (framerStep b) s t :=
  ⟨_, framerStep_outputs h, framerStep_withFramerOf h⟩

/-- A transport byte offered after CLOSE changes nothing (41_framer R151). -/
theorem rxFrom_dropped {s : State} (hT : s.cfgHasTransport = true) (hcl : s.closed = true) (b : Byte) :
    rxFrom .transport b s = .next s := by
  simp [rxFrom, delivery, delivered, hT, hcl]

theorem rxFrom_runsAlike {src : Src} {b : Byte} {s t : State} (h : rxFrom src b s = .next t) :
    RunsAlike State.withFramerOf (rxFrom src b) s t := by
  rcases rxFrom_cases h with ⟨hdel, hstep⟩ | ⟨rfl, hT, hcl, rfl⟩
  · obtain ⟨os, hos, hrun⟩ := framerStep_runsAlike hstep
    refine ⟨os, hos, fun o => ?_⟩
    have hdel' : delivered src (o.withFramerOf s) = true := (delivered_congr src rfl rfl).trans hdel
    rw [rxFrom_delivered hdel', hrun]
  · exact .of_quiet rfl fun o => rxFrom_dropped (s := o.withFramerOf _) hT hcl b

theorem feedFrom_runsAlike {src : Src} {bs : Bytes} {s t : State} (h : feedFrom src bs s = .next t) :
    RunsAlike State.withFramerOf (feedFrom src bs) s t := by
  induction bs generalizing s with
  | nil =>
    cases h
    exact .of_quiet rfl fun _ => rfl
  | cons b bs ih =>
    obtain ⟨u, hbyte, hrest⟩ := andThen_eq_next h
    exact (rxFrom_runsAlike hbyte).andThen (fun _ _ _ => rfl) (ih hrest)

theorem execReceive_runsAlike {arg : ByteArg} {s t : State} (h : execReceive arg s = .next t) :
    RunsAlike State.withFramerOf (execReceive arg) s t := by
  unfold execReceive at h
  split_ifs at h with harg hcl
  · cases h
    exact ⟨[.done .invalidArgument], rfl, fun o => if_pos harg⟩
  · obtain ⟨os, hos, hrun⟩ := feedFrom_runsAlike h
    exact ⟨os, hos, fun o => (if_neg harg).trans ((if_neg hcl).trans (hrun o))⟩

/-- A framer event does the same to the framer's registers, and emits the same, in any surroundings. -/
theorem exec_framer_runsAlike {i : Instr} (hi : isFramerEvent i = true) {s t : State} (h : exec i s = .next t) :
    RunsAlike State.withFramerOf (exec i) s t := by
  cases i <;> simp only [isFramerEvent, Bool.false_eq_true] at hi
  case rxbyte src b => exact rxFrom_runsAlike h
  case receive arg => exact execReceive_runsAlike h

/-- Settles O48: the second state is its own surroundings with the framer's registers of the first. -/
theorem framerIgnoresTheTransmitSide : Obligations.FramerIgnoresTheTransmitSide := by
  intro i s s' t hi hframer hconfig h
  obtain ⟨os, hos, hrun⟩ := exec_framer_runsAlike hi h
  have hexec : exec i s' = .next (emit os (s'.withFramerOf t)) := by
    rw [← hrun s', withFramerOf_eq_self hframer hconfig]
  exact ⟨_, os, hexec, sameFramer_withFramerOf os s' t, sameTxc_withFramerOf os s' t, hos, rfl⟩

/-! ## The controller's meanings, one equation per case -/

theorem finish_error {s : State} (herr : s.txErrValid = true) :
    finish s = .next (raiseFailure .transportError s) := if_pos herr

theorem finish_success {s : State} (herr : s.txErrValid = false) (hlen : s.txPktlen.toNat ≤ 65541) :
    finish s = .next (emit [.flushed s.txType s.txSubsys s.txCmd,
      .done (.ok (s.txbuf.readRange 0 s.txPktlen.toNat))] (release s)) := by
  simp [finish, succeed, herr, Config.txbufSize, hlen]

theorem execSend_busy {s : State} (hst : s.txState ≠ .idle) (d : SendDesc) : execSend d s = .next (hold d s) :=
  if_pos hst

theorem execSend_badArgs {d : SendDesc} {s : State} (hst : s.txState = .idle) (hadm : admitted d s = true)
    (hargs : argsOk d = false) : execSend d s = .next (raiseFailure .invalidArgument s) := by
  simp [execSend, hst, hadm, hargs]

theorem execSend_badType {d : SendDesc} {s : State} (hst : s.txState = .idle) (hadm : admitted d s = true)
    (hargs : argsOk d = true) (htype : 7 < d.type.toNat) :
    execSend d s = .next (raiseFailure .unresolvedCommand s) := by
  simp [execSend, hst, hadm, hargs, resolveType, Nat.not_le.mpr htype]

theorem execSend_write {d : SendDesc} {s : State} (hst : s.txState = .idle) (hadm : admitted d s = true)
    (hargs : argsOk d = true) (htype : d.type.toNat ≤ 7) (hT : s.cfgHasTransport = true) :
    execSend d s = .next (sendWrite d (BitVec.ofNat 3 d.type.toNat) s) := by
  simp [execSend, hst, hadm, hargs, resolveType, htype, hT]

theorem execSend_encodeOnly {d : SendDesc} {s : State} (hst : s.txState = .idle) (hadm : admitted d s = true)
    (hargs : argsOk d = true) (htype : d.type.toNat ≤ 7) (hT : s.cfgHasTransport = false) :
    execSend d s = .next (sendEncodeOnly d (BitVec.ofNat 3 d.type.toNat) s) := by
  simp [execSend, hst, hadm, hargs, resolveType, htype, hT]

/-- WRACK outside its wait (42_txc R194). -/
theorem execWrack_ignored {s : State} (hst : s.txState ≠ .waitWrack) : execWrack s = .next s := by
  unfold execWrack
  split
  · contradiction
  · rfl
  · rfl

theorem execWrack_backpressure {s : State} (hst : s.txState = .waitWrack) (hbp : s.txBp = true) :
    execWrack s = .next (enterDrainWait s) := by
  simp [execWrack, hst, hbp]

theorem execWrack_finish {s : State} (hst : s.txState = .waitWrack) (hbp : s.txBp = false) :
    execWrack s = finish s := by
  simp [execWrack, hst, hbp]

/-- DRAIN outside its wait (42_txc R194). -/
theorem execDrain_ignored {s : State} (hst : s.txState ≠ .waitDrain) : execDrain s = .next s := by
  unfold execDrain
  split
  · contradiction
  · rfl
  · rfl

theorem execDrain_finish {s : State} (hst : s.txState = .waitDrain) : execDrain s = finish s := by
  simp [execDrain, hst]

theorem execTerr_unobserved {s : State} (hobs : s.txObs = false) (e : Byte) : execTerr e s = .next s := by
  simp [execTerr, hobs]

theorem execTerr_captured {s : State} (hobs : s.txObs = true) (e : Byte) :
    execTerr e s = .next (captureError e s) := if_pos hobs

theorem execTick_idle {s : State} (hst : s.txState = .idle) : execTick s = .next s := by
  simp [execTick, hst]

/-- TICK in a wait (42_txc R191, R192). -/
theorem execTick_waiting {s : State} (hst : s.txState ≠ .idle) :
    execTick s = if 2 ≤ s.txTimer.toNat then .next { s with txTimer := s.txTimer - 1#11 }
      else .next (raiseFailure .timeout s) := by
  unfold execTick
  split
  · contradiction
  · rfl
  · rfl

/-! ## The controller reads only its own registers (00_scope R10) -/

theorem raiseFailure_withTxcOf (k : Failure) (o s : State) :
    raiseFailure k (o.withTxcOf s) = emit [.done (k.done s)] (o.withTxcOf (raiseFailure k s)) := by
  cases k <;> rfl

theorem takeAnswer_withTxcOf (o s : State) : takeAnswer (o.withTxcOf s) = o.withTxcOf (takeAnswer s) := by
  have hans : (o.withTxcOf s).answers = s.answers := rfl
  cases ha : s.answers <;> simp only [takeAnswer, hans, ha] <;> rfl

theorem sendWrite_outputs (d : SendDesc) (c : BitVec 3) (s : State) :
    (sendWrite d c s).outputs = s.outputs ++ [.txWrite (packetOf d c s)] := by
  simp [sendWrite]

theorem sendWrite_withTxcOf (d : SendDesc) (c : BitVec 3) (o s : State) :
    sendWrite d c (o.withTxcOf s) = emit [.txWrite (packetOf d c s)] (o.withTxcOf (sendWrite d c s)) := by
  simp only [sendWrite, takeAnswer_withTxcOf]
  rfl

/-- A run that ends in a failure of the block: the one DONE event reads the controller's registers alone. -/
theorem raiseFailure_runsAlike {f : State → Out} {s : State} (k : Failure)
    (h : ∀ o, f (State.withTxcOf o s) = .next (raiseFailure k (o.withTxcOf s))) :
    RunsAlike State.withTxcOf f s (raiseFailure k s) :=
  ⟨[.done (k.done s)], raiseFailure_outputs k s, fun o => by rw [h, raiseFailure_withTxcOf]⟩

theorem finish_runsAlike {s t : State} (h : finish s = .next t) : RunsAlike State.withTxcOf finish s t := by
  rcases finish_cases h with ⟨herr, rfl⟩ | ⟨herr, hlen, rfl⟩
  · exact raiseFailure_runsAlike _ fun o => finish_error (s := o.withTxcOf s) herr
  · exact ⟨_, rfl, fun o => finish_success (s := o.withTxcOf s) herr hlen⟩

theorem execSend_runsAlike {d : SendDesc} {s t : State} (h : execSend d s = .next t) :
    RunsAlike State.withTxcOf (execSend d) s t := by
  rcases execSend_cases h with ⟨hst, rfl⟩ | ⟨hst, hadm, hargs, rfl⟩ | ⟨hst, hadm, hargs, htype, rfl⟩ |
    ⟨hst, hadm, hargs, htype, hT, rfl⟩ | ⟨hst, hadm, hargs, htype, hT, rfl⟩
  · exact .of_quiet rfl fun o => execSend_busy (s := o.withTxcOf s) hst d
  · exact raiseFailure_runsAlike _ fun o => execSend_badArgs (s := o.withTxcOf s) hst hadm hargs
  · exact raiseFailure_runsAlike _ fun o => execSend_badType (s := o.withTxcOf s) hst hadm hargs htype
  · refine ⟨_, sendWrite_outputs d _ s, fun o => ?_⟩
    rw [execSend_write (s := o.withTxcOf s) hst hadm hargs htype hT, sendWrite_withTxcOf]
  · exact ⟨_, rfl, fun o => execSend_encodeOnly (s := o.withTxcOf s) hst hadm hargs htype hT⟩

theorem execWrack_runsAlike {s t : State} (h : execWrack s = .next t) : RunsAlike State.withTxcOf execWrack s t := by
  rcases execWrack_cases h with ⟨hst, rfl⟩ | ⟨hst, hbp, rfl⟩ | ⟨hst, hbp, hfin⟩
  · exact .of_quiet rfl fun o => execWrack_ignored (s := o.withTxcOf _) hst
  · exact .of_quiet rfl fun o => execWrack_backpressure (s := o.withTxcOf s) hst hbp
  · obtain ⟨os, hos, hrun⟩ := finish_runsAlike hfin
    exact ⟨os, hos, fun o => (execWrack_finish (s := o.withTxcOf s) hst hbp).trans (hrun o)⟩

theorem execDrain_runsAlike {s t : State} (h : execDrain s = .next t) : RunsAlike State.withTxcOf execDrain s t := by
  rcases execDrain_cases h with ⟨hst, rfl⟩ | ⟨hst, hfin⟩
  · exact .of_quiet rfl fun o => execDrain_ignored (s := o.withTxcOf _) hst
  · obtain ⟨os, hos, hrun⟩ := finish_runsAlike hfin
    exact ⟨os, hos, fun o => (execDrain_finish (s := o.withTxcOf s) hst).trans (hrun o)⟩

theorem execTerr_runsAlike {e : Byte} {s t : State} (h : execTerr e s = .next t) :
    RunsAlike State.withTxcOf (execTerr e) s t := by
  rcases execTerr_cases h with ⟨hobs, rfl⟩ | ⟨hobs, rfl⟩
  · exact .of_quiet rfl fun o => execTerr_unobserved (s := o.withTxcOf _) hobs e
  · exact .of_quiet rfl fun o => execTerr_captured (s := o.withTxcOf s) hobs e

theorem execTick_runsAlike {s t : State} (h : execTick s = .next t) : RunsAlike State.withTxcOf execTick s t := by
  rcases execTick_cases h with ⟨hst, rfl⟩ | ⟨hst, htwo, rfl⟩ | ⟨hst, hlast, rfl⟩
  · exact .of_quiet rfl fun o => execTick_idle (s := o.withTxcOf _) hst
  · exact .of_quiet rfl fun o => (execTick_waiting (s := o.withTxcOf s) hst).trans (if_pos htwo)
  · exact raiseFailure_runsAlike _ fun o =>
      (execTick_waiting (s := o.withTxcOf s) hst).trans (if_neg (Nat.not_le.mpr hlast))

/-- A controller event does the same to the controller's registers, and emits the same, in any surroundings. -/
theorem exec_txc_runsAlike {i : Instr} (hi : isTxcEvent i = true) {s t : State} (h : exec i s = .next t) :
    RunsAlike State.withTxcOf (exec i) s t := by
  cases i <;> simp only [isTxcEvent, Bool.false_eq_true] at hi
  case send d => exact execSend_runsAlike h
  case wrack => exact execWrack_runsAlike h
  case drain => exact execDrain_runsAlike h
  case terr e => exact execTerr_runsAlike h
  case tick => exact execTick_runsAlike h

/-- Settles O49: the second state is its own surroundings with the controller's registers of the first. -/
theorem controllerIgnoresTheReceiveSide : Obligations.ControllerIgnoresTheReceiveSide := by
  intro i s s' t hi htxc hconfig h
  obtain ⟨os, hos, hrun⟩ := exec_txc_runsAlike hi h
  have hexec : exec i s' = .next (emit os (s'.withTxcOf t)) := by
    rw [← hrun s', withTxcOf_eq_self htxc hconfig]
  exact ⟨_, os, hexec, sameTxc_withTxcOf os s' t, sameFramer_withTxcOf os s' t, hos, rfl⟩

end Sys2Proof.Machine

/-! # State (10_state): what reset and every step keep, the frame position, and the moves of `tx_state`. -/

namespace Sys2Proof.Machine

/-! ## A newly made block (10_state R46, 70_reset R262) -/

/-- Settles O4. -/
theorem resetRegistersAreTheTable : Obligations.ResetRegistersAreTheTable := by
  simp only [Obligations.ResetRegistersAreTheTable, State.reset, Config.defaultHasTransport, and_self]

/-- What reset and a construction leave in the registers that the invariants read first: both agents at rest, nothing
received and both buffers unwritten. -/
structure AtRest (s : State) : Prop where
  rxState : s.rxState = .seekSof
  rxLen : s.rxLen = 0#16
  closed : s.closed = false
  rxbuf : s.rxbuf = []
  txState : s.txState = .idle
  txObs : s.txObs = false
  txbuf : s.txbuf = []

theorem atRest_reset : AtRest State.reset := by constructor <;> rfl

theorem atRest_of_construct {lb : Option Nat} {ht : Bool} {s t : State} (h : construct lb ht s = .next t) :
    AtRest t := by
  obtain ⟨c, rfl⟩ := construct_cases h
  constructor <;> rfl

theorem AtRest.framerOk {s : State} (h : AtRest s) : FramerOk s where
  lengthIndex := by simp [h.rxState]
  payloadIndex := by simp [h.rxState]
  shortLength := by simp [h.rxLen]
  closedAttached := by simp [h.closed]

/-- An idle controller without an observer meets the invariant, whatever the other registers hold. -/
theorem txcOk_of_idle {s : State} (hst : s.txState = .idle) (hobs : s.txObs = false) : TxcOk s where
  observer := by simp [hst, hobs]
  wrackTimer := by simp [hst]
  drainTimer := by simp [hst]
  drainBackpressure := by simp [hst]
  needsTransport := by simp [hst]
  packetLength := by simp [hst]

theorem AtRest.txcOk {s : State} (h : AtRest s) : TxcOk s := txcOk_of_idle h.txState h.txObs

theorem AtRest.memoryOk {s : State} (h : AtRest s) : MemoryOk s where
  rx := by rw [h.rxbuf]; rfl
  tx := by rw [h.txbuf]; rfl

theorem AtRest.accumulatorOk {s : State} (h : AtRest s) : AccumulatorOk s := fun hs => absurd h.rxState hs

theorem AtRest.packetOk {s : State} (h : AtRest s) : PacketOk s := fun hs => absurd h.txState hs

/-- Settles O51. -/
theorem resetMeetsTheInvariant : Obligations.ResetMeetsTheInvariant where
  framer := atRest_reset.framerOk
  txc := atRest_reset.txcOk
  memory := atRest_reset.memoryOk
  accumulator := atRest_reset.accumulatorOk
  packet := atRest_reset.packetOk

/-! ## The framer's counters (10_state R23, R24, 41_framer R157) -/

theorem lenBytes_congr {s t : State} (hc : SameConfig s t) : t.lenBytes = s.lenBytes := by
  rw [State.lenBytes, State.lenBytes, hc.lenBytes]

/-- The invariant reads the framer's registers and the configuration alone. -/
theorem framerOk_congr {s t : State} (hf : SameFramer s t) (hc : SameConfig s t) (h : FramerOk s) : FramerOk t where
  lengthIndex := by rw [hf.rxState, hf.rxIdx, lenBytes_congr hc]; exact h.lengthIndex
  payloadIndex := by rw [hf.rxState, hf.rxIdx, hf.rxLen]; exact h.payloadIndex
  shortLength := by rw [hc.lenBytes, hf.rxLen]; exact h.shortLength
  closedAttached := by rw [hf.closed, hc.hasTransport]; exact h.closedAttached

theorem framerOk_detach {s : State} (hT : s.cfgHasTransport = true) (h : FramerOk s) : FramerOk (detach s) where
  lengthIndex := h.lengthIndex
  payloadIndex := h.payloadIndex
  shortLength := h.shortLength
  closedAttached := fun _ => hT

/-- Settles O52: a delivered byte keeps the counters in range, CLOSE needs a transport, and nothing else writes what the
invariant reads. -/
theorem framerInvariantIsKept : Obligations.FramerInvariantIsKept := by
  intro s t hok h
  refine step_keeps ?offers ?construct ?exec hok h
  case offers => exact fun s ib hd => framerOk_congr (by constructor <;> rfl) (by constructor <;> rfl)
  case construct => exact fun _ _ _ _ h => (atRest_of_construct h).framerOk
  case exec =>
    exact exec_keeps_of_framer (fun _ _ _ hok h => framerStep_keeps_ok hok h) (fun _ _ => framerOk_congr)
      fun _ => framerOk_detach

/-! ## The bytes of the frame in progress (10_state R28, R29) -/

theorem consumed_readLength {s : State} (hs : s.rxState = .readLength) :
    consumed s = (lenfield s.cfgLenBytes s.rxLen).take s.rxIdx.toNat := by simp only [consumed, hs]

theorem consumed_readCmd0 {s : State} (hs : s.rxState = .readCmd0) :
    consumed s = lenfield s.cfgLenBytes s.rxLen := by simp only [consumed, hs]

theorem consumed_readCmdid {s : State} (hs : s.rxState = .readCmdid) :
    consumed s = lenfield s.cfgLenBytes s.rxLen ++ [packCmd0 s.rxType (s.rxSubsys.setWidth 8)] := by
  simp only [consumed, hs]

theorem consumed_readPayload {s : State} (hs : s.rxState = .readPayload) :
    consumed s = frameHeader s.cfgLenBytes s.rxLen s.rxType (s.rxSubsys.setWidth 8) s.rxCmd ++
      s.rxbuf.readRange 0 s.rxIdx.toNat := by simp only [consumed, hs]

theorem consumed_readFcs {s : State} (hs : s.rxState = .readFcs) :
    consumed s = frameHeader s.cfgLenBytes s.rxLen s.rxType (s.rxSubsys.setWidth 8) s.rxCmd ++ rxPayload s := by
  simp only [consumed, hs]

theorem consumed_congr {s t : State} (hf : SameFramer s t) (hc : SameConfig s t) : consumed t = consumed s := by
  simp only [consumed, rxPayload, hf.rxState, hf.rxIdx, hf.rxLen, hf.rxType, hf.rxSubsys, hf.rxCmd, hf.rxbuf,
    hc.lenBytes]

theorem loByte_setWidth (b : Byte) : loByte (b.setWidth 16) = b := by
  simp [loByte]

/-- A range one byte longer, after that byte's write. -/
theorem Memory.readRange_write_end {m : Memory} (hm : Memory.canonicalFrom 0 m = true) (n : Nat) (b : Byte) :
    (m.write n b).readRange 0 (n + 1) = m.readRange 0 n ++ [b] := by
  rw [Memory.readRange_succ, Memory.readRange_write_past m b (by omega), Nat.zero_add,
    Memory.read_write_same hm]

/-- A LENGTH byte, in each of the places that READ_LENGTH can be in. -/
theorem rxReadLength_consumed {s : State} (hok : FramerOk s) (hs : s.rxState = .readLength) (b : Byte) :
    consumed (rxReadLength b s) = consumed s ++ [b] := by
  rw [consumed_readLength hs]
  rcases readLength_cases hok hs with ⟨hc, hi⟩ | ⟨hc, hi⟩ | ⟨hc, hi⟩
  · rw [rxReadLength_only hc hi, consumed_readCmd0 rfl]
    simp [lenfield, hc, hi, loByte_setWidth]
  · rw [rxReadLength_low hc hi, consumed_readLength (by exact hs)]
    simp [lenfield, hc, hi, loByte_setWidth]
  · rw [rxReadLength_high hc hi, consumed_readCmd0 rfl]
    simp [lenfield, hc, hi]

theorem rxReadCmd0_consumed {s : State} (hs : s.rxState = .readCmd0) (b : Byte) :
    consumed (rxReadCmd0 b s) = consumed s ++ [b] := by
  rw [consumed_readCmd0 hs, consumed_readCmdid rfl]
  simp [rxReadCmd0]

theorem rxReadCmdid_consumed {s : State} (hs : s.rxState = .readCmdid) (b : Byte) :
    consumed (rxReadCmdid b s) = consumed s ++ [b] := by
  rw [consumed_readCmdid hs]
  by_cases h0 : s.rxLen = 0#16
  · rw [rxReadCmdid_empty h0, consumed_readFcs rfl]
    simp [frameHeader, rxPayload, h0]
  · rw [rxReadCmdid_payload h0, consumed_readPayload rfl]
    simp [frameHeader]

theorem rxReadLength_rxAcc (b : Byte) (s : State) : (rxReadLength b s).rxAcc = absorb s.rxAcc b := by
  simp only [rxReadLength, apply_ite State.rxAcc, ite_self]

theorem rxReadCmdid_rxAcc (b : Byte) (s : State) : (rxReadCmdid b s).rxAcc = absorb s.rxAcc b := by
  simp only [rxReadCmdid, apply_ite State.rxAcc, ite_self]

/-- The index after the next payload byte does not wrap. -/
theorem rxIdx_succ_toNat {s : State} (h : s.rxIdx.toNat < Config.rxbufSize) :
    (s.rxIdx + 1#16).toNat = s.rxIdx.toNat + 1 := by
  simp only [Config.rxbufSize] at h
  simp only [BitVec.toNat_add, BitVec.toNat_ofNat]
  omega

/-- A byte inside a frame joins the consumed bytes, and the accumulator absorbs it. -/
theorem framerStep_absorbs {b : Byte} {s t : State} (hok : FramerOk s)
    (hbuf : Memory.canonicalFrom 0 s.rxbuf = true) (hsof : s.rxState ≠ .seekSof) (hfcs : s.rxState ≠ .readFcs)
    (h : framerStep b s = .next t) : t.rxAcc = absorb s.rxAcc b ∧ consumed t = consumed s ++ [b] := by
  rcases framerStep_cases h with ⟨hs, -⟩ | ⟨hs, rfl⟩ | ⟨hs, rfl⟩ | ⟨hs, rfl⟩ | ⟨hs, hidx, hlast | hmore⟩ | ⟨hs, -⟩
  · exact absurd hs hsof
  · exact ⟨rxReadLength_rxAcc b s, rxReadLength_consumed hok hs b⟩
  · exact ⟨rfl, rxReadCmd0_consumed hs b⟩
  · exact ⟨rxReadCmdid_rxAcc b s, rxReadCmdid_consumed hs b⟩
  · obtain ⟨hlen, rfl⟩ := hlast
    refine ⟨rfl, ?_⟩
    rw [consumed_readFcs rfl, consumed_readPayload hs, List.append_assoc, ← Memory.readRange_write_end hbuf, hlen]
    rfl
  · obtain ⟨-, rfl⟩ := hmore
    refine ⟨rfl, ?_⟩
    rw [consumed_readPayload (by exact hs), consumed_readPayload hs, rxIdx_succ_toNat hidx,
      Memory.readRange_write_end hbuf, List.append_assoc]
  · exact absurd hs hfcs

/-- SOF clears the accumulator, with no byte consumed after it; a discarded byte leaves the framer outside a frame. -/
theorem rxSeekSof_accumulatorOk {s : State} (hs : s.rxState = .seekSof) (b : Byte) :
    AccumulatorOk (rxSeekSof b s) := by
  by_cases hb : b = Config.sof
  · subst hb
    intro _
    rw [rxSeekSof_sof, consumed_readLength rfl]
    rfl
  · rw [rxSeekSof_discard hb]
    exact fun hne => absurd hs hne

/-- A delivered byte keeps RXBUF canonical. -/
theorem framerStep_keeps_canonical {b : Byte} {s t : State} (hbuf : Memory.canonicalFrom 0 s.rxbuf = true)
    (h : framerStep b s = .next t) : Memory.canonicalFrom 0 t.rxbuf = true := by
  rcases framerStep_cases h with ⟨-, rfl⟩ | ⟨-, rfl⟩ | ⟨-, rfl⟩ | ⟨-, rfl⟩ | ⟨-, -, hpay⟩ | ⟨-, rfl⟩
  · unfold rxSeekSof; split <;> exact hbuf
  · simpa only [rxReadLength, apply_ite State.rxbuf, ite_self] using hbuf
  · exact hbuf
  · simpa only [rxReadCmdid, apply_ite State.rxbuf, ite_self] using hbuf
  · obtain ⟨-, rfl⟩ | ⟨-, rfl⟩ := hpay <;> exact Memory.canonicalFrom_write hbuf b (Nat.zero_le _)
  · exact hbuf

/-- The accumulator's invariant with what it needs to be kept: a byte is appended to the frame's bytes only where the
counters are in range and RXBUF reads back what was written. -/
structure AccumulatorInv (s : State) : Prop where
  framer : FramerOk s
  canonical : Memory.canonicalFrom 0 s.rxbuf = true
  accumulator : AccumulatorOk s

theorem AtRest.accumulatorInv {s : State} (h : AtRest s) : AccumulatorInv s :=
  ⟨h.framerOk, Memory.canonical_of_wf h.memoryOk.rx, h.accumulatorOk⟩

theorem accumulatorInv_congr {s t : State} (hf : SameFramer s t) (hc : SameConfig s t) (h : AccumulatorInv s) :
    AccumulatorInv t where
  framer := framerOk_congr hf hc h.framer
  canonical := by rw [hf.rxbuf]; exact h.canonical
  accumulator := by
    unfold AccumulatorOk
    rw [consumed_congr hf hc, hf.rxState, hf.rxAcc]
    exact h.accumulator

theorem framerStep_keeps_accumulatorInv {b : Byte} {s t : State} (hinv : AccumulatorInv s)
    (h : framerStep b s = .next t) : AccumulatorInv t := by
  obtain ⟨hok, hbuf, hacc⟩ := hinv
  refine ⟨framerStep_keeps_ok hok h, framerStep_keeps_canonical hbuf h, ?_⟩
  by_cases hsof : s.rxState = .seekSof
  · simp only [framerStep, hsof, Host.Outcome.next.injEq] at h
    exact h ▸ rxSeekSof_accumulatorOk hsof b
  by_cases hfcs : s.rxState = .readFcs
  · simp only [framerStep, hfcs, Host.Outcome.next.injEq] at h
    subst h
    exact fun hne => absurd rfl hne
  obtain ⟨hstep, hcons⟩ := framerStep_absorbs hok hbuf hsof hfcs h
  intro _
  calc t.rxAcc = absorb s.rxAcc b := hstep
    _ = absorb (xorfold (consumed s)) b := by rw [hacc hsof]
    _ = xorfold (consumed t) := by rw [hcons, xorfold_snoc]

theorem accumulatorInv_detach {s : State} (hT : s.cfgHasTransport = true) (h : AccumulatorInv s) :
    AccumulatorInv (detach s) :=
  ⟨framerOk_detach hT h.framer, h.canonical, h.accumulator⟩

theorem step_keeps_accumulatorInv {s t : State} (hinv : AccumulatorInv s) (h : step s = .next t) :
    AccumulatorInv t := by
  refine step_keeps ?offers ?construct ?exec hinv h
  case offers => exact fun s ib hd => accumulatorInv_congr (by constructor <;> rfl) (by constructor <;> rfl)
  case construct => exact fun _ _ _ _ h => (atRest_of_construct h).accumulatorInv
  case exec =>
    exact exec_keeps_of_framer (fun _ _ _ => framerStep_keeps_accumulatorInv) (fun _ _ => accumulatorInv_congr)
      fun _ => accumulatorInv_detach

/-- The XOR of all bytes between SOF and FCS is the recomputed checksum of R28. -/
theorem xorfold_consumed_readFcs {s : State} (hs : s.rxState = .readFcs) : xorfold (consumed s) = rxCsum s := by
  rw [consumed_readFcs hs]
  rfl

theorem exec_rxbyte_delivered {src : Src} {s : State} (hd : delivered src s = true) (b : Byte) :
    exec (.rxbyte src b) s = framerStep b s := rxFrom_delivered hd b

/-- Settles O55: the accumulator's invariant holds together with the framer's counters and RXBUF's form. -/
theorem accumulatorIsTheRecomputedChecksum : Obligations.AccumulatorIsTheRecomputedChecksum := by
  constructor
  · intro s t hok hmem hacc h
    exact (step_keeps_accumulatorInv ⟨hok, Memory.canonical_of_wf hmem.rx, hacc⟩ h).accumulator
  · intro src b s hacc hd hs
    refine ⟨rxReadFcs b s, rxRecord b s, ?_, rfl, ?_⟩
    · rw [exec_rxbyte_delivered hd]
      simp only [framerStep, hs]
    · rw [hacc (by simp [hs]), xorfold_consumed_readFcs hs]
      rfl

/-! ## The frame position (10_state R43) -/

theorem framePos_seekSof {s : State} (hs : s.rxState = .seekSof) : s.framePos = 0 := by
  simp only [State.framePos, hs]

theorem framePos_readLength {s : State} (hs : s.rxState = .readLength) : s.framePos = 1 + s.rxIdx.toNat := by
  simp only [State.framePos, hs]

theorem framePos_readCmd0 {s : State} (hs : s.rxState = .readCmd0) : s.framePos = 1 + s.lenBytes := by
  simp only [State.framePos, hs]

theorem framePos_readCmdid {s : State} (hs : s.rxState = .readCmdid) : s.framePos = 2 + s.lenBytes := by
  simp only [State.framePos, hs]

theorem framePos_readPayload {s : State} (hs : s.rxState = .readPayload) :
    s.framePos = 3 + s.lenBytes + s.rxIdx.toNat := by
  simp only [State.framePos, hs]

theorem framePos_readFcs {s : State} (hs : s.rxState = .readFcs) :
    s.framePos = 3 + s.lenBytes + s.rxLen.toNat := by
  simp only [State.framePos, hs]

theorem rxReadLength_framePos {s : State} (hok : FramerOk s) (hs : s.rxState = .readLength) (b : Byte) :
    (rxReadLength b s).framePos = s.framePos + 1 := by
  rw [framePos_readLength hs]
  rcases readLength_cases hok hs with ⟨hc, hi⟩ | ⟨hc, hi⟩ | ⟨hc, hi⟩
  · rw [rxReadLength_only hc hi, framePos_readCmd0 rfl]
    simp [State.lenBytes, hc, hi]
  · rw [rxReadLength_low hc hi, framePos_readLength (by exact hs)]
    simp [hi]
  · rw [rxReadLength_high hc hi, framePos_readCmd0 rfl]
    simp [State.lenBytes, hc, hi]

theorem rxReadCmdid_framePos {s : State} (hs : s.rxState = .readCmdid) (b : Byte) :
    (rxReadCmdid b s).framePos = s.framePos + 1 := by
  rw [framePos_readCmdid hs]
  by_cases h0 : s.rxLen = 0#16
  · rw [rxReadCmdid_empty h0, framePos_readFcs rfl]
    simp only [State.lenBytes, h0, BitVec.toNat_ofNat]
    omega
  · rw [rxReadCmdid_payload h0, framePos_readPayload rfl]
    simp only [State.lenBytes, BitVec.toNat_ofNat]
    omega

/-- A byte that continues a frame moves the position on by one. -/
theorem framerStep_framePos {b : Byte} {s t : State} (hok : FramerOk s) (hsof : s.rxState ≠ .seekSof)
    (hfcs : s.rxState ≠ .readFcs) (h : framerStep b s = .next t) : t.framePos = s.framePos + 1 := by
  rcases framerStep_cases h with ⟨hs, -⟩ | ⟨hs, rfl⟩ | ⟨hs, rfl⟩ | ⟨hs, rfl⟩ | ⟨hs, hidx, hlast | hmore⟩ | ⟨hs, -⟩
  · exact absurd hs hsof
  · exact rxReadLength_framePos hok hs b
  · rw [framePos_readCmd0 hs, framePos_readCmdid rfl]
    simp only [State.lenBytes, rxReadCmd0]
    omega
  · exact rxReadCmdid_framePos hs b
  · obtain ⟨hlen, rfl⟩ := hlast
    rw [framePos_readPayload hs, framePos_readFcs rfl, ← hlen]
    rfl
  · obtain ⟨-, rfl⟩ := hmore
    rw [framePos_readPayload hs, framePos_readPayload (by exact hs), rxIdx_succ_toNat hidx]
    rfl
  · exact absurd hs hfcs

/-- Settles O16, one clause for each way a byte can stand to a frame. -/
theorem framePositionCountsDeliveredBytes : Obligations.FramePositionCountsDeliveredBytes := by
  intro src b s t hok hd h
  rw [exec_rxbyte_delivered hd] at h
  refine ⟨fun hs hb => ?_, fun hs hb => ?_, fun hs => ?_, fun hsof hfcs => framerStep_framePos hok hsof hfcs h⟩
  · simp only [framerStep, hs, rxSeekSof_discard hb, Host.Outcome.next.injEq] at h
    exact ⟨framePos_seekSof hs, h ▸ framePos_seekSof hs⟩
  · simp only [framerStep, hs, Host.Outcome.next.injEq] at h
    subst hb h
    exact ⟨framePos_seekSof hs, congrArg State.framePos (rxSeekSof_sof s)⟩
  · simp only [framerStep, hs, Host.Outcome.next.injEq] at h
    exact ⟨framePos_readFcs hs, h ▸ framePos_seekSof rfl⟩

/-! ## The controller's registers (10_state R31, R33, R36) -/

/-- What the controller's invariant reads. -/
structure SameWindow (s t : State) : Prop where
  txState : t.txState = s.txState
  txTimer : t.txTimer = s.txTimer
  txBp : t.txBp = s.txBp
  txObs : t.txObs = s.txObs
  txPktlen : t.txPktlen = s.txPktlen
  config : SameConfig s t

theorem TxcOk.of_sameWindow {s t : State} (h : TxcOk s) (hw : SameWindow s t) : TxcOk t where
  observer := by rw [hw.txObs, hw.txState]; exact h.observer
  wrackTimer := by rw [hw.txState, hw.txTimer]; exact h.wrackTimer
  drainTimer := by rw [hw.txState, hw.txTimer]; exact h.drainTimer
  drainBackpressure := by rw [hw.txState, hw.txBp]; exact h.drainBackpressure
  needsTransport := by rw [hw.txState, hw.config.hasTransport]; exact h.needsTransport
  packetLength := by rw [hw.txState, hw.txPktlen, lenBytes_congr hw.config]; exact h.packetLength

/-- An admitted payload is one that the LENGTH field can express. -/
theorem argBytes_length_le {d : SendDesc} {s : State} (hadm : admitted d s = true) :
    (argBytes d.payload).length ≤ maxLen s.cfgLenBytes := by
  cases hp : d.payload with
  | absent => exact Nat.zero_le _
  | bytes bs => simpa [admitted, argBytes, hp] using hadm
  | notBytes => exact Nat.zero_le _

/-- TXBUF holds the packet of every admitted SEND. -/
theorem packetOf_length_le {d : SendDesc} {s : State} (hadm : admitted d s = true) (c : BitVec 3) :
    (packetOf d c s).length ≤ 65541 :=
  encodeFrame_length_le (argBytes_length_le hadm) _ _ _

theorem lenBytes_add_four_le_packetOf (d : SendDesc) (c : BitVec 3) (s : State) :
    s.lenBytes + 4 ≤ (packetOf d c s).length := by
  simp only [packetOf, encodeFrame_length, State.lenBytes]
  omega

@[simp] theorem sendWrite_txState (d : SendDesc) (c : BitVec 3) (s : State) :
    (sendWrite d c s).txState = .waitWrack := rfl

@[simp] theorem sendWrite_txObs (d : SendDesc) (c : BitVec 3) (s : State) : (sendWrite d c s).txObs = true := rfl

@[simp] theorem sendWrite_txTimer (d : SendDesc) (c : BitVec 3) (s : State) :
    (sendWrite d c s).txTimer = Config.tWrack := rfl

@[simp] theorem sendWrite_txbuf (d : SendDesc) (c : BitVec 3) (s : State) :
    (sendWrite d c s).txbuf = s.txbuf.writeRange 0 (packetOf d c s) := rfl

/-- The packet's length fits `tx_pktlen`. -/
theorem sendWrite_txPktlen_toNat {d : SendDesc} {s : State} (hadm : admitted d s = true) (c : BitVec 3) :
    (sendWrite d c s).txPktlen.toNat = (packetOf d c s).length := by
  have hlen := packetOf_length_le hadm c
  simp only [sendWrite, emit_txPktlen, BitVec.toNat_ofNat]
  omega

theorem txcOk_sendWrite {d : SendDesc} {s : State} (hadm : admitted d s = true) (hT : s.cfgHasTransport = true)
    (c : BitVec 3) : TxcOk (sendWrite d c s) where
  observer := by simp
  wrackTimer := fun _ => by simp [Config.tWrack]
  drainTimer := by simp
  drainBackpressure := by simp
  needsTransport := fun _ => (sendWrite_frame d c s).config.hasTransport.trans hT
  packetLength := fun _ => by
    rw [sendWrite_txPktlen_toNat hadm, lenBytes_congr (sendWrite_frame d c s).config]
    exact ⟨lenBytes_add_four_le_packetOf d c s, packetOf_length_le hadm c⟩

/-- The drain wait begins only with backpressure (42_txc R188). -/
theorem txcOk_enterDrainWait {s : State} (hst : s.txState = .waitWrack) (hbp : s.txBp = true) (h : TxcOk s) :
    TxcOk (enterDrainWait s) where
  observer := by simp [h.observer, hst]
  wrackTimer := by simp
  drainTimer := fun _ => by simp [Config.tDrain]
  drainBackpressure := fun _ => hbp
  needsTransport := fun _ => h.needsTransport (by simp [hst])
  packetLength := fun _ => h.packetLength (by simp [hst])

/-- The tick that counts down leaves at least one unit (42_txc R191). -/
theorem txcOk_countDown {s : State} (htwo : 2 ≤ s.txTimer.toNat) (h : TxcOk s) :
    TxcOk { s with txTimer := s.txTimer - 1#11 } := by
  have hlt := s.txTimer.isLt
  have htimer : (s.txTimer - 1#11).toNat = s.txTimer.toNat - 1 := by
    simp only [BitVec.toNat_sub, BitVec.toNat_ofNat]
    omega
  constructor
  case observer => exact h.observer
  case wrackTimer =>
    intro hst
    have hbound := h.wrackTimer hst
    simp only [htimer]
    omega
  case drainTimer =>
    intro hst
    have hbound := h.drainTimer hst
    simp only [htimer]
    omega
  case drainBackpressure => exact h.drainBackpressure
  case needsTransport => exact h.needsTransport
  case packetLength => exact h.packetLength

/-- Settles O53: each single write of the controller keeps its registers in agreement. -/
theorem controllerInvariantIsKept : Obligations.ControllerInvariantIsKept := by
  intro s t hok h
  refine step_keeps ?offers ?construct ?exec hok h
  case offers => exact fun _ _ _ h => h.of_sameWindow ⟨rfl, rfl, rfl, rfl, rfl, rfl, rfl⟩
  case construct => exact fun _ _ _ _ h => (atRest_of_construct h).txcOk
  case exec =>
    apply exec_keeps_of_txc
    case hframe =>
      exact fun _ _ hx hc h => h.of_sameWindow ⟨hx.txState, hx.txTimer, hx.txBp, hx.txObs, hx.txPktlen, hc⟩
    case hemit => exact fun _ _ h => h.of_sameWindow ⟨rfl, rfl, rfl, rfl, rfl, rfl, rfl⟩
    case hrelease => exact fun _ _ => txcOk_of_idle rfl rfl
    case hhold => exact fun _ _ h => h.of_sameWindow ⟨rfl, rfl, rfl, rfl, rfl, rfl, rfl⟩
    case hwrite => exact fun _ _ _ _ hadm hT => txcOk_sendWrite hadm hT _
    case hdrain => exact fun _ h hst hbp => txcOk_enterDrainWait hst hbp h
    case hcapture => exact fun _ _ h _ => h.of_sameWindow ⟨rfl, rfl, rfl, rfl, rfl, rfl, rfl⟩
    case htick => exact fun _ h _ htwo => txcOk_countDown htwo h

/-! ## The packet of a send window (10_state R42) -/

/-- What the packet's invariant reads. -/
structure SamePacket (s t : State) : Prop where
  txType : t.txType = s.txType
  txSubsys : t.txSubsys = s.txSubsys
  txCmd : t.txCmd = s.txCmd
  txPktlen : t.txPktlen = s.txPktlen
  txbuf : t.txbuf = s.txbuf
  cfgLenBytes : t.cfgLenBytes = s.cfgLenBytes

/-- The packet's invariant with what it needs to be kept: TXBUF reads back what was written. -/
structure PacketInv (s : State) : Prop where
  canonical : Memory.canonicalFrom 0 s.txbuf = true
  packet : PacketOk s

theorem AtRest.packetInv {s : State} (h : AtRest s) : PacketInv s :=
  ⟨Memory.canonical_of_wf h.memoryOk.tx, h.packetOk⟩

/-- A write that opens no window and leaves the packet and the latched arguments alone. -/
theorem PacketInv.of_samePacket {s t : State} (h : PacketInv s) (hp : SamePacket s t)
    (hst : t.txState ≠ .idle → s.txState ≠ .idle) : PacketInv t where
  canonical := by rw [hp.txbuf]; exact h.canonical
  packet := by
    intro hne
    rw [hp.cfgLenBytes, hp.txbuf, hp.txPktlen, hp.txType, hp.txSubsys, hp.txCmd]
    exact h.packet (hst hne)

/-- Writing a sequence keeps the canonical form. -/
theorem Memory.canonicalFrom_writeRange {m : Memory} (hm : Memory.canonicalFrom 0 m = true) {a : Nat} (bs : Bytes) :
    Memory.canonicalFrom 0 (m.writeRange a bs) = true := by
  induction bs generalizing m a with
  | nil => exact hm
  | cons b bs ih => exact ih (Memory.canonicalFrom_write hm b (Nat.zero_le a))

/-- TXBUF reads back the packet that SEND writes. -/
theorem sendWrite_readRange {d : SendDesc} {s : State} (hbuf : Memory.canonicalFrom 0 s.txbuf = true)
    (hadm : admitted d s = true) (c : BitVec 3) :
    (sendWrite d c s).txbuf.readRange 0 (sendWrite d c s).txPktlen.toNat = packetOf d c s := by
  rw [sendWrite_txPktlen_toNat hadm, sendWrite_txbuf, Memory.readRange_writeRange hbuf]

theorem packetInv_sendWrite {d : SendDesc} {s : State} (h : PacketInv s) (hadm : admitted d s = true)
    (c : BitVec 3) : PacketInv (sendWrite d c s) where
  canonical := Memory.canonicalFrom_writeRange h.canonical _
  packet := by
    intro _
    have hcfg := (sendWrite_frame d c s).config.lenBytes
    refine ⟨argBytes d.payload, hcfg ▸ argBytes_length_le hadm, ?_⟩
    rw [sendWrite_readRange h.canonical hadm, hcfg]
    rfl

theorem step_keeps_packetInv {s t : State} (hinv : PacketInv s) (h : step s = .next t) : PacketInv t := by
  refine step_keeps ?offers ?construct ?exec hinv h
  case offers => exact fun _ _ _ h => h.of_samePacket (by constructor <;> rfl) id
  case construct => exact fun _ _ _ _ h => (atRest_of_construct h).packetInv
  case exec =>
    apply exec_keeps_of_txc
    case hframe =>
      intro s t hx hc h
      exact h.of_samePacket ⟨hx.txType, hx.txSubsys, hx.txCmd, hx.txPktlen, hx.txbuf, hc.lenBytes⟩
        (hx.txState ▸ id)
    case hemit => exact fun _ _ h => h.of_samePacket (by constructor <;> rfl) id
    case hrelease => exact fun _ h => h.of_samePacket (by constructor <;> rfl) fun hne => absurd rfl hne
    case hhold => exact fun _ _ h => h.of_samePacket (by constructor <;> rfl) id
    case hwrite => exact fun _ _ h _ hadm _ => packetInv_sendWrite h hadm _
    case hdrain => exact fun _ h hst _ => h.of_samePacket (by constructor <;> rfl) fun _ => by simp [hst]
    case hcapture => exact fun _ _ h _ => h.of_samePacket (by constructor <;> rfl) id
    case htick => exact fun _ h _ _ => h.of_samePacket (by constructor <;> rfl) id

/-- Settles O56: the window opens with the packet written, and nothing writes TXBUF or the latched arguments until it
closes. -/
theorem txbufHoldsThePacketOfTheWindow : Obligations.TxbufHoldsThePacketOfTheWindow := by
  intro s t hmem hpkt h
  exact (step_keeps_packetInv ⟨Memory.canonical_of_wf hmem.tx, hpkt⟩ h).packet

/-! ## The moves of `tx_state` (10_state R44, 42_txc R199) -/

/-- What is no event of the controller leaves `tx_state` alone. -/
theorem exec_txState_of_not_txc {i : Instr} (hi : isTxcEvent i = false) {s t : State} (h : exec i s = .next t) :
    t.txState = s.txState := by
  rcases exec_shape i s with ⟨src, bs, e⟩ | ⟨a, rfl⟩ | hx | rfl | hrow
  · rw [e] at h
    exact (feedFrom_frame h).txc.txState
  · simp only [exec, execReceive] at h
    split_ifs at h
    · cases h
      rfl
    · exact (feedFrom_frame h).txc.txState
  · simp [hi] at hx
  · obtain ⟨-, -, rfl⟩ := execClose_cases h
    rfl
  · obtain ⟨ds, rfl⟩ := statusRow_cases hrow h
    rfl

theorem finish_txState {s t : State} (h : finish s = .next t) : t.txState = .idle := by
  rcases finish_cases h with ⟨-, rfl⟩ | ⟨-, -, rfl⟩ <;> rfl

/-- SEND moves `tx_state` only from TX_IDLE to the first wait. -/
theorem execSend_moves {d : SendDesc} {s t : State} (h : execSend d s = .next t) (hne : t.txState ≠ s.txState) :
    s.txState = .idle ∧ t.txState = .waitWrack := by
  rcases execSend_cases h with ⟨-, rfl⟩ | ⟨-, -, -, rfl⟩ | ⟨-, -, -, -, rfl⟩ | ⟨hst, -, -, -, -, rfl⟩ |
    ⟨-, -, -, -, -, rfl⟩
  · exact absurd rfl hne
  · exact absurd rfl hne
  · exact absurd rfl hne
  · exact ⟨hst, rfl⟩
  · exact absurd rfl hne

/-- WRACK moves `tx_state` only out of its wait. -/
theorem execWrack_moves {s t : State} (h : execWrack s = .next t) (hne : t.txState ≠ s.txState) :
    s.txState = .waitWrack ∧ (t.txState = .waitDrain ∨ t.txState = .idle) := by
  rcases execWrack_cases h with ⟨-, rfl⟩ | ⟨hst, -, rfl⟩ | ⟨hst, -, hfin⟩
  · exact absurd rfl hne
  · exact ⟨hst, .inl rfl⟩
  · exact ⟨hst, .inr (finish_txState hfin)⟩

/-- DRAIN moves `tx_state` only by ending the drain wait. -/
theorem execDrain_moves {s t : State} (h : execDrain s = .next t) (hne : t.txState ≠ s.txState) :
    s.txState = .waitDrain ∧ t.txState = .idle := by
  rcases execDrain_cases h with ⟨-, rfl⟩ | ⟨hst, hfin⟩
  · exact absurd rfl hne
  · exact ⟨hst, finish_txState hfin⟩

theorem execTerr_txState {e : Byte} {s t : State} (h : execTerr e s = .next t) : t.txState = s.txState := by
  rcases execTerr_cases h with ⟨-, rfl⟩ | ⟨-, rfl⟩ <;> rfl

/-- TICK moves `tx_state` only by ending a wait. -/
theorem execTick_moves {s t : State} (h : execTick s = .next t) (hne : t.txState ≠ s.txState) :
    (s.txState = .waitWrack ∨ s.txState = .waitDrain) ∧ t.txState = .idle := by
  rcases execTick_cases h with ⟨-, rfl⟩ | ⟨-, -, rfl⟩ | ⟨hst, -, rfl⟩
  · exact absurd rfl hne
  · exact absurd rfl hne
  · refine ⟨?_, rfl⟩
    cases hs : s.txState <;> simp_all

/-- Settles O45, one controller event at a time. -/
theorem controllerStateMovesAsStated : Obligations.ControllerStateMovesAsStated := by
  intro i s t h hne
  have hi : isTxcEvent i = true := by
    by_contra hi
    exact hne (exec_txState_of_not_txc (by simpa using hi) h)
  cases i <;> simp only [isTxcEvent, Bool.false_eq_true] at hi
  case send d =>
    obtain ⟨hs, ht⟩ := execSend_moves h hne
    exact .inl ⟨hs, ht, d, rfl⟩
  case wrack =>
    obtain ⟨hs, ht | ht⟩ := execWrack_moves h hne
    · exact .inr (.inl ⟨hs, ht, rfl⟩)
    · exact .inr (.inr (.inl ⟨hs, ht, .inl rfl⟩))
  case drain =>
    obtain ⟨hs, ht⟩ := execDrain_moves h hne
    exact .inr (.inr (.inr ⟨hs, ht, .inl rfl⟩))
  case terr e => exact absurd (execTerr_txState h) hne
  case tick =>
    obtain ⟨hs | hs, ht⟩ := execTick_moves h hne
    · exact .inr (.inr (.inl ⟨hs, ht, .inr rfl⟩))
    · exact .inr (.inr (.inr ⟨hs, ht, .inr rfl⟩))

end Sys2Proof.Machine

/-! # Memory (20_memory): the two buffers stay canonical and in range, no step faults, and the agents' events commute. -/

namespace Sys2Proof.Machine

/-! ## The buffers' form (20_memory R60, R68) -/

/-- A delivered byte leaves RXBUF alone, but for READ_PAYLOAD, which writes it at `rx_idx` inside the buffer. -/
theorem framerStep_rxbuf {b : Byte} {s t : State} (h : framerStep b s = .next t) :
    t.rxbuf = s.rxbuf ∨
      (s.rxIdx.toNat < Config.rxbufSize ∧ t.rxbuf = s.rxbuf.write s.rxIdx.toNat b) := by
  rcases framerStep_cases h with ⟨-, rfl⟩ | ⟨-, rfl⟩ | ⟨-, rfl⟩ | ⟨-, rfl⟩ | ⟨-, hidx, hpay⟩ | ⟨-, rfl⟩
  · exact .inl (by simp only [rxSeekSof, apply_ite State.rxbuf, ite_self])
  · exact .inl (by simp only [rxReadLength, apply_ite State.rxbuf, ite_self])
  · exact .inl rfl
  · exact .inl (by simp only [rxReadCmdid, apply_ite State.rxbuf, ite_self])
  · obtain ⟨-, rfl⟩ | ⟨-, rfl⟩ := hpay <;> exact .inr ⟨hidx, rfl⟩
  · exact .inl rfl

theorem framerStep_keeps_rxbuf_wf {b : Byte} {s t : State} (hbuf : s.rxbuf.wf Config.rxbufSize = true)
    (h : framerStep b s = .next t) : t.rxbuf.wf Config.rxbufSize = true := by
  rcases framerStep_rxbuf h with hrx | ⟨hidx, hrx⟩ <;> rw [hrx]
  · exact hbuf
  · exact Memory.wf_write b hbuf hidx

theorem exec_keeps_rxbuf_wf {i : Instr} {s t : State} (hbuf : s.rxbuf.wf Config.rxbufSize = true)
    (h : exec i s = .next t) : t.rxbuf.wf Config.rxbufSize = true :=
  exec_keeps_of_framer (P := fun s => s.rxbuf.wf Config.rxbufSize = true)
    (fun _ _ _ => framerStep_keeps_rxbuf_wf) (fun _ _ hf _ hbuf => by rw [hf.rxbuf]; exact hbuf)
    (fun _ _ hbuf => hbuf) i s t hbuf h

/-- The packet of an admitted SEND ends inside TXBUF. -/
theorem sendWrite_keeps_txbuf_wf {d : SendDesc} {s : State} (hbuf : s.txbuf.wf Config.txbufSize = true)
    (hadm : admitted d s = true) (c : BitVec 3) : (sendWrite d c s).txbuf.wf Config.txbufSize = true := by
  have hlen : 0 + (packetOf d c s).length ≤ Config.txbufSize := by
    simpa [Config.txbufSize] using packetOf_length_le hadm c
  rw [sendWrite_txbuf]
  exact Memory.wf_writeRange hbuf hlen

theorem exec_keeps_txbuf_wf {i : Instr} {s t : State} (hbuf : s.txbuf.wf Config.txbufSize = true)
    (h : exec i s = .next t) : t.txbuf.wf Config.txbufSize = true := by
  refine exec_keeps_of_txc (P := fun s => s.txbuf.wf Config.txbufSize = true) ?frame ?emit ?release ?hold ?write
    ?drain ?capture ?tick i s t hbuf h
  case frame => exact fun _ _ hx _ hbuf => by rw [hx.txbuf]; exact hbuf
  case emit => exact fun _ _ => id
  case release => exact fun _ => id
  case hold => exact fun _ _ => id
  case write => exact fun _ _ hbuf _ hadm _ => sendWrite_keeps_txbuf_wf hbuf hadm _
  case drain => exact fun _ hbuf _ _ => hbuf
  case capture => exact fun _ _ hbuf _ => hbuf
  case tick => exact fun _ hbuf _ _ => hbuf

/-- Settles O54: READ_PAYLOAD and SEND are the only writers of the buffers, and both write inside the index range. -/
theorem buffersStayCanonical : Obligations.BuffersStayCanonical := by
  intro s t hmem h
  refine step_keeps ?offers ?construct ?exec hmem h
  case offers => exact fun _ _ _ hmem => ⟨hmem.rx, hmem.tx⟩
  case construct => exact fun _ _ _ _ h => (atRest_of_construct h).memoryOk
  case exec => exact fun _ _ _ hmem h => ⟨exec_keeps_rxbuf_wf hmem.rx h, exec_keeps_txbuf_wf hmem.tx h⟩

/-! ## A step faults only in an instruction's meaning -/

theorem construct_ne_fault (lb : Option Nat) (ht : Bool) (s : State) (r : Fault) :
    construct lb ht s ≠ .fault r := by
  unfold construct
  split <;> exact nofun

theorem runWork_word_fault {s u : State} {w : PortWord} {r : Fault} (h : runWork s (.word w u) = .fault r) :
    ∃ i, exec i u = .fault r := by
  simp only [runWork] at h
  split at h
  · exact ⟨_, h⟩
  · cases h

theorem runWork_heldOr_fault {s : State} {other : Work} {r : Fault} (h : runWork s (heldOr s other) = .fault r) :
    (∃ d ds, exec (.send d) { s with held := ds } = .fault r) ∨ runWork s other = .fault r := by
  unfold heldOr at h
  split at h
  · next d ds _ =>
    split_ifs at h
    · exact .inl ⟨d, ds, h⟩
    · exact .inr h
  · exact .inr h

/-- A step that faults has run an instruction's meaning that faults, in a state that differs only in the offers. -/
theorem step_fault {s : State} {r : Fault} (h : step s = .fault r) :
    ∃ i ib hd, exec i { s with inbox := ib, held := hd } = .fault r := by
  have hheld : ∀ {other : Work}, runWork s (heldOr s other) = .fault r →
      (∃ i ib hd, exec i { s with inbox := ib, held := hd } = .fault r) ∨ runWork s other = .fault r :=
    fun h => (runWork_heldOr_fault h).imp_left fun ⟨d, ds, h⟩ => ⟨.send d, s.inbox, ds, h⟩
  have hword : ∀ {w : PortWord} {ib : List Slot}, runWork s (.word w { s with inbox := ib }) = .fault r →
      ∃ i ib hd, exec i { s with inbox := ib, held := hd } = .fault r :=
    fun h => (runWork_word_fault h).imp fun _ h => ⟨_, s.held, h⟩
  unfold step nextWork at h
  split at h
  · exact (hheld h).resolve_right nofun
  · exact absurd h (construct_ne_fault _ _ _ r)
  · exact (hheld h).resolve_right nofun
  · dsimp only at h
    split_ifs at h
    · exact (hheld h).elim id hword
    · exact hword h

/-! ## No instruction's meaning faults where the invariants hold (20_memory R68) -/

theorem rxFrom_keeps_ok {src : Src} {b : Byte} {s t : State} (hok : FramerOk s) (h : rxFrom src b s = .next t) :
    FramerOk t := by
  rcases rxFrom_cases h with ⟨-, hstep⟩ | ⟨-, -, -, rfl⟩
  · exact framerStep_keeps_ok hok hstep
  · exact hok

theorem rxFrom_ne_fault {s : State} (hok : FramerOk s) (src : Src) (b : Byte) (r : Fault) :
    rxFrom src b s ≠ .fault r := by
  unfold rxFrom
  split
  · obtain ⟨t, ht⟩ := framerStep_completes b hok.payloadIndex
    rw [ht]
    exact nofun
  · exact nofun
  · exact nofun

theorem feedFrom_ne_fault {s : State} (hok : FramerOk s) (src : Src) (bs : Bytes) (r : Fault) :
    feedFrom src bs s ≠ .fault r := by
  induction bs generalizing s with
  | nil => exact nofun
  | cons b bs ih =>
    rw [feedFrom_cons]
    cases hbyte : rxFrom src b s with
    | next u => exact ih (rxFrom_keeps_ok hok hbyte)
    | fault r' => exact absurd hbyte (rxFrom_ne_fault hok src b r')
    | refused r' => exact nofun

theorem execReceive_ne_fault {s : State} (hok : FramerOk s) (arg : ByteArg) (r : Fault) :
    execReceive arg s ≠ .fault r := by
  unfold execReceive
  split_ifs
  · exact nofun
  · exact nofun
  · exact feedFrom_ne_fault hok _ _ r

theorem finish_ne_fault {s : State} (hlen : s.txPktlen.toNat ≤ 65541) (r : Fault) : finish s ≠ .fault r := by
  cases herr : s.txErrValid
  · rw [finish_success herr hlen]
    exact nofun
  · rw [finish_error herr]
    exact nofun

theorem execSend_ne_fault (d : SendDesc) (s : State) (r : Fault) : execSend d s ≠ .fault r := by
  unfold execSend
  split_ifs
  · exact nofun
  · exact nofun
  · exact nofun
  all_goals split <;> exact nofun

theorem execWrack_ne_fault {s : State} (hok : TxcOk s) (r : Fault) : execWrack s ≠ .fault r := by
  by_cases hst : s.txState = .waitWrack
  · cases hbp : s.txBp
    · rw [execWrack_finish hst hbp]
      exact finish_ne_fault (hok.packetLength (by simp [hst])).2 r
    · rw [execWrack_backpressure hst hbp]
      exact nofun
  · rw [execWrack_ignored hst]
    exact nofun

theorem execDrain_ne_fault {s : State} (hok : TxcOk s) (r : Fault) : execDrain s ≠ .fault r := by
  by_cases hst : s.txState = .waitDrain
  · rw [execDrain_finish hst]
    exact finish_ne_fault (hok.packetLength (by simp [hst])).2 r
  · rw [execDrain_ignored hst]
    exact nofun

theorem execTerr_ne_fault (e : Byte) (s : State) (r : Fault) : execTerr e s ≠ .fault r := by
  unfold execTerr
  split_ifs <;> exact nofun

theorem execTick_ne_fault (s : State) (r : Fault) : execTick s ≠ .fault r := by
  by_cases hst : s.txState = .idle
  · rw [execTick_idle hst]
    exact nofun
  · rw [execTick_waiting hst]
    split_ifs <;> exact nofun

theorem execClose_ne_fault (s : State) (r : Fault) : execClose s ≠ .fault r := by
  unfold execClose
  split_ifs <;> exact nofun

theorem exec_ne_fault {s : State} (hf : FramerOk s) (hx : TxcOk s) (i : Instr) (r : Fault) :
    exec i s ≠ .fault r := by
  rcases exec_shape i s with ⟨src, bs, hfeed⟩ | ⟨arg, rfl⟩ | htxc | rfl | hrow
  · rw [hfeed]
    exact feedFrom_ne_fault hf src bs r
  · exact execReceive_ne_fault hf arg r
  · cases i <;> simp only [isTxcEvent, Bool.false_eq_true] at htxc
    case send d => exact execSend_ne_fault d s r
    case wrack => exact execWrack_ne_fault hx r
    case drain => exact execDrain_ne_fault hx r
    case terr e => exact execTerr_ne_fault e s r
    case tick => exact execTick_ne_fault s r
  · exact execClose_ne_fault s r
  · rcases hrow with rfl | rfl | rfl | rfl | rfl <;> exact nofun

/-- Settles O57: the offers are no part of what the two invariants read, so the instruction taken runs where they hold. -/
theorem stepNeverFaults : Obligations.StepNeverFaults := by
  intro s r hf hx h
  obtain ⟨i, ib, hd, hexec⟩ := step_fault h
  have hf' : FramerOk { s with inbox := ib, held := hd } :=
    framerOk_congr (by constructor <;> rfl) (by constructor <;> rfl) hf
  have hx' : TxcOk { s with inbox := ib, held := hd } := hx.of_sameWindow ⟨rfl, rfl, rfl, rfl, rfl, rfl, rfl⟩
  exact exec_ne_fault hf' hx' i r hexec

/-! ## A framer event and a controller event commute (20_memory R72)

Each event runs alike in the surroundings that the other leaves it (`RunsAlike`), and the two write disjoint parts of the
state. -/

theorem exec_framer_frame {i : Instr} (hi : isFramerEvent i = true) {s t : State} (h : exec i s = .next t) :
    FramerFrame s t := by
  cases i <;> simp only [isFramerEvent, Bool.false_eq_true] at hi
  case rxbyte src b =>
    rcases rxFrom_cases h with ⟨-, hstep⟩ | ⟨-, -, -, rfl⟩
    · exact framerStep_frame hstep
    · exact FramerFrame.refl _
  case receive arg =>
    simp only [exec, execReceive] at h
    split_ifs at h
    · cases h
      exact ⟨by constructor <;> rfl, by constructor <;> rfl, rfl, rfl, rfl⟩
    · exact feedFrom_frame h

theorem exec_txc_frame {i : Instr} (hi : isTxcEvent i = true) {s t : State} (h : exec i s = .next t) :
    TxcFrame s t := by
  cases i <;> simp only [isTxcEvent, Bool.false_eq_true] at hi
  case send d => exact execSend_frame h
  case wrack => exact execWrack_frame h
  case drain => exact execDrain_frame h
  case terr e => exact execTerr_frame h
  case tick => exact execTick_frame h

/-- Two runs that read and write different parts of the state can be exchanged: the second runs first where it finds
its own part of `u` in `s` already, and the first then finds its part of `s` untouched. -/
theorem RunsAlike.swap {put put' : State → State → State} {f g : State → Out} {s u v : State}
    (hf : RunsAlike put f s u) (hg : RunsAlike put' g u v) (hu : put' s u = s)
    (hs : ∀ os, put (emit os (put' s v)) s = emit os (put' s v)) :
    ∃ os os', u.outputs = s.outputs ++ os ∧ v.outputs = u.outputs ++ os' ∧
      g s = .next (emit os' (put' s v)) ∧
      f (emit os' (put' s v)) = .next (emit os (put (emit os' (put' s v)) u)) := by
  obtain ⟨os, hos, hf⟩ := hf
  obtain ⟨os', hos', hg⟩ := hg
  refine ⟨os, os', hos, hos', ?_, ?_⟩
  · rw [← hg s, hu]
  · rw [← hf, hs]

theorem SameConfig.symm {s t : State} (h : SameConfig s t) : SameConfig t s :=
  ⟨h.lenBytes.symm, h.hasTransport.symm⟩

theorem SameConfig.trans {s t u : State} (h : SameConfig s t) (k : SameConfig t u) : SameConfig s u :=
  ⟨k.lenBytes.trans h.lenBytes, k.hasTransport.trans h.hasTransport⟩

theorem SameTxc.symm {s t : State} (h : SameTxc s t) : SameTxc t s := by
  cases h
  constructor <;> (symm; assumption)

theorem SameFramer.symm {s t : State} (h : SameFramer s t) : SameFramer t s := by
  cases h
  constructor <;> (symm; assumption)

/-- A framer event leaves the controller's part as it was. -/
theorem FramerFrame.withTxcOf_eq {s u : State} (h : FramerFrame s u) : s.withTxcOf u = s :=
  withTxcOf_eq_self h.txc.symm h.config.symm

/-- A controller event leaves the framer's part as it was. -/
theorem TxcFrame.withFramerOf_eq {s w : State} (h : TxcFrame s w) : s.withFramerOf w = s :=
  withFramerOf_eq_self h.framer.symm h.config.symm

/-- What the controller does to its own part leaves the framer's part of `s`. -/
theorem withFramerOf_emit_withTxcOf {s v : State} (hc : SameConfig s v) (os : List Output) :
    (emit os (s.withTxcOf v)).withFramerOf s = emit os (s.withTxcOf v) :=
  withFramerOf_eq_self (sameFramer_withTxcOf os s v) ⟨hc.lenBytes, hc.hasTransport⟩

/-- What the framer does to its own part leaves the controller's part of `s`. -/
theorem withTxcOf_emit_withFramerOf {s z : State} (hc : SameConfig s z) (os : List Output) :
    (emit os (s.withFramerOf z)).withTxcOf s = emit os (s.withFramerOf z) :=
  withTxcOf_eq_self (sameTxc_withFramerOf os s z) ⟨hc.lenBytes, hc.hasTransport⟩

/-- The two parts put together in the other order make the state `v` after both events, but for the outputs' order. -/
theorem withTxcOf_then_withFramerOf {s u v : State} (hf : FramerFrame s u) (hx : TxcFrame u v)
    (os os' : List Output) :
    emit os ((emit os' (s.withTxcOf v)).withFramerOf u) = { v with outputs := s.outputs ++ os' ++ os } := by
  obtain ⟨-, -, -, hin, hread⟩ := hf
  obtain ⟨⟨h1, h2, h3, h4, h5, h6, h7, h8, h9⟩, ⟨h10, h11⟩, hin', hread'⟩ := hx
  simp only [emit, State.withFramerOf, State.withTxcOf, h1, h2, h3, h4, h5, h6, h7, h8, h9, h10, h11, hin', hin,
    hread', hread]

/-- The same for a controller event that came first. -/
theorem withFramerOf_then_withTxcOf {s w z : State} (hx : TxcFrame s w) (hf : FramerFrame w z)
    (os os' : List Output) :
    emit os' ((emit os (s.withFramerOf z)).withTxcOf w) = { z with outputs := s.outputs ++ os ++ os' } := by
  obtain ⟨-, -, hin, hread⟩ := hx
  obtain ⟨⟨h1, h2, h3, h4, h5, h6, h7, h8, h9, h10, h11, h12, h13, h14⟩, ⟨h15, h16⟩, -, hin', hread'⟩ := hf
  simp only [emit, State.withFramerOf, State.withTxcOf, h1, h2, h3, h4, h5, h6, h7, h8, h9, h10, h11, h12, h13,
    h14, h15, h16, hin', hin, hread', hread]

/-- A framer event and then a controller event: the other order is a run to the same state. -/
theorem framer_then_txc_swaps {f x : Instr} {s u v : State} (hf : isFramerEvent f = true) (hx : isTxcEvent x = true)
    (hu : exec f s = .next u) (hv : exec x u = .next v) :
    ∃ (w z : State) (os os' : List Output), exec x s = .next w ∧ exec f w = .next z ∧
      u.outputs = s.outputs ++ os ∧ v.outputs = u.outputs ++ os' ∧
      w.outputs = s.outputs ++ os' ∧ z.outputs = w.outputs ++ os ∧ z = { v with outputs := z.outputs } := by
  have hfr := exec_framer_frame hf hu
  have htx := exec_txc_frame hx hv
  obtain ⟨os, os', hos, hos', hw, hz⟩ := (exec_framer_runsAlike hf hu).swap (exec_txc_runsAlike hx hv)
    hfr.withTxcOf_eq (withFramerOf_emit_withTxcOf (hfr.config.trans htx.config))
  exact ⟨_, _, os, os', hw, hz, hos, hos', rfl, rfl, withTxcOf_then_withFramerOf hfr htx os os'⟩

/-- A controller event and then a framer event: the other order is a run to the same state. -/
theorem txc_then_framer_swaps {f x : Instr} {s w z : State} (hf : isFramerEvent f = true) (hx : isTxcEvent x = true)
    (hw : exec x s = .next w) (hz : exec f w = .next z) :
    ∃ (u v : State) (os os' : List Output), exec f s = .next u ∧ exec x u = .next v ∧
      u.outputs = s.outputs ++ os ∧ v.outputs = u.outputs ++ os' ∧
      w.outputs = s.outputs ++ os' ∧ z.outputs = w.outputs ++ os ∧ z = { v with outputs := z.outputs } := by
  have htx := exec_txc_frame hx hw
  have hfr := exec_framer_frame hf hz
  obtain ⟨os', os, hos', hos, hu, hv⟩ := (exec_txc_runsAlike hx hw).swap (exec_framer_runsAlike hf hz)
    htx.withFramerOf_eq (withTxcOf_emit_withFramerOf (htx.config.trans hfr.config))
  refine ⟨_, _, os, os', hu, hv, rfl, rfl, hos', hos, ?_⟩
  rw [withFramerOf_then_withTxcOf htx hfr os os']

/-! ## CLOSE does not commute with a byte (20_memory R72, 42_txc R197) -/

theorem exec_close_open {s : State} (hT : s.cfgHasTransport = true) (hcl : s.closed = false) :
    exec .close s = .next (detach s) := by
  simp [exec, execClose, hT, hcl]

/-- SOF in SEEK_SOF begins a frame. -/
theorem framerStep_sof {s : State} (hs : s.rxState = .seekSof) :
    framerStep Config.sof s = .next { s with rxState := .readLength, rxIdx := 0#16, rxAcc := 0x00#8 } := by
  simp only [framerStep, hs, rxSeekSof_sof]

/-- SOF and then CLOSE: the byte is consumed. -/
theorem sof_then_close {i : Instr} {s : State} (hi : exec i s = framerStep Config.sof s) (hT : s.cfgHasTransport = true)
    (hcl : s.closed = false) (hs : s.rxState = .seekSof) :
    ∃ v, runEvents [i, .close] s = .next v ∧ v.rxState = .readLength := by
  have hsof := framerStep_sof hs
  have hfr := framerStep_frame hsof
  have hclose := exec_close_open (hfr.config.hasTransport.trans hT) (hfr.closed.trans hcl)
  refine ⟨detach { s with rxState := .readLength, rxIdx := 0#16, rxAcc := 0x00#8 }, ?_, rfl⟩
  rw [runEvents_cons, hi, hsof, andThen_next, runEvents_cons, hclose]
  rfl

/-- CLOSE and then a transport byte: the byte is dropped. -/
theorem close_then_transport_byte {s : State} (hT : s.cfgHasTransport = true) (hcl : s.closed = false) (b : Byte) :
    runEvents [.close, .rxbyte .transport b] s = .next (detach s) := by
  rw [runEvents_cons, exec_close_open hT hcl, andThen_next, runEvents_cons]
  exact congrArg (andThen · (runEvents [])) (rxFrom_dropped (s := detach s) hT rfl b)

/-- CLOSE and then a RECEIVE of bytes: refused (41_framer R161). -/
theorem close_then_receive {s : State} (hT : s.cfgHasTransport = true) (hcl : s.closed = false) (bs : Bytes) :
    runEvents [.close, .receive (.bytes bs)] s = .refused .receiveAfterClose := by
  rw [runEvents_cons, exec_close_open hT hcl, andThen_next, runEvents_cons]
  simp [exec, execReceive]

/-- A RECEIVE of one byte before CLOSE is that byte. -/
theorem exec_receive_one {s : State} (hcl : s.closed = false) (b : Byte) :
    exec (.receive (.bytes [b])) s = framerStep b s := by
  have hd : delivered .host s = true := by simp [delivered, hcl]
  simp only [exec, execReceive, argBytes, hcl, feedFrom_cons_delivered hd, reduceCtorEq, Bool.false_eq_true, if_false]
  cases framerStep b s <;> rfl

/-- Settles O50: the two kinds of event run alike in each other's surroundings; CLOSE writes what the delivery of a byte
reads. -/
theorem framerAndControllerEventsCommute : Obligations.FramerAndControllerEventsCommute := by
  refine ⟨fun f x s u v => framer_then_txc_swaps, fun f x s w z => txc_then_framer_swaps, fun s hT hcl hs => ⟨?_, ?_⟩⟩
  · have hd : delivered .transport s = true := by simp [delivered, hT, hcl]
    obtain ⟨v, hv, hread⟩ := sof_then_close (exec_rxbyte_delivered hd Config.sof) hT hcl hs
    exact ⟨detach s, v, close_then_transport_byte hT hcl _, hv, hs, hread⟩
  · obtain ⟨v, hv, hread⟩ := sof_then_close (exec_receive_one hcl Config.sof) hT hcl hs
    exact ⟨v, close_then_receive hT hcl _, hv, hread⟩

end Sys2Proof.Machine

/-! # Encoding (30_encoding): the decoder inverts the encoder, reserved codes, the layout of a frame, and what the
wire-format, toolchain and status rows do. -/

namespace Sys2Proof.Machine

/-! ## CMD0 (30_encoding R94, R95) -/

/-- A CMD0 byte is its two fields side by side. -/
theorem packCmd0_eq_append (t : BitVec 3) (sub : Byte) : packCmd0 t sub = t ++ sub.setWidth 5 := by
  have hsplit : ∀ b : Byte, b = cmd0Type b ++ cmd0Subsys b := by decide
  calc packCmd0 t sub = cmd0Type (packCmd0 t sub) ++ cmd0Subsys (packCmd0 t sub) := hsplit _
    _ = t ++ sub.setWidth 5 := by rw [cmd0Type_packCmd0, cmd0Subsys_packCmd0]

theorem packCmd0_toNat (t : BitVec 3) (sub : Byte) : (packCmd0 t sub).toNat = 32 * t.toNat + sub.toNat % 32 := by
  have hlt : sub.toNat % 32 < 2 ^ 5 := Nat.mod_lt _ (by decide)
  rw [packCmd0_eq_append, BitVec.toNat_append, BitVec.toNat_setWidth]
  exact (Nat.shiftLeft_add_eq_or_of_lt hlt t.toNat).symm.trans (by rw [Nat.shiftLeft_eq, Nat.mul_comm])

/-- Settles O30: a CMD0 byte is its two fields side by side, and its fields are the quotient and the remainder by 32. -/
theorem cmd0IsTypeAboveSubsystem : Obligations.Cmd0IsTypeAboveSubsystem := by
  refine ⟨packCmd0_toNat, fun b => ⟨?_, BitVec.toNat_setWidth 5 b⟩⟩
  have hb := b.isLt
  simp only [cmd0Type, BitVec.extractLsb'_toNat, Nat.shiftRight_eq_div_pow]
  omega

/-- A subsystem that is a 5-bit field already comes back as it is. -/
theorem cmd0Subsys_packCmd0_field (t : BitVec 3) (u : BitVec 5) : cmd0Subsys (packCmd0 t (u.setWidth 8)) = u := by
  rw [cmd0Subsys_packCmd0, BitVec.setWidth_setWidth_of_le _ (by decide), BitVec.setWidth_eq]

theorem decode_cmd0Word (t : BitVec 3) (u : BitVec 5) : decode (cmd0Word t u) = .ok (typeRow t u) := by
  simp only [decode, cmd0Word, decodeLink, cmd0Type_packCmd0, cmd0Subsys_packCmd0_field]

/-! ## Event words (30_encoding R101 to R106) -/

theorem decode_receiveWord (side : Bytes) : decode (eventWord evReceive side) = decodeReceive side := rfl

theorem decode_sendWord (side : Bytes) : decode (eventWord evSend side) = decodeSend side := rfl

theorem decodeKind_kindCode (a : ByteArg) : decodeKind (kindCode a).toNat (argBytes a) = .ok a := by
  cases a <;> rfl

/-- Where the decoder of a SEND record finds the fields of its qualifier byte. -/
theorem qualifier_fields (kind : BitVec 2) (c s t : Bool) :
    let q : Byte := (0#3 ++ kind) ++ (BitVec.ofBool c ++ BitVec.ofBool s ++ BitVec.ofBool t)
    q.extractLsb' 5 3 = 0#3 ∧ q.extractLsb' 3 2 = kind ∧ q.getLsbD 0 = t ∧ q.getLsbD 1 = s ∧ q.getLsbD 2 = c := by
  revert kind c s t; decide

theorem sendQualifiers_fields (d : SendDesc) :
    (sendQualifiers d).extractLsb' 5 3 = 0#3 ∧ (sendQualifiers d).extractLsb' 3 2 = kindCode d.payload ∧
    (sendQualifiers d).getLsbD 0 = d.typeOk ∧ (sendQualifiers d).getLsbD 1 = d.subsysOk ∧
    (sendQualifiers d).getLsbD 2 = d.cmdOk :=
  qualifier_fields (kindCode d.payload) d.cmdOk d.subsysOk d.typeOk

/-- `pl_len` counts the bytes of a payload that fits. -/
theorem plLen_toNat {d : SendDesc} (h : d.payload.fits16 = true) : (plLen d).toNat = (argBytes d.payload).length := by
  have hlt : (argBytes d.payload).length < 65536 := by
    cases hp : d.payload with
    | absent => decide
    | bytes bs => rw [hp] at h; exact of_decide_eq_true h
    | notBytes => decide
  rw [plLen, BitVec.toNat_ofNat, Nat.mod_eq_of_lt hlt]

theorem decode_send {d : SendDesc} (h : d.payload.fits16 = true) : decode (encode (.send d)) = .ok (.send d) := by
  obtain ⟨hzero, hkind, htype, hsub, hcmd⟩ := sendQualifiers_fields d
  have hlen : ¬ (d.payload = .bytes (argBytes d.payload) ∧
      (argBytes d.payload).length ≠ (le16 (loByte (plLen d)) (hiByte (plLen d))).toNat) := by
    rw [le16_lo_hi, plLen_toNat h]
    exact fun hne => hne.2 rfl
  simp only [encode, decode_sendWord, decodeSend, hzero, hkind, htype, hsub, hcmd, decodeKind_kindCode,
    if_neg hlen, ne_eq, not_true_eq_false, if_false]

theorem decode_receive (a : ByteArg) : decode (encode (.receive a)) = .ok (.receive a) := by
  have hkind : ((kindCode a).setWidth 8).toNat = (kindCode a).toNat := BitVec.toNat_setWidth_of_le (by decide)
  simp only [encode, decode_receiveWord, decodeReceive, hkind, decodeKind_kindCode]

/-! ## Frame headers (30_encoding R91, R92) -/

theorem decode_frameHdrL1 (n : BitVec 8) (t : BitVec 3) (u : BitVec 5) (c : Byte) :
    decode (encode (.frameHdrL1 n t u c)) = .ok (.frameHdrL1 n t u c) := by
  simp only [decode, encode, decodeLink, if_true, cmd0Type_packCmd0, cmd0Subsys_packCmd0_field]

theorem decode_frameHdrL2 (n : BitVec 16) (t : BitVec 3) (u : BitVec 5) (c : Byte) :
    decode (encode (.frameHdrL2 n t u c)) = .ok (.frameHdrL2 n t u c) := by
  simp only [decode, encode, decodeLink, if_true, cmd0Type_packCmd0, cmd0Subsys_packCmd0_field, le16_lo_hi]

/-- Settles O1, row by row; `WellFormed` is needed for the payload of a SEND, which `pl_len` counts. -/
theorem decodeOfEncodeIsTheInstruction : Obligations.DecodeOfEncodeIsTheInstruction := by
  intro i hwf
  cases i with
  | rxbyte src b => cases src <;> rfl
  | receive a => exact decode_receive a
  | send d => exact decode_send hwf
  | typePoll u => exact decode_cmd0Word 0#3 u
  | typeSreq u => exact decode_cmd0Word 1#3 u
  | typeAreq u => exact decode_cmd0Word 2#3 u
  | typeSrsp u => exact decode_cmd0Word 3#3 u
  | typeRes0 u => exact decode_cmd0Word 4#3 u
  | typeRes1 u => exact decode_cmd0Word 5#3 u
  | typeRes2 u => exact decode_cmd0Word 6#3 u
  | typeRes3 u => exact decode_cmd0Word 7#3 u
  | frameHdrL1 n t u c => exact decode_frameHdrL1 n t u c
  | frameHdrL2 n t u c => exact decode_frameHdrL2 n t u c
  | wrack | drain | terr | tick | close => rfl
  | doneOk | doneInvalidArgument | doneUnresolvedCommand | doneTimeout | doneTransportError => rfl

/-! ## Reserved codes (30_encoding R101, R103, R104, R110) -/

theorem decodeEvent_reserved {ev : Byte} (hlo : 8 ≤ ev.toNat) (hhi : ev.toNat < 16) (side : Bytes) :
    decodeEvent (ev :: side) = .error .reservedEventCode := by
  simp only [decodeEvent]
  split
  case h_9 => exact if_pos hhi
  all_goals omega

theorem decodeStatus_reserved {c : Byte} (hlo : 5 ≤ c.toNat) (hhi : c.toNat < 8) :
    decodeStatus [c] = .error .reservedStatus := by
  simp only [decodeStatus]
  split
  case h_6 => exact if_pos hhi
  all_goals omega

theorem decodeSend_reserved {q : Byte} (hzero : q.extractLsb' 5 3 = 0#3) (hkind : q.extractLsb' 3 2 = 3#2)
    (type subsys cmd lo hi : Byte) (pl : Bytes) :
    decodeSend (q :: type :: subsys :: cmd :: lo :: hi :: pl) = .error .reservedKind := by
  have hreserved : decodeKind (3#2).toNat pl = .error .reservedKind := rfl
  simp only [decodeSend, hzero, hkind, hreserved, ne_eq, not_true_eq_false, if_false]

/-- A word without an instruction that is offered alone ends the run. -/
theorem step_undecodable {s : State} {w : PortWord} {rest : List Slot} {e : DecodeError}
    (hin : s.inbox = .instant [w] :: rest) (hheld : s.held = []) (hdec : decode w = .error e) :
    step s = .refused (.undecodable e) := by
  rw [step, nextWork_word hin (.inr (.inl hheld))]
  simp only [takeFirst, runWork, hdec]

/-- Settles O3. -/
theorem reservedCodesAreRefused : Obligations.ReservedCodesAreRefused :=
  ⟨fun _ side hlo hhi => decodeEvent_reserved hlo hhi side,
   fun _ => rfl,
   fun _ type subsys cmd lo hi pl hzero hkind => decodeSend_reserved hzero hkind type subsys cmd lo hi pl,
   fun _ => decodeStatus_reserved,
   fun _ _ _ _ => step_undecodable⟩

/-! ## The layout of a frame (30_encoding R91, R92, R97) -/

/-- The bytes of a frame between SOF and FCS. -/
def frameBody (cfg : BitVec 1) (t : BitVec 3) (sub cmd : Byte) (p : Bytes) : Bytes :=
  frameHeader cfg (BitVec.ofNat 16 p.length) t sub cmd ++ p

@[simp] theorem frameBody_length (cfg : BitVec 1) (t : BitVec 3) (sub cmd : Byte) (p : Bytes) :
    (frameBody cfg t sub cmd p).length = cfg.toNat + 3 + p.length := by
  simp [frameBody]

theorem encodeFrame_eq (cfg : BitVec 1) (t : BitVec 3) (sub cmd : Byte) (p : Bytes) :
    encodeFrame cfg t sub cmd p = Config.sof :: (frameBody cfg t sub cmd p ++ [xorfold (frameBody cfg t sub cmd p)]) :=
  rfl

/-- Past SOF, and up to the FCS, byte `i + 1` of a frame is byte `i` of its body. -/
theorem encodeFrame_getElem? {cfg : BitVec 1} {t : BitVec 3} {sub cmd : Byte} {p : Bytes} {i : Nat}
    (hi : i < cfg.toNat + 3 + p.length) :
    (encodeFrame cfg t sub cmd p)[i + 1]? = (frameBody cfg t sub cmd p)[i]? := by
  rw [encodeFrame_eq, List.getElem?_cons_succ, List.getElem?_append_left (by simpa using hi)]

theorem encodeFrame_fcs (cfg : BitVec 1) (t : BitVec 3) (sub cmd : Byte) (p : Bytes) :
    (encodeFrame cfg t sub cmd p)[cfg.toNat + 4 + p.length]? = some (xorfold (frameBody cfg t sub cmd p)) := by
  have hidx : cfg.toNat + 4 + p.length = (frameBody cfg t sub cmd p).length + 1 := by
    rw [frameBody_length]; omega
  rw [encodeFrame_eq, hidx, List.getElem?_cons_succ, List.getElem?_concat_length]

theorem frameBody_payload (cfg : BitVec 1) (t : BitVec 3) (sub cmd : Byte) (p : Bytes) (i : Nat) :
    (frameBody cfg t sub cmd p)[cfg.toNat + 3 + i]? = p[i]? := by
  rw [frameBody, List.getElem?_append_right (by simp), frameHeader_length, Nat.add_sub_cancel_left]

/-- The bytes before the payload, in both formats. -/
theorem frameBody_header (cfg : BitVec 1) (t : BitVec 3) (sub cmd : Byte) (p : Bytes) :
    let body := frameBody cfg t sub cmd p
    let n := BitVec.ofNat 16 p.length
    body[0]? = some (loByte n) ∧ (cfg = 1#1 → body[1]? = some (hiByte n)) ∧
    body[cfg.toNat + 1]? = some (packCmd0 t sub) ∧ body[cfg.toNat + 2]? = some cmd := by
  rcases cfg_cases cfg with rfl | rfl
  · exact ⟨rfl, nofun, rfl, rfl⟩
  · exact ⟨rfl, fun _ => rfl, rfl, rfl⟩

theorem loByte_ofNat (n : Nat) : loByte (BitVec.ofNat 16 n) = BitVec.ofNat 8 (n % 256) := by
  apply BitVec.eq_of_toNat_eq
  simp only [loByte, BitVec.toNat_setWidth, BitVec.toNat_ofNat]
  omega

theorem hiByte_ofNat {n : Nat} (h : n < 65536) : hiByte (BitVec.ofNat 16 n) = BitVec.ofNat 8 (n / 256) := by
  apply BitVec.eq_of_toNat_eq
  simp only [hiByte, BitVec.toNat_setWidth, BitVec.toNat_ushiftRight, BitVec.toNat_ofNat, Nat.shiftRight_eq_div_pow]
  omega

/-- Bytes followed by their own XOR fold to 0. -/
theorem xorfold_snoc_self (bs : Bytes) : xorfold (bs ++ [xorfold bs]) = 0x00#8 := by
  rw [xorfold_snoc, absorb, BitVec.xor_self]

/-- Settles O31: a frame is SOF, its body and the XOR of its body. -/
theorem encodedFrameLayout : Obligations.EncodedFrameLayout := by
  intro cfg t sub cmd p hlen f h
  have hmax := maxLen_le cfg
  have hcfg := cfg.isLt
  obtain ⟨hlo, hhi, hcmd0, hcmd⟩ := frameBody_header cfg t sub cmd p
  refine ⟨encodeFrame_length cfg t sub cmd p, rfl, ?lo, fun hc => ?hi, ?cmd0, ?cmd, fun i hi => ?payload, ?fcs, ?fold⟩
  case lo => rw [encodeFrame_getElem? (by omega), hlo, loByte_ofNat]
  case hi =>
    have hbody : 1 < cfg.toNat + 3 + p.length := by omega
    rw [encodeFrame_getElem? hbody, hhi hc, hiByte_ofNat (by omega)]
  case cmd0 => rw [encodeFrame_getElem? (by omega), hcmd0]
  case cmd => rw [encodeFrame_getElem? (by omega), hcmd]
  case payload =>
    rw [← frameBody_payload cfg t sub cmd p i, ← encodeFrame_getElem? (by omega)]
    congr 1
    omega
  case fcs =>
    have hcount : h - 1 + p.length = (frameBody cfg t sub cmd p).length := by rw [frameBody_length]; omega
    have hbody : (f.drop 1).take (h - 1 + p.length) = frameBody cfg t sub cmd p := by
      rw [hcount]; exact List.take_left
    rw [hbody]
    exact encodeFrame_fcs cfg t sub cmd p
  case fold => exact xorfold_snoc_self (frameBody cfg t sub cmd p)

/-! ## One delivered byte, by the framer's state (41_framer R165) -/

theorem framerStep_readLength {s : State} (hs : s.rxState = .readLength) (b : Byte) :
    framerStep b s = .next (rxReadLength b s) := by
  simp only [framerStep, hs]

theorem framerStep_readCmd0 {s : State} (hs : s.rxState = .readCmd0) (b : Byte) :
    framerStep b s = .next (rxReadCmd0 b s) := by
  simp only [framerStep, hs]

theorem framerStep_readCmdid {s : State} (hs : s.rxState = .readCmdid) (b : Byte) :
    framerStep b s = .next (rxReadCmdid b s) := by
  simp only [framerStep, hs]

theorem framerStep_readPayload {s : State} (hs : s.rxState = .readPayload) (b : Byte) :
    framerStep b s = rxReadPayload b s := by
  simp only [framerStep, hs]

theorem framerStep_readFcs {s : State} (hs : s.rxState = .readFcs) (b : Byte) :
    framerStep b s = .next (rxReadFcs b s) := by
  simp only [framerStep, hs]

theorem rxReadPayload_last {s : State} (hidx : s.rxIdx.toNat < Config.rxbufSize)
    (hlast : s.rxIdx.toNat + 1 = s.rxLen.toNat) (b : Byte) :
    rxReadPayload b s = .next { s with rxbuf := s.rxbuf.write s.rxIdx.toNat b, rxAcc := absorb s.rxAcc b
                                       rxState := .readFcs } :=
  (if_pos hidx).trans (if_pos hlast)

theorem rxReadPayload_more {s : State} (hidx : s.rxIdx.toNat < Config.rxbufSize)
    (hmore : s.rxIdx.toNat + 1 ≠ s.rxLen.toNat) (b : Byte) :
    rxReadPayload b s = .next { s with rxbuf := s.rxbuf.write s.rxIdx.toNat b, rxAcc := absorb s.rxAcc b
                                       rxIdx := s.rxIdx + 1#16 } :=
  (if_pos hidx).trans (if_neg hmore)

/-! ## Delivered bytes, one after another -/

theorem feedFrom_cons_next {src : Src} {s t : State} {b : Byte} (hd : delivered src s = true)
    (h : framerStep b s = .next t) (bs : Bytes) : feedFrom src (b :: bs) s = feedFrom src bs t := by
  rw [feedFrom_cons_delivered hd, h, andThen_next]

theorem feedFrom_append_next {src : Src} {s t : State} {a : Bytes} (h : feedFrom src a s = .next t) (bs : Bytes) :
    feedFrom src (a ++ bs) s = feedFrom src bs t := by
  rw [feedFrom_append, h, andThen_next]

theorem feedFrom_two {src : Src} {s t u : State} {a b : Byte} (hd : delivered src s = true)
    (ha : framerStep a s = .next t) (hb : framerStep b t = .next u) : feedFrom src [a, b] s = .next u := by
  have hd' : delivered src t = true := (delivered_of_frame (framerStep_frame ha)).trans hd
  rw [feedFrom_cons_next hd ha, feedFrom_cons_next hd' hb, feedFrom_nil]

/-- A sequence of one byte. -/
theorem feedFrom_one (src : Src) (b : Byte) (s : State) : feedFrom src [b] s = rxFrom src b s := by
  rw [feedFrom_cons]
  cases rxFrom src b s <;> rfl

/-- Bytes offered by the transport after CLOSE change nothing (41_framer R151). -/
theorem feedFrom_dropped {s : State} (hT : s.cfgHasTransport = true) (hcl : s.closed = true) (bs : Bytes) :
    feedFrom .transport bs s = .next s := by
  induction bs with
  | nil => rfl
  | cons b bs ih => rw [feedFrom_cons, rxFrom_dropped hT hcl, andThen_next, ih]

/-! ## The length field (30_encoding R93, 41_framer R154) -/

/-- A length that a byte holds is its low byte. -/
theorem setWidth_loByte_of_lt {n : BitVec 16} (h : n.toNat < 256) : (loByte n).setWidth 16 = n := by
  apply BitVec.eq_of_toNat_eq
  simp only [loByte, BitVec.toNat_setWidth]
  omega

theorem lenfield_short {cfg : BitVec 1} (hc : cfg = 0#1) (n : BitVec 16) : lenfield cfg n = [loByte n] := if_pos hc

theorem lenfield_long {cfg : BitVec 1} (hc : cfg = 1#1) (n : BitVec 16) : lenfield cfg n = [loByte n, hiByte n] :=
  if_neg (by rw [hc]; decide)

/-- The bytes of `lenfield(n)` take READ_LENGTH to READ_CMD0, in either format. -/
theorem feedFrom_lenfield {src : Src} {s : State} {n : BitVec 16} (hd : delivered src s = true)
    (hs : s.rxState = .readLength) (hi : s.rxIdx = 0#16) (hn : n.toNat ≤ maxLen s.cfgLenBytes) :
    feedFrom src (lenfield s.cfgLenBytes n) s =
      .next { s with rxLen := n, rxState := .readCmd0, rxIdx := 0#16,
                     rxAcc := s.rxAcc ^^^ xorfold (lenfield s.cfgLenBytes n) } := by
  rcases cfg_cases s.cfgLenBytes with hc | hc
  · have hlt : n.toNat < 256 := by rw [hc, maxLen_short] at hn; omega
    rw [lenfield_short hc, feedFrom_cons_next hd (framerStep_readLength hs _), feedFrom_nil, rxReadLength_only hc hi,
      setWidth_loByte_of_lt hlt, xorfold_cons, xorfold_nil, BitVec.xor_zero, absorb]
  · have hlow := framerStep_readLength hs (loByte n)
    rw [rxReadLength_low hc hi] at hlow
    rw [lenfield_long hc, feedFrom_two hd hlow (framerStep_readLength (by exact hs) _), rxReadLength_high ?cfg ?idx]
    case cfg => exact hc
    case idx => rfl
    simp only [loByte_setWidth, le16_lo_hi, absorb, xorfold_cons, xorfold_nil, BitVec.xor_zero, BitVec.xor_assoc]

/-- Settles O24: one RXBYTE per byte of the field is the field delivered. -/
theorem lengthFieldReadsBack : Obligations.LengthFieldReadsBack := by
  intro src s n hd hs hi hn
  rw [runEvents_rxbytes, feedFrom_lenfield hd hs hi hn]

/-! ## A header delivered in SEEK_SOF (30_encoding R91, R92) -/

/-- SOF and the bytes of `lenfield(n)` take SEEK_SOF to READ_CMD0. -/
theorem feedFrom_sof_lenfield {src : Src} {s : State} {n : BitVec 16} (hd : delivered src s = true)
    (hs : s.rxState = .seekSof) (hn : n.toNat ≤ maxLen s.cfgLenBytes) :
    feedFrom src (Config.sof :: lenfield s.cfgLenBytes n) s =
      .next { s with rxLen := n, rxState := .readCmd0, rxIdx := 0#16,
                     rxAcc := xorfold (lenfield s.cfgLenBytes n) } := by
  rw [feedFrom_cons_next hd (framerStep_sof hs)]
  have h := feedFrom_lenfield (s := { s with rxState := .readLength, rxIdx := 0#16, rxAcc := 0x00#8 }) hd rfl rfl hn
  rw [h, BitVec.zero_xor]

/-- The framer after SOF, `lenfield(n)`, CMD0 `x` and CMDID `y`. -/
def headerRead (n : BitVec 16) (x y : Byte) (s : State) : State :=
  { s with rxIdx := 0#16, rxLen := n, rxType := cmd0Type x, rxSubsys := cmd0Subsys x, rxCmd := y
           rxState := if n = 0#16 then .readFcs else .readPayload
           rxAcc := xorfold (lenfield s.cfgLenBytes n ++ [x, y]) }

/-- Two bytes take READ_CMD0 past READ_CMDID. -/
theorem feedFrom_commands {src : Src} {s : State} (hd : delivered src s = true) (hs : s.rxState = .readCmd0)
    (x y : Byte) : feedFrom src [x, y] s = .next (rxReadCmdid y (rxReadCmd0 x s)) :=
  feedFrom_two hd (framerStep_readCmd0 hs x) (framerStep_readCmdid rfl y)

theorem feedFrom_header {src : Src} {s : State} {n : BitVec 16} (hd : delivered src s = true)
    (hs : s.rxState = .seekSof) (hn : n.toNat ≤ maxLen s.cfgLenBytes) (x y : Byte) :
    feedFrom src (Config.sof :: lenfield s.cfgLenBytes n ++ [x, y]) s = .next (headerRead n x y s) := by
  refine .trans (feedFrom_append_next (feedFrom_sof_lenfield hd hs hn) _)
    (.trans (feedFrom_commands (by exact hd) (by rfl) x y) ?_)
  have hacc : absorb (absorb (xorfold (lenfield s.cfgLenBytes n)) x) y =
      xorfold (lenfield s.cfgLenBytes n ++ [x, y]) := by
    rw [← xorfold_snoc, ← xorfold_snoc, List.append_assoc]; rfl
  by_cases h0 : n = 0#16
  · rw [rxReadCmdid_empty h0]
    simp only [rxReadCmd0, headerRead, hacc, if_pos h0]
  · rw [rxReadCmdid_payload h0]
    simp only [rxReadCmd0, headerRead, hacc, if_neg h0]

/-! ## The header rows -/

/-- Bytes on an open link have a next state and leave everything but the framer alone. -/
theorem linkBytes_completes {s : State} (hopen : linkOpen s = true) (hok : FramerOk s) (bs : Bytes) :
    ∃ t', linkBytes bs s = .next t' ∧ SameTxc s t' ∧ SameConfig s t' ∧ t'.closed = s.closed ∧ t'.inbox = s.inbox ∧
      t'.reportsRead = s.reportsRead := by
  obtain ⟨t', ht⟩ := feedFrom_completes bs hok hopen
  obtain ⟨htxc, hcfg, hcl, hin, hread⟩ := feedFrom_frame ht
  exact ⟨t', ht, htxc, hcfg, hcl, hin, hread⟩

theorem linkBytes_dropped {s : State} (hT : s.cfgHasTransport = true) (hcl : s.closed = true) (bs : Bytes) :
    linkBytes bs s = .next s := by
  rw [linkBytes, linkSource, if_pos hT, feedFrom_dropped hT hcl]

/-- Where the length is a byte, the header's three bytes after SOF are LENGTH, CMD0 and CMDID. -/
theorem linkBytes_header_short {s : State} (hopen : linkOpen s = true) (hs : s.rxState = .seekSof)
    (hc : s.cfgLenBytes = 0#1) (n x y : Byte) :
    linkBytes [Config.sof, n, x, y] s = .next (headerRead (n.setWidth 16) x y s) := by
  have hn : (n.setWidth 16).toNat ≤ maxLen s.cfgLenBytes := by
    have := n.isLt
    rw [hc, maxLen_short, BitVec.toNat_setWidth]
    omega
  have h := feedFrom_header hopen hs hn x y
  rwa [lenfield_short hc, loByte_setWidth] at h

theorem le_maxLen_long {cfg : BitVec 1} (hc : cfg = 1#1) (n : BitVec 16) : n.toNat ≤ maxLen cfg := by
  rw [hc, maxLen_long]
  exact Nat.le_of_lt_succ n.isLt

/-- Where the length is two bytes, the first two after SOF are LENGTH, whatever they were meant for. -/
theorem linkBytes_header_long {s : State} (hopen : linkOpen s = true) (hs : s.rxState = .seekSof)
    (hc : s.cfgLenBytes = 1#1) (lo hi x y : Byte) :
    linkBytes [Config.sof, lo, hi, x, y] s = .next (headerRead (le16 lo hi) x y s) := by
  have h := feedFrom_header hopen hs (le_maxLen_long hc (le16 lo hi)) x y
  rwa [lenfield_long hc, loByte_le16, hiByte_le16] at h

/-- The three bytes after SOF are LENGTH and CMD0 where the length is two bytes. -/
theorem linkBytes_cmd0_long {s : State} (hopen : linkOpen s = true) (hs : s.rxState = .seekSof)
    (hc : s.cfgLenBytes = 1#1) (lo hi x : Byte) :
    linkBytes [Config.sof, lo, hi, x] s =
      .next { s with rxIdx := 0#16, rxLen := le16 lo hi, rxType := cmd0Type x, rxSubsys := cmd0Subsys x,
                     rxState := .readCmdid, rxAcc := xorfold [lo, hi, x] } := by
  have h := feedFrom_append_next (feedFrom_sof_lenfield hopen hs (le_maxLen_long hc (le16 lo hi))) [x]
  rw [lenfield_long hc, loByte_le16, hiByte_le16] at h
  refine .trans h (.trans (feedFrom_cons_next (by exact hopen) (framerStep_readCmd0 (by rfl) x) []) ?_)
  rw [feedFrom_nil, rxReadCmd0, ← xorfold_snoc]
  rfl

/-- A fifth byte after a header whose length is a byte is the next byte of the frame. -/
theorem linkBytes_after_header_short {s : State} (hopen : linkOpen s = true) (hs : s.rxState = .seekSof)
    (hc : s.cfgLenBytes = 0#1) (n x y b : Byte) :
    linkBytes [Config.sof, n, x, y, b] s = framerStep b (headerRead (n.setWidth 16) x y s) := by
  have hd : delivered (linkSource s) (headerRead (n.setWidth 16) x y s) = true := hopen
  refine (feedFrom_append_next (linkBytes_header_short hopen hs hc n x y) [b]).trans ?_
  rw [feedFrom_one, rxFrom_delivered hd]

theorem setWidth_eq_iff {m : BitVec 16} (hm : m.toNat < 256) (n : Byte) : n.setWidth 16 = m ↔ n = loByte m :=
  ⟨fun h => by rw [← h, loByte_setWidth], fun h => by rw [h, setWidth_loByte_of_lt hm]⟩

/-- Settles O26: the header's bytes read in either format, and what any bytes on the link do. -/
theorem headerL1IsReadByFormat : Obligations.HeaderL1IsReadByFormat := by
  intro s n t u c cmd0
  refine ⟨fun hopen hs hc => ?short, fun hopen hs hc => ?long, fun hopen hok => linkBytes_completes hopen hok _,
    fun hT hcl => linkBytes_dropped hT hcl _⟩
  case short =>
    have hzero : n.setWidth 16 = 0#16 ↔ n = 0#8 := setWidth_eq_iff (by decide) n
    refine (linkBytes_header_short hopen hs hc n cmd0 c).trans ?_
    simp only [headerRead, cmd0, lenfield_short hc, loByte_setWidth, cmd0Type_packCmd0, cmd0Subsys_packCmd0_field,
      hzero, List.cons_append, List.nil_append]
  case long => exact linkBytes_cmd0_long hopen hs hc n cmd0 c

/-- READ_FCS right after a header without payload: the record's checksum is the XOR of the header's bytes. -/
theorem rxCsum_headerRead_empty (x y : Byte) (s : State) :
    rxCsum (headerRead 0#16 x y s) = xorfold (lenfield s.cfgLenBytes 0#16 ++ [x, y]) := by
  simp only [rxCsum, headerRead, frameHeader, packCmd0_split, rxPayload]
  exact congrArg xorfold (List.append_nil _)

theorem framerStep_headerRead_empty (x y b : Byte) (s : State) :
    framerStep b (headerRead 0#16 x y s) =
      .next (emit [.data
        { sof := 0xFE#8, len := 0#16, type := cmd0Type x, subsys := cmd0Subsys x, cmd := y, payload := [], fcs := b
          csum := xorfold (lenfield s.cfgLenBytes 0#16 ++ [x, y]) }]
        { headerRead 0#16 x y s with rxState := .seekSof }) := by
  rw [framerStep_readFcs (by rfl), rxReadFcs, rxRecord, rxCsum_headerRead_empty]
  rfl

/-- The first payload byte goes to index 0 of RXBUF, and is the last one where the length is 1. -/
theorem framerStep_headerRead_payload {n : BitVec 16} (hn : n ≠ 0#16) (x y b : Byte) (s : State) :
    framerStep b (headerRead n x y s) =
      .next { headerRead n x y s with
        rxIdx := if n = 1#16 then 0#16 else 1#16, rxbuf := s.rxbuf.write 0 b
        rxState := if n = 1#16 then .readFcs else .readPayload
        rxAcc := xorfold (lenfield s.cfgLenBytes n ++ [x, y, b]) } := by
  have hs : (headerRead n x y s).rxState = .readPayload := if_neg hn
  have hacc : absorb (xorfold (lenfield s.cfgLenBytes n ++ [x, y])) b =
      xorfold (lenfield s.cfgLenBytes n ++ [x, y, b]) := by
    rw [← xorfold_snoc, List.append_assoc]; rfl
  have hidx : (headerRead n x y s).rxIdx.toNat < Config.rxbufSize := Nat.succ_pos 65534
  rw [framerStep_readPayload hs]
  by_cases hone : n = 1#16
  · rw [rxReadPayload_last hidx (by rw [hone]; rfl)]
    simp only [headerRead, hacc, if_pos hone]
    rfl
  · have hmore : (headerRead n x y s).rxIdx.toNat + 1 ≠ (headerRead n x y s).rxLen.toNat :=
      fun h => hone (BitVec.eq_of_toNat_eq h.symm)
    rw [rxReadPayload_more hidx hmore]
    simp only [headerRead, hacc, if_neg hone, if_neg hn]
    rfl

/-- Settles O27: with two length bytes the header is read as it stands; with one, four of its five bytes are a whole
header and the last one is the FCS or the first payload byte. -/
theorem headerL2IsReadByFormat : Obligations.HeaderL2IsReadByFormat := by
  intro s n t u c lo hi cmd0
  refine ⟨fun hopen hs hc => ?long, fun hopen hs hc hlo => ?empty, fun hopen hs hc hlo hbuf => ?payload,
    fun hopen hok => linkBytes_completes hopen hok _, fun hT hcl => linkBytes_dropped hT hcl _⟩
  case long =>
    refine (linkBytes_header_long hopen hs hc lo hi cmd0 c).trans ?_
    simp only [headerRead, lo, hi, cmd0, lenfield_long hc, le16_lo_hi, cmd0Type_packCmd0, cmd0Subsys_packCmd0_field,
      List.cons_append, List.nil_append]
  case empty =>
    have hlen : lo.setWidth 16 = 0#16 := (setWidth_eq_iff (by decide) lo).mpr hlo
    refine (linkBytes_after_header_short hopen hs hc lo hi cmd0 c).trans ?_
    rw [hlen, framerStep_headerRead_empty, lenfield_short hc, hlo]
    simp only [headerRead, emit, lenfield_short hc]
    rfl
  case payload =>
    have hlen : lo.setWidth 16 ≠ 0#16 := fun h => hlo ((setWidth_eq_iff (by decide) lo).mp h)
    have hone : lo.setWidth 16 = 1#16 ↔ lo = 1#8 := setWidth_eq_iff (by decide) lo
    refine ⟨s.rxbuf.write 0 c, Memory.read_write_same (Memory.canonical_of_wf hbuf) 0 c,
      fun a ha => Memory.read_write_other s.rxbuf c ha, ?_⟩
    refine (linkBytes_after_header_short hopen hs hc lo hi cmd0 c).trans ?_
    rw [framerStep_headerRead_payload hlen]
    simp only [headerRead, hone, lenfield_short hc, loByte_setWidth, List.cons_append, List.nil_append]

/-! ## The TYPE rows (30_encoding R94, R95) -/

/-- Each of the eight rows means its CMD0 byte on the link. -/
theorem exec_typeRow (t : BitVec 3) (u : BitVec 5) (s : State) : exec (typeRow t u) s = linkCmd0 t u s := by
  have ht : t = 0#3 ∨ t = 1#3 ∨ t = 2#3 ∨ t = 3#3 ∨ t = 4#3 ∨ t = 5#3 ∨ t = 6#3 ∨ t = 7#3 := by
    revert t; decide
  rcases ht with rfl | rfl | rfl | rfl | rfl | rfl | rfl | rfl <;> rfl

theorem linkCmd0_eq (t : BitVec 3) (u : BitVec 5) (s : State) :
    linkCmd0 t u s = rxFrom (linkSource s) (packCmd0 t (u.setWidth 8)) s :=
  feedFrom_one _ _ s

theorem linkCmd0_readCmd0 {s : State} (hopen : linkOpen s = true) (hs : s.rxState = .readCmd0) (t : BitVec 3)
    (u : BitVec 5) :
    linkCmd0 t u s = .next { s with rxType := t, rxSubsys := u, rxState := .readCmdid
                                    rxAcc := s.rxAcc ^^^ packCmd0 t (u.setWidth 8) } := by
  rw [linkCmd0_eq, rxFrom_delivered hopen, framerStep_readCmd0 hs, rxReadCmd0, cmd0Type_packCmd0,
    cmd0Subsys_packCmd0_field, absorb]

/-- Settles O25: the eight rows are the rows of their type codes. -/
theorem typeRowsGiveTypeAndSubsystem : Obligations.TypeRowsGiveTypeAndSubsystem := by
  refine ⟨fun s u hopen hs i t hmem => ?_, fun s t u => ?_⟩
  · have hrow : i = typeRow t u := by
      simp only [List.mem_cons, List.not_mem_nil, or_false, Prod.mk.injEq] at hmem
      rcases hmem with ⟨rfl, rfl⟩ | ⟨rfl, rfl⟩ | ⟨rfl, rfl⟩ | ⟨rfl, rfl⟩ | ⟨rfl, rfl⟩ | ⟨rfl, rfl⟩ | ⟨rfl, rfl⟩ |
        ⟨rfl, rfl⟩ <;> rfl
    rw [hrow, exec_typeRow, linkCmd0_readCmd0 hopen hs]
  · rw [exec_typeRow, linkCmd0_eq]
    rfl

/-! ## The host's toolchain (30_encoding R113) -/

theorem resolveType_typeName (c : BitVec 3) : resolveType (.name (typeName c)) = .ok c := by
  revert c; decide

theorem resolveType_unknown {nm : String} (h : ∀ c : BitVec 3, nm ≠ typeName c) :
    resolveType (.name nm) = .error .invalidType := by
  have hne : nm ≠ "POLL" ∧ nm ≠ "SREQ" ∧ nm ≠ "AREQ" ∧ nm ≠ "SRSP" ∧ nm ≠ "RES0" ∧ nm ≠ "RES1" ∧ nm ≠ "RES2" ∧
      nm ≠ "RES3" := ⟨h 0#3, h 1#3, h 2#3, h 3#3, h 4#3, h 5#3, h 6#3, h 7#3⟩
  obtain ⟨h0, h1, h2, h3, h4, h5, h6, h7⟩ := hne
  simp only [resolveType, h0, h1, h2, h3, h4, h5, h6, h7, if_false]

/-- A byte passes its port. -/
theorem portNumber_byte (b : Byte) : portNumber (.num b.toNat) = some (true, b) := by
  rw [portNumber, if_pos b.isLt, BitVec.ofNat_toNat, BitVec.setWidth_eq]

/-- Settles O34. -/
theorem toolchainResolvesNames : Obligations.ToolchainResolvesNames := by
  refine fun sub cmd bs => ⟨fun c => ?_, fun nm hnm => ?_⟩
  · simp only [formSend, portType, resolveType_typeName, portNumber_byte, BitVec.ofNat_toNat]
  · simp only [formSend, portType, resolveType_unknown hnm, portNumber_byte]
    rfl

/-! ## The status rows (30_encoding R110, R111) -/

theorem lastDone_of_last (before after : List Output) (d : Done) (h : ∀ o ∈ after, o.isDone = false) :
    lastDone (before ++ [.done d] ++ after) = some d := by
  rw [lastDone_append, lastDone_append, lastDone_eq_none h]
  rfl

theorem takeReport_last {s : State} {d : Done} (h : lastDone s.outputs = some d) (code : BitVec 3) :
    takeReport code s = { s with reportsRead := if d.status = code then s.reportsRead ++ [d] else s.reportsRead } := by
  rw [takeReport_eq, takeReport_reportsRead, h]
  by_cases hd : d.status = code <;> simp [hd]

theorem takeReport_none {s : State} (h : lastDone s.outputs = none) (code : BitVec 3) : takeReport code s = s := by
  rw [takeReport, h]

/-- Settles O47: a status row looks for its code in the last DONE report. -/
theorem statusRowsReadTheReport : Obligations.StatusRowsReadTheReport := by
  refine ⟨⟨fun _ => rfl, rfl, rfl, rfl, fun _ => rfl⟩, fun i code hmem s => ?_⟩
  have hrow : exec i s = .next (takeReport code s) := by
    simp only [List.mem_cons, List.not_mem_nil, or_false, Prod.mk.injEq] at hmem
    rcases hmem with ⟨rfl, rfl⟩ | ⟨rfl, rfl⟩ | ⟨rfl, rfl⟩ | ⟨rfl, rfl⟩ | ⟨rfl, rfl⟩ <;> rfl
  refine ⟨fun before after d hout hafter => ?_, fun hnone => ?_⟩
  · have hlast : lastDone s.outputs = some d := by rw [hout, lastDone_of_last before after d hafter]
    rw [hrow, takeReport_last hlast]
  · rw [hrow, takeReport_none (lastDone_eq_none hnone)]

end Sys2Proof.Machine

/-! # The codec (40_codec): the checksum, the type names, the failures of the encoder, the byte-serial encoder, and the
round trip of a frame through the framer. -/

namespace Sys2Proof.Machine

/-! ## The checksum (40_codec R131, R132) -/

theorem checksum_eq (a b : Bytes) : checksum a b = xorfold a ^^^ xorfold b := xorfold_append a b

theorem xorfold_perm {a b : Bytes} (h : a.Perm b) : xorfold a = xorfold b := by
  induction h with
  | nil => rfl
  | cons x _ ih => rw [xorfold_cons, xorfold_cons, ih]
  | swap x y l => simp only [xorfold_cons, ← BitVec.xor_assoc, BitVec.xor_comm x y]
  | trans _ _ ih₁ ih₂ => exact ih₁.trans ih₂

/-- Settles O28: the checksum is the XOR of two folds, and a fold does not see the order of its bytes. -/
theorem checksumLaws : Obligations.ChecksumLaws := by
  refine ⟨xorfold_nil, xorfold_cons, xorfold_nil, fun b => ?one, fun a b => ?swapped, fun a => ?alone, checksum_eq,
    fun a a' b b' ha hb => ?reordered, xorfold_snoc_self⟩
  case one => rw [checksum_eq, xorfold_cons, xorfold_nil, BitVec.xor_zero, BitVec.xor_zero]
  case swapped => rw [checksum_eq, checksum_eq, BitVec.xor_comm]
  case alone => rw [checksum_eq, xorfold_nil, BitVec.xor_zero]
  case reordered => exact xorfold_perm (ha.append hb)

/-! ## Type names and codes (40_codec R134, R135) -/

theorem resolveType_code (c : BitVec 3) : resolveType (.num c.toNat) = .ok c := by
  rw [resolveType, if_pos (Nat.le_of_lt_succ c.isLt), BitVec.ofNat_toNat, BitVec.setWidth_eq]

/-- Settles O29. -/
theorem typeNamesAndCodesAgree : Obligations.TypeNamesAndCodesAgree :=
  ⟨rfl, fun c => ⟨resolveType_typeName c, resolveType_code c⟩, fun _ hn => if_neg (Nat.not_le.mpr hn),
   fun _ => resolveType_unknown, rfl⟩

/-! ## The answers of `encode` (40_codec R137, R138) -/

theorem encodeChecked_wrongKind {ty : TypeArg} {sub cmd : Option Byte} {p : ByteArg}
    (h : ty = .bad ∨ sub = none ∨ cmd = none ∨ p = .notBytes) (cfg : BitVec 1) :
    encodeChecked cfg ty sub cmd p = some (.error .invalidArgument) := by
  rcases h with rfl | rfl | rfl | rfl
  · rfl
  · cases ty <;> rfl
  · cases ty <;> cases sub <;> rfl
  · cases ty <;> cases sub <;> cases cmd <;> rfl

/-- Arguments of the right kinds leave only the last case of `encodeChecked`, which resolves the type. -/
theorem encodeChecked_unresolved {ty : TypeArg} (hty : ty ≠ .bad) (herr : ∀ c, resolveType ty ≠ .ok c) {p : ByteArg}
    (hp : p ≠ .notBytes) (cfg : BitVec 1) (sub cmd : Byte) :
    encodeChecked cfg ty (some sub) (some cmd) p = some (.error .unresolvedCommand) := by
  cases hres : resolveType ty with
  | ok c => exact absurd hres (herr c)
  | error e => simp only [encodeChecked, hres]

theorem encodeChecked_frame {cfg : BitVec 1} {ty : TypeArg} {c : BitVec 3} (hres : resolveType ty = .ok c)
    {p : ByteArg} (hp : p ≠ .notBytes) (hlen : (argBytes p).length ≤ maxLen cfg) (sub cmd : Byte) :
    encodeChecked cfg ty (some sub) (some cmd) p = some (.ok (encodeFrame cfg c sub cmd (argBytes p))) := by
  have hty : ty ≠ .bad := by rintro rfl; cases hres
  simp only [encodeChecked, hres, if_pos hlen]

/-- Settles O33: one case per answer. -/
theorem encodeFailsInOrder : Obligations.EncodeFailsInOrder := by
  refine fun cfg ty sub cmd p => ⟨fun h => encodeChecked_wrongKind h cfg, fun hty hsub hcmd hp herr => ?_, ?_⟩
  · obtain ⟨s, rfl⟩ := Option.ne_none_iff_exists'.mp hsub
    obtain ⟨k, rfl⟩ := Option.ne_none_iff_exists'.mp hcmd
    exact encodeChecked_unresolved hty herr hp cfg s k
  · rintro c s k hres rfl rfl hp hlen
    exact encodeChecked_frame hres hp hlen s k

/-! ## The byte-serial encoder (40_codec R133, R139) -/

/-- Absorbing while emitting: the bytes pass unchanged, and the accumulator ends at their fold. -/
theorem emitAbsorbing_eq (acc : Byte) (bs : Bytes) : emitAbsorbing acc bs = (bs, bs.foldl absorb acc) := by
  induction bs generalizing acc with
  | nil => rfl
  | cons b bs ih => rw [emitAbsorbing, ih, List.foldl_cons]

/-- Settles O32: from a cleared accumulator the fold is the FCS of `encode`. -/
theorem serialEncoderEmitsTheFrame : Obligations.SerialEncoderEmitsTheFrame := by
  intro cfg t sub cmd p
  have hbody : lenfield cfg (BitVec.ofNat 16 p.length) ++ [packCmd0 t sub] ++ [cmd] ++ p =
      frameBody cfg t sub cmd p := by
    simp only [frameBody, frameHeader, List.append_assoc, List.cons_append, List.nil_append]
  rw [serialEncode, hbody, emitAbsorbing_eq, encodeFrame_eq]
  rfl

/-! ## The payload and the FCS, delivered (41_framer R157, R159) -/

/-- The framer after the rest `p` of a payload, not empty, whose last byte is the one that `rx_len` counts last. -/
def payloadRead (p : Bytes) (s : State) : State :=
  { s with rxState := .readFcs, rxIdx := BitVec.ofNat 16 (s.rxLen.toNat - 1)
           rxbuf := s.rxbuf.writeRange s.rxIdx.toNat p, rxAcc := s.rxAcc ^^^ xorfold p }

theorem framerStep_payload_last {s : State} (hs : s.rxState = .readPayload) (hlen : s.rxIdx.toNat + 1 = s.rxLen.toNat)
    (b : Byte) : framerStep b s = .next (payloadRead [b] s) := by
  have hlt := s.rxLen.isLt
  have hidx : s.rxIdx.toNat < Config.rxbufSize := by simp only [Config.rxbufSize]; omega
  have hend : BitVec.ofNat 16 (s.rxLen.toNat - 1) = s.rxIdx := by
    rw [← hlen, Nat.add_sub_cancel, BitVec.ofNat_toNat, BitVec.setWidth_eq]
  rw [framerStep_readPayload hs, rxReadPayload_last hidx hlen, payloadRead, hend, xorfold_cons, xorfold_nil,
    BitVec.xor_zero]
  rfl

/-- All the bytes that READ_PAYLOAD still lacks take it to READ_FCS. -/
theorem feedFrom_payload {src : Src} {s : State} {b : Byte} {bs : Bytes} (hd : delivered src s = true)
    (hs : s.rxState = .readPayload) (hlen : s.rxIdx.toNat + (b :: bs).length = s.rxLen.toNat) :
    feedFrom src (b :: bs) s = .next (payloadRead (b :: bs) s) := by
  induction bs generalizing s b with
  | nil => rw [feedFrom_cons_next hd (framerStep_payload_last hs hlen b), feedFrom_nil]
  | cons c bs ih =>
    simp only [List.length_cons] at hlen
    have hlt := s.rxLen.isLt
    have hidx : s.rxIdx.toNat < Config.rxbufSize := by simp only [Config.rxbufSize]; omega
    have hstep := framerStep_readPayload hs b
    rw [rxReadPayload_more hidx (by omega)] at hstep
    have hsucc := rxIdx_succ_toNat hidx
    rw [feedFrom_cons_next hd hstep, ih (by exact hd) (by exact hs) ?len]
    case len => simp only [hsucc, List.length_cons]; omega
    simp only [payloadRead, hsucc, Memory.writeRange, absorb, xorfold_cons, BitVec.xor_assoc]

/-- The framer in READ_FCS, after SOF, the length field of the payload `p`, CMD0 `x`, CMDID `y` and `p`. -/
def bodyRead (x y : Byte) (p : Bytes) (s : State) : State :=
  { headerRead (BitVec.ofNat 16 p.length) x y s with
    rxState := .readFcs, rxIdx := BitVec.ofNat 16 (p.length - 1), rxbuf := s.rxbuf.writeRange 0 p
    rxAcc := xorfold (lenfield s.cfgLenBytes (BitVec.ofNat 16 p.length) ++ [x, y] ++ p) }

/-- A payload of at most MAXLEN bytes has a length that LENGTH holds. -/
theorem ofNat_length_toNat {cfg : BitVec 1} {p : Bytes} (h : p.length ≤ maxLen cfg) :
    (BitVec.ofNat 16 p.length).toNat = p.length := by
  have hmax := maxLen_le cfg
  rw [BitVec.toNat_ofNat, Nat.mod_eq_of_lt (by omega)]

theorem feedFrom_body {src : Src} {s : State} {p : Bytes} (hd : delivered src s = true) (hs : s.rxState = .seekSof)
    (hp : p.length ≤ maxLen s.cfgLenBytes) (x y : Byte) :
    feedFrom src (Config.sof :: (lenfield s.cfgLenBytes (BitVec.ofNat 16 p.length) ++ [x, y] ++ p)) s =
      .next (bodyRead x y p s) := by
  have hn := ofNat_length_toNat hp
  have hheader := feedFrom_append_next (feedFrom_header hd hs (hn.trans_le hp) x y) p
  refine .trans hheader ?_
  cases p with
  | nil => simp only [feedFrom_nil, bodyRead, headerRead, List.append_nil, List.length_nil]; rfl
  | cons b bs =>
    have hne : BitVec.ofNat 16 (b :: bs).length ≠ 0#16 := fun h => by
      rw [h, List.length_cons] at hn
      exact absurd hn.symm (Nat.succ_ne_zero _)
    rw [feedFrom_payload (by exact hd) (by exact if_neg hne) (by exact (Nat.zero_add _).trans hn.symm)]
    simp only [payloadRead, bodyRead, headerRead, hn, xorfold_append]
    rfl

/-- The record of a frame is its contents, and the recomputed checksum the XOR of its bytes between SOF and FCS. -/
theorem rxRecord_bodyRead {s : State} (hbuf : Memory.canonicalFrom 0 s.rxbuf = true) {p : Bytes}
    (hp : p.length ≤ maxLen s.cfgLenBytes) (x y fcs : Byte) :
    rxRecord fcs (bodyRead x y p s) =
      { sof := Config.sof, len := BitVec.ofNat 16 p.length, type := cmd0Type x, subsys := cmd0Subsys x, cmd := y
        payload := p, fcs := fcs
        csum := xorfold (lenfield s.cfgLenBytes (BitVec.ofNat 16 p.length) ++ [x, y] ++ p) } := by
  have hpayload : rxPayload (bodyRead x y p s) = p := by
    simp only [rxPayload, bodyRead, headerRead, ofNat_length_toNat hp, Memory.readRange_writeRange hbuf]
  rw [rxRecord, rxCsum, hpayload]
  simp only [bodyRead, headerRead, frameHeader, packCmd0_split, checksum]

/-- A whole frame from SEEK_SOF ends in the step of READ_FCS (41_framer R159). -/
theorem feedFrom_frameBytes {src : Src} {s : State} {p : Bytes} (hd : delivered src s = true)
    (hs : s.rxState = .seekSof) (hp : p.length ≤ maxLen s.cfgLenBytes) (x y fcs : Byte) :
    feedFrom src (Config.sof :: (lenfield s.cfgLenBytes (BitVec.ofNat 16 p.length) ++ [x, y] ++ p ++ [fcs])) s =
      .next (rxReadFcs fcs (bodyRead x y p s)) := by
  refine (feedFrom_append_next (feedFrom_body hd hs hp x y) [fcs]).trans ?_
  rw [feedFrom_cons_next (by exact hd) (framerStep_readFcs (by rfl) fcs), feedFrom_nil]

/-! ## The round trip (40_codec R141) -/

/-- A delivered frame of the encoder: the framer recomputes over the body the XOR that the encoder put behind it. -/
theorem feedFrom_encodeFrame {src : Src} {s : State} {p : Bytes} (hd : delivered src s = true)
    (hs : s.rxState = .seekSof) (hbuf : Memory.canonicalFrom 0 s.rxbuf = true) (hp : p.length ≤ maxLen s.cfgLenBytes)
    (ty : BitVec 3) (sub cmd : Byte) :
    let fcs := xorfold (frameBody s.cfgLenBytes ty sub cmd p)
    ∃ t, feedFrom src (encodeFrame s.cfgLenBytes ty sub cmd p) s = .next t ∧ t.rxState = .seekSof ∧
      t.outputs = s.outputs ++ [.data
        { sof := Config.sof, len := BitVec.ofNat 16 p.length, type := ty, subsys := sub.setWidth 5, cmd := cmd
          payload := p, fcs := fcs, csum := fcs }] := by
  intro fcs
  have hrecord := rxRecord_bodyRead hbuf hp (packCmd0 ty sub) cmd fcs
  rw [cmd0Type_packCmd0, cmd0Subsys_packCmd0] at hrecord
  refine ⟨rxReadFcs fcs (bodyRead (packCmd0 ty sub) cmd p s), feedFrom_frameBytes hd hs hp (packCmd0 ty sub) cmd fcs,
    rfl, ?_⟩
  rw [rxReadFcs, hrecord]
  rfl

/-- Settles O21. -/
theorem encodedFrameDecodesToItsArguments : Obligations.EncodedFrameDecodesToItsArguments := by
  intro src s arg ty sub cmd p hd hs hbuf hres hp
  obtain ⟨t, hfed, hseek, hout⟩ := feedFrom_encodeFrame hd hs (Memory.canonical_of_wf hbuf) hp ty sub cmd
  exact ⟨_, t, xorfold (frameBody s.cfgLenBytes ty sub cmd p), sub.setWidth 5,
    encodeChecked_frame (p := .bytes p) hres nofun hp sub cmd, (runEvents_rxbytes src _ s).trans hfed, hseek,
    BitVec.toNat_setWidth 5 sub, List.getLast?_concat (l := Config.sof :: frameBody s.cfgLenBytes ty sub cmd p), hout⟩

end Sys2Proof.Machine

/-! # The framer (41_framer): one delivered byte in each state, RECEIVE, and whole frames from SEEK_SOF. -/

namespace Sys2Proof.Machine

/-! ## Delivery (41_framer R151) -/

theorem delivered_transport_iff (s : State) :
    delivered .transport s = true ↔ s.cfgHasTransport = true ∧ s.closed = false := by
  simp [delivered]

theorem delivered_host_iff (s : State) : delivered .host s = true ↔ s.closed = false := by
  simp [delivered]

theorem rxFrom_transport_refused {s : State} (hT : s.cfgHasTransport = false) (b : Byte) :
    rxFrom .transport b s = .refused .transportByteWithoutTransport := by
  simp [rxFrom, delivery, delivered, hT]

theorem rxFrom_host_refused {s : State} (hcl : s.closed = true) (b : Byte) :
    rxFrom .host b s = .refused .receiveAfterClose := by
  simp [rxFrom, delivery, delivered, hcl]

/-- Settles O9. -/
theorem undeliveredByteHasNoEffect : Obligations.UndeliveredByteHasNoEffect := fun b s =>
  ⟨delivered_transport_iff s, delivered_host_iff s, fun hT hcl => rxFrom_dropped hT hcl b,
    fun hT => rxFrom_transport_refused hT b, fun hcl => rxFrom_host_refused hcl b⟩

/-! ## RXBYTE in each state (41_framer R152 to R159) -/

theorem framerStep_discard {s : State} {b : Byte} (hs : s.rxState = .seekSof) (hb : b ≠ Config.sof) :
    framerStep b s = .next s := by
  simp only [framerStep, hs, rxSeekSof_discard hb]

/-- Settles O10. -/
theorem seekSofAcceptsOnlyTheMarker : Obligations.SeekSofAcceptsOnlyTheMarker := by
  intro src b s hd hs
  rw [exec_rxbyte_delivered hd]
  split_ifs with hb
  · subst hb
    exact framerStep_sof hs
  · exact framerStep_discard hs hb

/-- The low byte of a word, in place, is the word masked. -/
theorem setWidth_loByte (n : BitVec 16) : (loByte n).setWidth 16 = n &&& 0x00FF#16 := by
  apply BitVec.eq_of_toNat_eq
  have hmask : n.toNat &&& 255 = n.toNat % 256 := Nat.and_two_pow_sub_one_eq_mod n.toNat 8
  simp only [loByte, BitVec.toNat_setWidth, BitVec.toNat_and, BitVec.toNat_ofNat, Nat.reducePow, Nat.reduceMod, hmask]
  omega

/-- Settles O11: the step is READ_LENGTH's own, with the low byte kept under a mask. -/
theorem readLengthIsLittleEndian : Obligations.ReadLengthIsLittleEndian := by
  intro src b s hd hs len
  rw [exec_rxbyte_delivered hd, framerStep_readLength hs]
  simp only [rxReadLength, le16, setWidth_loByte]
  exact apply_ite Host.Outcome.next _ _ _

theorem cmd0Type_toNat (b : Byte) : (cmd0Type b).toNat = b.toNat / 32 := by
  have hb := b.isLt
  simp only [cmd0Type, BitVec.extractLsb'_toNat, Nat.shiftRight_eq_div_pow]
  omega

/-- Settles O12. -/
theorem readCmd0SplitsTheByte : Obligations.ReadCmd0SplitsTheByte := by
  intro src b s hd hs
  refine ⟨cmd0Type b, cmd0Subsys b, cmd0Type_toNat b, BitVec.toNat_setWidth 5 b, ?_⟩
  rw [exec_rxbyte_delivered hd, framerStep_readCmd0 hs]
  rfl

/-- Settles O13. -/
theorem readCmdidOpensThePayload : Obligations.ReadCmdidOpensThePayload := by
  intro src b s hd hs
  rw [exec_rxbyte_delivered hd, framerStep_readCmdid hs]
  split_ifs with h0
  · rw [rxReadCmdid_empty h0]; rfl
  · rw [rxReadCmdid_payload h0]; rfl

/-- An index below a length of 16 bits is one that RXBUF has (20_memory R68). -/
theorem rxIdx_lt_rxbufSize {s : State} (h : s.rxIdx.toNat < s.rxLen.toNat) : s.rxIdx.toNat < Config.rxbufSize := by
  have hlen := s.rxLen.isLt
  simp only [Config.rxbufSize]
  omega

/-- Settles O14: the new RXBUF is the old one written at `rx_idx`. -/
theorem readPayloadStoresOneByte : Obligations.ReadPayloadStoresOneByte := by
  intro src b s hd hs hin hbuf
  have hidx := rxIdx_lt_rxbufSize hin
  refine ⟨s.rxbuf.write s.rxIdx.toNat b, Memory.read_write_same (Memory.canonical_of_wf hbuf) _ b,
    fun a ha => Memory.read_write_other s.rxbuf b ha, ?_⟩
  rw [exec_rxbyte_delivered hd, framerStep_readPayload hs]
  split_ifs with hlast
  · rw [rxReadPayload_last hidx hlast]; rfl
  · rw [rxReadPayload_more hidx hlast]; rfl

/-- Settles O15. -/
theorem readFcsEmitsTheRecord : Obligations.ReadFcsEmitsTheRecord := by
  intro src b s hd hs payload cmd0
  rw [exec_rxbyte_delivered hd, framerStep_readFcs hs]
  rfl

/-! ## RECEIVE as its bytes (41_framer R161) -/

theorem exec_receive_closed {s : State} {arg : ByteArg} (harg : arg ≠ .notBytes) (hcl : s.closed = true) :
    exec (.receive arg) s = .refused .receiveAfterClose :=
  (if_neg harg).trans (if_pos hcl)

theorem exec_receive_open {s : State} {arg : ByteArg} (harg : arg ≠ .notBytes) (hcl : s.closed = false) :
    exec (.receive arg) s = feedFrom .host (argBytes arg) s :=
  (if_neg harg).trans (if_neg (by simp [hcl]))

theorem exec_receive_bytes {s : State} (hcl : s.closed = false) (c : Bytes) :
    exec (.receive (.bytes c)) s = feedFrom .host c s :=
  exec_receive_open (arg := .bytes c) nofun hcl

/-- Settles O17. -/
theorem receiveChecksItsArgument : Obligations.ReceiveChecksItsArgument := by
  intro s
  refine ⟨rfl, fun a ha hcl => exec_receive_closed ha hcl, fun hcl c => ?bytes, fun hcl => ⟨?absent, ?empty⟩⟩
  case bytes => rw [runEvents_rxbytes, exec_receive_bytes hcl]
  case absent => exact exec_receive_open (arg := .absent) nofun hcl
  case empty => exact exec_receive_bytes hcl []

/-- A sequence of offered bytes emits records only. -/
theorem feedFrom_outputs {src : Src} {bs : Bytes} {s t : State} (h : feedFrom src bs s = .next t) :
    ∃ os, t.outputs = s.outputs ++ os ∧ ∀ o ∈ os, o.isData = true := by
  induction bs generalizing s with
  | nil =>
    cases h
    exact ⟨[], (List.append_nil _).symm, nofun⟩
  | cons b bs ih =>
    obtain ⟨u, hbyte, hrest⟩ := andThen_eq_next h
    obtain ⟨os, hos, hdata⟩ := ih hrest
    rcases rxFrom_cases hbyte with ⟨-, hstep⟩ | ⟨-, -, -, rfl⟩
    · rw [framerStep_outputs hstep, List.append_assoc] at hos
      refine ⟨_, hos, fun o ho => ?_⟩
      rcases List.mem_append.mp ho with hrec | ho
      · split_ifs at hrec
        · rw [List.mem_singleton.mp hrec]; rfl
        · cases hrec
      · exact hdata o ho
    · exact ⟨os, hos, hdata⟩

/-- Settles O18. -/
theorem receiveCompletesForEveryChunk : Obligations.ReceiveCompletesForEveryChunk := by
  intro s bs hok hcl
  obtain ⟨t, ht⟩ := feedFrom_completes bs hok ((delivered_host_iff s).mpr hcl)
  obtain ⟨htxc, hcfg, hclosed, hin, hread⟩ := feedFrom_frame ht
  obtain ⟨os, hos, hdata⟩ := feedFrom_outputs ht
  exact ⟨t, os, (exec_receive_bytes hcl bs).trans ht, htxc, hcfg, hclosed, hin, hread, hos, hdata⟩

/-! ## Chunk boundaries (41_framer R162) -/

/-- Two continuations that agree on the next state, where there is one, end alike. -/
theorem andThen_congr {o : Out} {f g : State → Out} (h : ∀ t, o = .next t → f t = g t) : andThen o f = andThen o g := by
  cases o with
  | next t => exact h t rfl
  | fault r => rfl
  | refused r => rfl

/-- Chunks received one after another are their bytes in order. -/
theorem runEvents_receives {s : State} (hcl : s.closed = false) (cs : List Bytes) :
    runEvents (cs.map fun c => .receive (.bytes c)) s = feedFrom .host cs.flatten s := by
  induction cs generalizing s with
  | nil => rfl
  | cons c cs ih =>
    rw [List.map_cons, runEvents_cons, exec_receive_bytes hcl, List.flatten_cons, feedFrom_append]
    exact andThen_congr fun t ht => ih ((feedFrom_frame ht).closed.trans hcl)

/-- Where both sources are delivered, a sequence of bytes does not show which one it came from. -/
theorem feedFrom_source {src src' : Src} {s : State} (hd : delivered src s = true) (hd' : delivered src' s = true)
    (bs : Bytes) : feedFrom src bs s = feedFrom src' bs s := by
  induction bs generalizing s with
  | nil => rfl
  | cons b bs ih =>
    rw [feedFrom_cons_delivered hd, feedFrom_cons_delivered hd']
    refine andThen_congr fun t ht => ?_
    have hframe := framerStep_frame ht
    exact ih ((delivered_of_frame hframe).trans hd) ((delivered_of_frame hframe).trans hd')

/-- Settles O19: whole, in parts or byte by byte, a chunk is `feedFrom` of its bytes. -/
theorem receiveIsItsBytesInOrder : Obligations.ReceiveIsItsBytesInOrder := by
  intro s c1 c2 hcl
  have hhost := (delivered_host_iff s).mpr hcl
  refine ⟨?parts, ?host, fun hT => ?transport, fun cs ty sub cmd p hs hbuf hp hcs => ?frame⟩
  case parts =>
    have hparts := runEvents_receives hcl [c1, c2]
    rw [List.flatten_cons, List.flatten_singleton] at hparts
    rw [exec_receive_bytes hcl, ← hparts]
    rfl
  case host => rw [exec_receive_bytes hcl, rxh, runEvents_rxbytes]
  case transport =>
    rw [exec_receive_bytes hcl, rxt, runEvents_rxbytes]
    exact feedFrom_source hhost ((delivered_transport_iff s).mpr ⟨hT, hcl⟩) c1
  case frame =>
    obtain ⟨t, hfed, -, hout⟩ := feedFrom_encodeFrame hhost hs (Memory.canonical_of_wf hbuf) hp ty sub cmd
    refine ⟨t, _, ?_, (exec_receive_bytes hcl _).trans hfed, hout⟩
    rw [runEvents_receives hcl, hcs, hfed]

/-! ## Whole frames from SEEK_SOF (41_framer R158 to R160, R163) -/

/-- Settles O20: the framer ends READ_FCS in the state whose record `rxRecord_bodyRead` reads off. -/
theorem everyCompleteFrameIsEmittedOnce : Obligations.EveryCompleteFrameIsEmittedOnce := by
  intro src s cmd0 cmd fcs p hd hs hbuf hp n body
  have hfed := feedFrom_frameBytes hd hs hp cmd0 cmd fcs
  have hframe := feedFrom_frame hfed
  refine ⟨_, (runEvents_rxbytes src _ s).trans hfed, rfl, hframe.txc, hframe.config, ?_⟩
  rw [rxReadFcs, rxRecord_bodyRead (Memory.canonical_of_wf hbuf) hp]
  rfl

/-- In SEEK_SOF bytes other than the marker leave the whole state as it was. -/
theorem feedFrom_garbage {src : Src} {s : State} {g : Bytes} (hd : delivered src s = true) (hs : s.rxState = .seekSof)
    (hg : Config.sof ∉ g) : feedFrom src g s = .next s := by
  induction g with
  | nil => rfl
  | cons b g ih =>
    obtain ⟨hb, hrest⟩ := List.ne_and_not_mem_of_not_mem_cons hg
    rw [feedFrom_cons_next hd (framerStep_discard hs (Ne.symm hb)), ih hrest]

/-- Settles O22. -/
theorem garbageBeforeAFrameIsDiscarded : Obligations.GarbageBeforeAFrameIsDiscarded := by
  intro src s g ty sub cmd p hd hs hbuf hp hg
  obtain ⟨t, hfed, hseek, hout⟩ := feedFrom_encodeFrame hd hs (Memory.canonical_of_wf hbuf) hp ty sub cmd
  refine ⟨t, _, ?_, hseek, hout, rfl, rfl, rfl, rfl, rfl⟩
  rw [runEvents_rxbytes, feedFrom_append_next (feedFrom_garbage hd hs hg), hfed]

/-! ## A length counts the payload's bytes (41_framer R158, R164) -/

/-- Fewer bytes than READ_PAYLOAD still lacks leave it there, with the index moved on. -/
theorem feedFrom_payload_part {src : Src} {s : State} {bs : Bytes} (hd : delivered src s = true)
    (hs : s.rxState = .readPayload) (hlen : s.rxIdx.toNat + bs.length < s.rxLen.toNat) :
    feedFrom src bs s =
      .next { s with rxIdx := BitVec.ofNat 16 (s.rxIdx.toNat + bs.length)
                     rxbuf := s.rxbuf.writeRange s.rxIdx.toNat bs, rxAcc := s.rxAcc ^^^ xorfold bs } := by
  induction bs generalizing s with
  | nil => simp [Memory.writeRange]
  | cons b bs ih =>
    rw [List.length_cons] at hlen
    have hidx := rxIdx_lt_rxbufSize (s := s) (by omega)
    have hsucc := rxIdx_succ_toNat hidx
    have hstep := framerStep_readPayload hs b
    rw [rxReadPayload_more hidx (by omega)] at hstep
    rw [feedFrom_cons_next hd hstep, ih (by exact hd) (by exact hs) ?len]
    case len => simp only [hsucc]; omega
    simp only [hsucc, Memory.writeRange, absorb, xorfold_cons, BitVec.xor_assoc, List.length_cons, Nat.add_assoc,
      Nat.add_comm 1]

/-- Settles O23: either bytes are still lacking, or the last one that `rx_len` counts has come. -/
theorem lengthHoldsTheFramerInThePayload : Obligations.LengthHoldsTheFramerInThePayload := by
  intro src s bs hok hd hs hle
  simp only [runEvents_rxbytes]
  rcases Nat.lt_or_eq_of_le hle with hlt | heq
  · exact ⟨_, feedFrom_payload_part hd hs hlt, rfl, rfl, fun _ => hs, fun heq => absurd heq hlt.ne⟩
  · cases bs with
    | nil => exact absurd heq (hok.payloadIndex hs).ne
    | cons b bs => exact ⟨_, feedFrom_payload hd hs heq, rfl, rfl, fun hlt => absurd heq hlt.ne, fun _ => rfl⟩

end Sys2Proof.Machine

/-! # The Transmit Controller (42_txc): SEND in each mode, the acknowledgments, the captured error, the timer and its
bound, CLOSE, and the SENDs that wait for their turn. -/

namespace Sys2Proof.Machine

/-! ## The time left of a send (42_txc R195)

The bound drops with every TICK that leaves the send in flight and rises with no event: the drain wait that WRACK begins
is counted in it from the start. -/

theorem ticksLeft_idle {s : State} (hst : s.txState = .idle) : ticksLeft s = 0 := by simp only [ticksLeft, hst]

theorem ticksLeft_waitWrack {s : State} (hst : s.txState = .waitWrack) :
    ticksLeft s = s.txTimer.toNat - 1 + (if s.txBp then 1100 else 1) := by simp only [ticksLeft, hst]

theorem ticksLeft_waitDrain {s : State} (hst : s.txState = .waitDrain) : ticksLeft s = s.txTimer.toNat := by
  simp only [ticksLeft, hst]

theorem ticksLeft_congr {s t : State} (h : SameTxc s t) : ticksLeft t = ticksLeft s := by
  simp only [ticksLeft, h.txState, h.txTimer, h.txBp]

/-- A wait always has a TICK left to survive or to end on. -/
theorem ticksLeft_pos {s : State} (hok : TxcOk s) (hst : s.txState ≠ .idle) : 0 < ticksLeft s := by
  cases hs : s.txState with
  | idle => exact absurd hs hst
  | waitWrack =>
    rw [ticksLeft_waitWrack hs]
    split_ifs <;> omega
  | waitDrain =>
    rw [ticksLeft_waitDrain hs]
    exact (hok.drainTimer hs).1

/-- 1149 ticks before the last one of the first wait, then 1100 of the drain wait. -/
theorem ticksLeft_le {s : State} (hok : TxcOk s) : ticksLeft s ≤ 2249 := by
  cases hs : s.txState with
  | idle => simp only [ticksLeft_idle hs, Nat.zero_le]
  | waitWrack =>
    have hbound := hok.wrackTimer hs
    rw [ticksLeft_waitWrack hs]
    split_ifs <;> omega
  | waitDrain =>
    have hbound := hok.drainTimer hs
    rw [ticksLeft_waitDrain hs]
    omega

/-- What is no event of the controller leaves all its registers alone. -/
theorem exec_sameTxc_of_not_txc {i : Instr} (hi : isTxcEvent i = false) {s t : State} (h : exec i s = .next t) :
    SameTxc s t := by
  rcases exec_shape i s with ⟨src, bs, hfeed⟩ | ⟨arg, rfl⟩ | htxc | rfl | hrow
  · rw [hfeed] at h
    exact (feedFrom_frame h).txc
  · exact (exec_framer_frame rfl h).txc
  · exact absurd htxc (by simp [hi])
  · obtain ⟨-, -, rfl⟩ := execClose_cases h
    constructor <;> rfl
  · obtain ⟨ds, rfl⟩ := statusRow_cases hrow h
    constructor <;> rfl

theorem execSend_ticksLeft {d : SendDesc} {s t : State} (hst : s.txState ≠ .idle) (h : execSend d s = .next t) :
    ticksLeft t = ticksLeft s := by
  rw [execSend_busy hst] at h
  cases h
  rfl

/-- WRACK ends the send or begins the drain wait, whose 1100 units were counted before. -/
theorem execWrack_ticksLeft {s t : State} (hpos : 0 < ticksLeft s) (h : execWrack s = .next t) :
    t.txState = .idle ∨ 0 < ticksLeft t ∧ ticksLeft t ≤ ticksLeft s := by
  rcases execWrack_cases h with ⟨-, rfl⟩ | ⟨hst, hbp, rfl⟩ | ⟨-, -, hfin⟩
  · exact .inr ⟨hpos, le_rfl⟩
  · have hdrain : ticksLeft (enterDrainWait s) = 1100 := rfl
    rw [hdrain, ticksLeft_waitWrack hst, if_pos hbp]
    exact .inr ⟨by omega, by omega⟩
  · exact .inl (finish_txState hfin)

theorem execDrain_ticksLeft {s t : State} (hpos : 0 < ticksLeft s) (h : execDrain s = .next t) :
    t.txState = .idle ∨ 0 < ticksLeft t ∧ ticksLeft t ≤ ticksLeft s := by
  rcases execDrain_cases h with ⟨-, rfl⟩ | ⟨-, hfin⟩
  · exact .inr ⟨hpos, le_rfl⟩
  · exact .inl (finish_txState hfin)

theorem execTerr_ticksLeft {e : Byte} {s t : State} (h : execTerr e s = .next t) : ticksLeft t = ticksLeft s := by
  rcases execTerr_cases h with ⟨-, rfl⟩ | ⟨-, rfl⟩ <;> rfl

/-- Counting down takes one from the number of units left. -/
theorem countDown_toNat {n : BitVec 11} (h : 1 ≤ n.toNat) : (n - 1#11).toNat = n.toNat - 1 :=
  BitVec.toNat_sub_of_le (y := 1#11) h

/-- TICK ends the send or uses one unit up. -/
theorem execTick_ticksLeft {s t : State} (hst : s.txState ≠ .idle) (h : execTick s = .next t) :
    t.txState = .idle ∨ 0 < ticksLeft t ∧ ticksLeft t + 1 ≤ ticksLeft s := by
  rcases execTick_cases h with ⟨hidle, -⟩ | ⟨-, htwo, rfl⟩ | ⟨-, -, rfl⟩
  · exact absurd hidle hst
  · have htimer := countDown_toNat (n := s.txTimer) (by omega)
    refine .inr ?_
    cases hs : s.txState with
    | idle => exact absurd hs hst
    | waitWrack =>
      rw [ticksLeft_waitWrack hs, ticksLeft_waitWrack rfl]
      dsimp only
      split_ifs <;> omega
    | waitDrain =>
      rw [ticksLeft_waitDrain hs, ticksLeft_waitDrain rfl]
      dsimp only
      omega
  · exact .inl rfl

/-! ## The bound on a send (42_txc R195) -/

theorem tickCount_cons (i : Instr) (is : List Instr) :
    tickCount (i :: is) = tickCount is + if i = .tick then 1 else 0 := by
  simp [tickCount, List.countP_cons]

/-- One event of any kind ends the send in flight, or leaves it in flight with the event's tick used up. -/
theorem exec_ticksLeft {i : Instr} {s t : State} (hpos : 0 < ticksLeft s) (h : exec i s = .next t) :
    t.txState = .idle ∨ 0 < ticksLeft t ∧ ticksLeft t + (if i = .tick then 1 else 0) ≤ ticksLeft s := by
  have hst : s.txState ≠ .idle := fun hidle => by simp [ticksLeft_idle hidle] at hpos
  cases htxc : isTxcEvent i with
  | false =>
    have hsame := ticksLeft_congr (exec_sameTxc_of_not_txc htxc h)
    have hne : i ≠ .tick := by rintro rfl; cases htxc
    rw [if_neg hne, hsame]
    exact .inr ⟨hpos, le_rfl⟩
  | true =>
    cases i <;> simp only [isTxcEvent, Bool.false_eq_true] at htxc
    case send d => exact .inr (by rw [execSend_ticksLeft hst h]; exact ⟨hpos, le_rfl⟩)
    case wrack => exact execWrack_ticksLeft hpos h
    case drain => exact execDrain_ticksLeft hpos h
    case terr e => exact .inr (by rw [execTerr_ticksLeft h]; exact ⟨hpos, le_rfl⟩)
    case tick => exact execTick_ticksLeft hst h

/-- A script with a TICK for every one that is left passes through an idle controller. -/
theorem runEvents_reaches_idle {s t : State} {is : List Instr} (hpos : 0 < ticksLeft s)
    (hticks : ticksLeft s ≤ tickCount is) (h : runEvents is s = .next t) :
    ∃ (n : Nat) (u : State), n ≤ is.length ∧ runEvents (is.take n) s = .next u ∧ u.txState = .idle := by
  induction is generalizing s with
  | nil => exact absurd (hpos.trans_le hticks) (Nat.lt_irrefl 0)
  | cons i is ih =>
    obtain ⟨v, hexec, hrest⟩ := andThen_eq_next h
    have hfirst : ∀ n, runEvents ((i :: is).take (n + 1)) s = runEvents (is.take n) v := fun n => by
      rw [List.take_succ_cons, runEvents_cons, hexec, andThen_next]
    rcases exec_ticksLeft hpos hexec with hidle | ⟨hpos', hle⟩
    · exact ⟨1, v, by simp, hfirst 0, hidle⟩
    · rw [tickCount_cons] at hticks
      obtain ⟨n, u, hn, hrun, hidle⟩ := ih hpos' (by omega) hrest
      exact ⟨n + 1, u, Nat.succ_le_succ hn, (hfirst n).trans hrun, hidle⟩

/-- Settles O43: `ticksLeft` is a measure that TICK lowers and nothing raises. -/
theorem everySendEndsWithinItsBound : Obligations.EverySendEndsWithinItsBound :=
  ⟨fun _ _ _ hok hst hticks h => runEvents_reaches_idle (ticksLeft_pos hok hst) hticks h, fun _ => ticksLeft_le⟩

/-! ## TICK (42_txc R191, R192, R231) -/

theorem exec_tick_countDown {s : State} (hst : s.txState ≠ .idle) (htwo : 2 ≤ s.txTimer.toNat) :
    exec .tick s = .next { s with txTimer := BitVec.ofNat 11 (s.txTimer.toNat - 1) } := by
  have htimer : s.txTimer - 1#11 = BitVec.ofNat 11 (s.txTimer.toNat - 1) := by
    rw [← countDown_toNat (by omega), BitVec.ofNat_toNat, BitVec.setWidth_eq]
  rw [← htimer]
  exact (execTick_waiting hst).trans (if_pos htwo)

/-- The tick that finds one unit left reports TIMEOUT, whatever was captured. -/
theorem exec_tick_timeout {s : State} (hst : s.txState ≠ .idle) (hone : s.txTimer = 1#11) :
    exec .tick s =
      .next { s with txObs := false, txState := .idle, outputs := s.outputs ++ [.done .timeout] } :=
  (execTick_waiting hst).trans (if_neg (by simp [hone]))

/-- Settles O41. -/
theorem tickCountsDownToTimeout : Obligations.TickCountsDownToTimeout := fun _ =>
  ⟨execTick_idle, exec_tick_countDown, exec_tick_timeout⟩

/-- With `n + 1` units left a wait survives `n` ticks. -/
theorem runEvents_ticks {s : State} {n : Nat} (hst : s.txState ≠ .idle) (hleft : s.txTimer.toNat = n + 1) :
    runEvents (ticks n) s = .next { s with txTimer := 1#11 } := by
  induction n generalizing s with
  | zero =>
    have hone : 1#11 = s.txTimer := BitVec.eq_of_toNat_eq hleft.symm
    rw [hone]
    rfl
  | succ n ih =>
    have hlt := s.txTimer.isLt
    rw [ticks, List.replicate_succ, runEvents_cons, exec_tick_countDown hst (by omega), andThen_next]
    exact ih (by exact hst) (by rw [BitVec.toNat_ofNat]; omega)

/-- Settles O42, by induction on the units left. -/
theorem waitTimesOutOnItsLastTick : Obligations.WaitTimesOutOnItsLastTick := by
  intro s hst hone
  obtain ⟨n, hn⟩ : ∃ n, s.txTimer.toNat = n + 1 := ⟨_, (Nat.sub_add_cancel hone).symm⟩
  have hwait := runEvents_ticks hst hn
  rw [hn]
  refine ⟨hwait, ?_⟩
  have hlast : ticks (n + 1) = ticks n ++ [.tick] := List.replicate_succ'
  rw [hlast, runEvents_append, hwait, andThen_next, runEvents_cons, exec_tick_timeout (by exact hst) rfl]
  rfl

/-! ## SEND in an idle controller (42_txc R182, R184, R185) -/

theorem argsOk_iff (d : SendDesc) :
    argsOk d = true ↔ d.typeOk = true ∧ d.subsysOk = true ∧ d.cmdOk = true ∧ d.payload ≠ .notBytes := by
  simp [argsOk, and_assoc]

theorem admitted_iff (d : SendDesc) (s : State) :
    admitted d s = true ↔ (argBytes d.payload).length ≤ maxLen s.cfgLenBytes := by
  refine ⟨argBytes_length_le, fun hlen => ?_⟩
  cases hp : d.payload with
  | absent => simp [admitted, hp]
  | bytes bs => simpa [admitted, argBytes, hp] using hlen
  | notBytes => simp [admitted, hp]

/-- A type byte that is a code resolves to that code. -/
theorem type_code {b : Byte} {ty : BitVec 3} (h : b.toNat = ty.toNat) :
    b.toNat ≤ 7 ∧ BitVec.ofNat 3 b.toNat = ty := by
  have hlt := ty.isLt
  exact ⟨by omega, by rw [h, BitVec.ofNat_toNat, BitVec.setWidth_eq]⟩

/-- Settles O36. -/
theorem sendEncodesWithoutTransport : Obligations.SendEncodesWithoutTransport := by
  intro s hst hobs hT
  refine ⟨fun d ty htype hsub hcmd hpl hlen hty => ?send, execWrack_ignored (by simp [hst]),
    execDrain_ignored (by simp [hst]), execTick_idle hst, execTerr_unobserved hobs⟩
  obtain ⟨hle, rfl⟩ := type_code hty
  exact execSend_encodeOnly hst ((admitted_iff d s).mpr hlen) ((argsOk_iff d).mpr ⟨htype, hsub, hcmd, hpl⟩) hle hT

/-- The prescribed answer is the one given, and is used up. -/
theorem sendWrite_prescribed {s : State} {a : Bool} {as : List Bool} (h : s.answers = a :: as) (d : SendDesc)
    (c : BitVec 3) :
    nextAnswer s = a ∧ (sendWrite d c s).answers = as ∧ (sendWrite d c s).draws = s.draws := by
  simp [nextAnswer, sendWrite, takeAnswer, h]

/-- Without a prescribed answer the next free one is given. -/
theorem sendWrite_free {s : State} (h : s.answers = []) (d : SendDesc) (c : BitVec 3) :
    (sendWrite d c s).answers = [] ∧ (sendWrite d c s).draws = s.draws + 1 := by
  simp [sendWrite, takeAnswer, h]

/-- Settles O37: `sendWrite`, field by field. -/
theorem sendWritesAndWaits : Obligations.SendWritesAndWaits := by
  intro d s ty hst hT htype hsub hcmd hpl hlen hty hbuf pkt
  have hadm := (admitted_iff d s).mpr hlen
  obtain ⟨hle, rfl⟩ := type_code hty
  obtain ⟨hframer, hconfig, hin, hread⟩ := sendWrite_frame d (BitVec.ofNat 3 d.type.toNat) s
  refine ⟨sendWrite d (BitVec.ofNat 3 d.type.toNat) s,
    execSend_write hst hadm ((argsOk_iff d).mpr ⟨htype, hsub, hcmd, hpl⟩) hle hT,
    rfl, rfl, rfl, rfl, ?err, rfl, rfl, rfl, rfl, sendWrite_txPktlen_toNat hadm _,
    Memory.readRange_writeRange (Memory.canonical_of_wf hbuf) 0 pkt,
    fun a ha => Memory.read_writeRange_other s.txbuf (.inr ((Nat.zero_add pkt.length).trans_le ha)),
    sendWrite_outputs d _ s, hframer, hconfig, hin, ?held, hread,
    fun a as h => sendWrite_prescribed h d _, fun h => sendWrite_free h d _⟩
  case err => exact takeAnswer_txErr s
  case held => exact takeAnswer_held s

/-! ## Acknowledgments and errors (42_txc R186 to R190) -/

/-- Settles O38. -/
theorem wrackEndsOrDefersTheSend : Obligations.WrackEndsOrDefersTheSend := fun _ =>
  ⟨execWrack_backpressure,
    fun hst hbp herr => (execWrack_finish hst hbp).trans (finish_error herr),
    fun hst hbp herr hlen => (execWrack_finish hst hbp).trans (finish_success herr hlen),
    execWrack_ignored⟩

/-- Settles O39. -/
theorem drainEndsTheSend : Obligations.DrainEndsTheSend := fun _ =>
  ⟨fun hst herr => (execDrain_finish hst).trans (finish_error herr),
    fun hst herr hlen => (execDrain_finish hst).trans (finish_success herr hlen),
    execDrain_ignored⟩

/-- The first error of a window is always kept. -/
theorem captureError_first {s : State} (hval : s.txErrValid = false) (e : Byte) :
    captureError e s = { s with txErr := e, txErrValid := true } := by
  simp [captureError, keepsError, hval]

/-- A later error of a window replaces the one kept as ERR_KEEP says. -/
theorem captureError_later {s : State} (hval : s.txErrValid = true) (e : Byte) :
    captureError e s = { s with txErr := if Config.errKeep = .last then e else s.txErr } := by
  simp [captureError, keepsError, hval]

/-- Settles O40. -/
theorem terrIsCapturedInTheWindow : Obligations.TerrIsCapturedInTheWindow := fun e _ =>
  ⟨fun hobs hval => (execTerr_captured hobs e).trans (congrArg _ (captureError_first hval e)),
    fun hobs hval => (execTerr_captured hobs e).trans (congrArg _ (captureError_later hval e)),
    fun hobs => execTerr_unobserved hobs e⟩

/-! ## CLOSE (42_txc R197) -/

theorem exec_close_withoutTransport {s : State} (hT : s.cfgHasTransport = false) :
    exec .close s = .refused .closeWithoutTransport := if_pos (by simp [hT])

theorem exec_close_twice {s : State} (hT : s.cfgHasTransport = true) (hcl : s.closed = true) :
    exec .close s = .refused .closeTwice := (if_neg (by simp [hT])).trans (if_pos hcl)

/-- Settles O44. -/
theorem closeDetachesTheFramerOnly : Obligations.CloseDetachesTheFramerOnly := fun _ =>
  ⟨exec_close_open, exec_close_withoutTransport, exec_close_twice⟩

/-! ## Held SENDs (42_txc R181, 60_exceptions R236) -/

/-- Of an instant's words the one taken is among them. -/
theorem takeFirst_mem (w : PortWord) (ws : List PortWord) : (takeFirst w ws).1 ∈ w :: ws :=
  (takeFirst_perm w ws).subset List.mem_cons_self

/-- An idle controller with no other event of the instant left turns to the oldest held SEND. -/
theorem nextWork_heldSend {s : State} {d : SendDesc} {ds : List SendDesc} (hst : s.txState = .idle)
    (hheld : s.held = d :: ds)
    (hrest : s.inbox = [] ∨ ∃ ws rest, s.inbox = .instant ws :: rest ∧ ∀ w ∈ ws, priority w = sendPriority) :
    nextWork s = .heldSend d { s with held := ds } := by
  have hready := heldOr_ready hst hheld
  rcases hrest with hin | ⟨_ | ⟨w, ws⟩, rest, hin, hsend⟩
  · simp only [nextWork, hin, hready]
  · simp only [nextWork, hin, hready]
  · simp only [nextWork, hin, hready, if_pos (hsend _ (takeFirst_mem w ws))]

/-- Settles O8. -/
theorem busySendStaysOfferedUntilIdle : Obligations.BusySendStaysOfferedUntilIdle := by
  refine ⟨fun d s hst => execSend_busy hst d, fun d ds s hst hheld hrest => ?_⟩
  rw [step, nextWork_heldSend hst hheld hrest]
  rfl

end Sys2Proof.Machine

/-! # Exceptions (60_exceptions): the order of coincident events, the order of SEND's checks, and the one DONE that ends a
send. -/

namespace Sys2Proof.Machine

/-! ## Coincident events (60_exceptions R236)

The place of each event's word, whatever its operands. -/

@[simp] theorem priority_terr (e : Byte) : priority (encode (.terr e)) = 0 := rfl

@[simp] theorem priority_wrack : priority (encode .wrack) = 1 := rfl

@[simp] theorem priority_drain : priority (encode .drain) = 2 := rfl

@[simp] theorem priority_tick : priority (encode .tick) = 3 := rfl

@[simp] theorem priority_rxbyte (src : Src) (b : Byte) : priority (encode (.rxbyte src b)) = 4 := rfl

@[simp] theorem priority_receive (a : ByteArg) : priority (encode (.receive a)) = 5 := rfl

@[simp] theorem priority_close : priority (encode .close) = 6 := rfl

@[simp] theorem priority_send (d : SendDesc) : priority (encode (.send d)) = 8 := rfl

/-- A first word of the instant that has no instruction ends the run when it is taken. -/
theorem step_word_undecodable {s : State} {w : PortWord} {ws : List PortWord} {rest : List Slot} {e : DecodeError}
    (hin : s.inbox = .instant (w :: ws) :: rest)
    (hfirst : priority (takeFirst w ws).1 ≠ sendPriority ∨ s.held = [] ∨ s.txState ≠ .idle)
    (hdec : decode (takeFirst w ws).1 = .error e) : step s = .refused (.undecodable e) := by
  rw [step, nextWork_word hin hfirst]
  simp only [runWork, hdec]

/-- Settles O7: the word taken is that of `takeFirst`. -/
theorem coincidentEventsAreTakenInOrder : Obligations.CoincidentEventsAreTakenInOrder := by
  refine ⟨fun s w ws rest hin => ?taken, fun e b src a d => ?order⟩
  case taken =>
    exact ⟨_, _, takeFirst_perm w ws, takeFirst_le w ws, fun hfirst =>
      ⟨fun _ => step_word hin hfirst, fun _ => step_word_undecodable hin hfirst⟩⟩
  case order => simp [sendPriority]

/-! ## The checks of a SEND in TX_IDLE (60_exceptions R229, 42_txc R182, R183) -/

theorem execSend_tooLong {d : SendDesc} {s : State} (hst : s.txState = .idle) (hadm : admitted d s = false) :
    execSend d s = .refused .payloadTooLong := by
  simp [execSend, hst, hadm]

theorem argsOk_eq_false_iff (d : SendDesc) :
    argsOk d = false ↔ d.typeOk = false ∨ d.subsysOk = false ∨ d.cmdOk = false ∨ d.payload = .notBytes := by
  rw [← Bool.not_eq_true, argsOk_iff]
  simp only [not_and_or, Bool.not_eq_true, ne_eq, not_not]

/-- Settles O35, by the checks that come before each answer. -/
theorem sendChecksInOrder : Obligations.SendChecksInOrder := by
  refine fun d s hst => ⟨fun bs hpl hlong => ?tooLong, fun hlen => ⟨fun hbad => ?badArgs,
    fun htype hsub hcmd hpl hcode => ?badType⟩⟩
  case tooLong =>
    have hadm : ¬ admitted d s = true := fun hadm => by
      have hle := argBytes_length_le hadm
      rw [hpl, argBytes] at hle
      omega
    exact execSend_tooLong hst (Bool.eq_false_of_not_eq_true hadm)
  case badArgs => exact execSend_badArgs hst ((admitted_iff d s).mpr hlen) ((argsOk_eq_false_iff d).mpr hbad)
  case badType =>
    exact execSend_badType hst ((admitted_iff d s).mpr hlen) ((argsOk_iff d).mpr ⟨htype, hsub, hcmd, hpl⟩) hcode

/-! ## The one DONE of a send (60_exceptions R241, R245) -/

/-- From `s` to `t` the send in flight goes on, and nothing is reported. -/
structure SendGoesOn (s t : State) : Prop where
  inFlight : t.txState ≠ .idle
  quiet : t.outputs = s.outputs

/-- From `s` to `t` the send in flight ends: one DONE, after everything else that is emitted, and the observer released. -/
structure SendEnds (s t : State) : Prop where
  idle : t.txState = .idle
  released : t.txObs = false
  report : ∃ (os : List Output) (d : Done), t.outputs = s.outputs ++ os ++ [.done d] ∧ ∀ o ∈ os, o.isDone = false

theorem SendGoesOn.refl {s : State} (hst : s.txState ≠ .idle) : SendGoesOn s s := ⟨hst, rfl⟩

/-- TIMEOUT and TRANSPORT_ERROR are a send's whole report. -/
theorem sendEnds_raiseFailure {k : Failure} (hk : k.endsSend = true) (s : State) : SendEnds s (raiseFailure k s) where
  idle := by simp [hk]
  released := by simp [hk]
  report := ⟨[], k.done s, by simp, by simp⟩

/-- `finish` reports the captured error alone, or FLUSHED before DONE(OK). -/
theorem finish_sendEnds {s t : State} (h : finish s = .next t) : SendEnds s t := by
  rcases finish_cases h with ⟨-, rfl⟩ | ⟨-, -, rfl⟩
  · exact sendEnds_raiseFailure rfl s
  · exact ⟨rfl, rfl, [.flushed s.txType s.txSubsys s.txCmd], _, List.append_cons _ _ _, by simp [Output.isDone]⟩

/-- A SEND offered during a send is held. -/
theorem execSend_goesOn {d : SendDesc} {s t : State} (hst : s.txState ≠ .idle) (h : execSend d s = .next t) :
    SendGoesOn s t := by
  rw [execSend_busy hst] at h
  cases h
  exact ⟨hst, rfl⟩

theorem execWrack_goesOn_or_ends {s t : State} (hst : s.txState ≠ .idle) (h : execWrack s = .next t) :
    SendGoesOn s t ∨ SendEnds s t := by
  rcases execWrack_cases h with ⟨-, rfl⟩ | ⟨-, -, rfl⟩ | ⟨-, -, hfin⟩
  · exact .inl (.refl hst)
  · exact .inl ⟨TxState.noConfusion, rfl⟩
  · exact .inr (finish_sendEnds hfin)

theorem execDrain_goesOn_or_ends {s t : State} (hst : s.txState ≠ .idle) (h : execDrain s = .next t) :
    SendGoesOn s t ∨ SendEnds s t := by
  rcases execDrain_cases h with ⟨-, rfl⟩ | ⟨-, hfin⟩
  · exact .inl (.refl hst)
  · exact .inr (finish_sendEnds hfin)

/-- A transport error is captured, and reported only when the send ends. -/
theorem execTerr_goesOn {e : Byte} {s t : State} (hst : s.txState ≠ .idle) (h : execTerr e s = .next t) :
    SendGoesOn s t := by
  rcases execTerr_cases h with ⟨-, rfl⟩ | ⟨-, rfl⟩
  · exact .refl hst
  · exact ⟨hst, rfl⟩

theorem execTick_goesOn_or_ends {s t : State} (hst : s.txState ≠ .idle) (h : execTick s = .next t) :
    SendGoesOn s t ∨ SendEnds s t := by
  rcases execTick_cases h with ⟨-, rfl⟩ | ⟨-, -, rfl⟩ | ⟨-, -, rfl⟩
  · exact .inl (.refl hst)
  · exact .inl ⟨hst, rfl⟩
  · exact .inr (sendEnds_raiseFailure rfl s)

/-- An event of the controller during a send leaves it in flight, or ends it. -/
theorem exec_txc_goesOn_or_ends {i : Instr} (hi : isTxcEvent i = true) {s t : State} (hst : s.txState ≠ .idle)
    (h : exec i s = .next t) : SendGoesOn s t ∨ SendEnds s t := by
  cases i <;> simp only [isTxcEvent, Bool.false_eq_true] at hi
  case send d => exact .inl (execSend_goesOn hst h)
  case wrack => exact execWrack_goesOn_or_ends hst h
  case drain => exact execDrain_goesOn_or_ends hst h
  case terr e => exact .inl (execTerr_goesOn hst h)
  case tick => exact execTick_goesOn_or_ends hst h

/-- Settles O46, one controller event at a time. -/
theorem eachSendEndsWithOneDone : Obligations.EachSendEndsWithOneDone := by
  intro i s t hi hst h
  rcases exec_txc_goesOn_or_ends hi hst h with hon | hend
  · exact ⟨fun _ => hon.quiet, fun hidle => absurd hidle hon.inFlight⟩
  · obtain ⟨os, d, hout, hothers⟩ := hend.report
    exact ⟨fun hne => absurd hend.idle hne, fun _ => ⟨os, d, hout, hothers, hend.released⟩⟩

end Sys2Proof.Machine

/-! # Reset (70_reset): what a construction leaves of the state, and which configurations it refuses. -/

namespace Sys2Proof.Machine

/-! ## The configured length of the length field (70_reset R261) -/

theorem lenBytesCode_one : lenBytesCode (some 1) = some 0#1 := rfl

/-- An absent `lenBytes` means 2. -/
theorem lenBytesCode_two_or_absent {lb : Option Nat} (h : lb = none ∨ lb = some 2) : lenBytesCode lb = some 1#1 := by
  rcases h with rfl | rfl <;> rfl

theorem lenBytesCode_of_other {lb : Option Nat} (habsent : lb ≠ none) (hone : lb ≠ some 1) (htwo : lb ≠ some 2) :
    lenBytesCode lb = none := by
  unfold lenBytesCode
  obtain ⟨n, rfl⟩ := Option.ne_none_iff_exists'.mp habsent
  split
  · next h => exact absurd (congrArg some h) hone
  · next h => exact absurd (congrArg some h) htwo
  · rfl

/-! ## The step of a construction (70_reset R260, R262) -/

theorem construct_of_code {lb : Option Nat} {c : BitVec 1} (hcode : lenBytesCode lb = some c) (ht : Bool) (s : State) :
    construct lb ht s = .next { State.reset with
      cfgLenBytes := c, cfgHasTransport := ht,
      inbox := s.inbox, held := s.held, answers := s.answers, draws := s.draws, outputs := s.outputs,
      reportsRead := s.reportsRead } := by
  simp only [construct, hcode]

theorem construct_refused {lb : Option Nat} (hcode : lenBytesCode lb = none) (ht : Bool) (s : State) :
    construct lb ht s = .refused .badLenBytes := by
  simp only [construct, hcode]

/-- An offered construction is taken before any held SEND. -/
theorem step_construct {s : State} {lb : Option Nat} {ht : Bool} {rest : List Slot}
    (hin : s.inbox = .construct lb ht :: rest) : step s = construct lb ht { s with inbox := rest } := by
  simp only [step, nextWork, hin, runWork]

/-- Settles O5: the step is the construction, and its three answers are those of the configured `lenBytes`. -/
theorem constructionDiscardsTheInstance : Obligations.ConstructionDiscardsTheInstance := by
  intro s lb ht rest hin
  rw [step_construct hin]
  refine ⟨?one, ?twoOrAbsent, ?other⟩
  case one => rintro rfl; exact construct_of_code lenBytesCode_one ht _
  case twoOrAbsent => exact fun h => construct_of_code (lenBytesCode_two_or_absent h) ht _
  case other =>
    exact fun habsent hone htwo => construct_refused (lenBytesCode_of_other habsent hone htwo) ht _

end Sys2Proof.Machine

/-! # Words of the tables (30_encoding parts A and B): a word written out is the encoding of its row. -/

namespace Sys2Proof.Machine

/-- A word that the encoder gives a well-formed instruction decodes to that instruction. -/
theorem decode_of_encode_eq {i : Instr} {w : PortWord} (hwf : WellFormed i = true) (henc : encode i = w) :
    decode w = .ok i :=
  henc ▸ decodeOfEncodeIsTheInstruction i hwf

/-- Settles O2: each word is the encoding of its instruction, and the decoder inverts the encoder. -/
theorem wordsOfTheTableDecode : Obligations.WordsOfTheTableDecode := by
  refine ⟨?rxbyte, ?receive, ?terr, ?tick, ?typeSreq, ?frameHdrL1, ?frameHdrL2, ?doneTimeout⟩
  case rxbyte | receive | terr | tick => exact decode_of_encode_eq rfl rfl
  case typeSreq | frameHdrL1 | frameHdrL2 => exact decode_of_encode_eq rfl rfl
  case doneTimeout => exact decode_of_encode_eq rfl rfl

end Sys2Proof.Machine
